-- ==== Sys2Proof/Word.lean ====
section
/-! DEFINITION. The block's word types: byte, halfword, word (00_scope.md R7). -/

namespace Sys2Proof

/-- A byte, 8 bits (R7). -/
abbrev Byte := BitVec 8

/-- A halfword, 16 bits (R7); the width of CRC_A (R102). -/
abbrev Halfword := BitVec 16

/-- A word, 32 bits (R7). -/
abbrev Word := BitVec 32

end Sys2Proof
end

