-- ==== Sys2Proof/Syntax.lean ====
section
/-! DEFINITION. The records a received frame is turned into (10_state.md R25, R26) and the instructions:
one constructor for each row of spec/opcode_table.json (30_encoding.md R99, R100, R103). -/

namespace Sys2Proof

/-- The class of a received frame (10_state.md R25). -/
inductive FrameType
  | short
  | standard
  | anticollision
  | error
  deriving DecidableEq, Repr, Inhabited

/-- A DandelionRequest (10_state.md R26): the Dandelion code, the number of valid payload bytes and the
fixed-capacity payload buffer, `BUF_CAP` = 48 bytes. -/
structure Request where
  command : Byte
  plen : Nat
  payload : Vector Byte 48
  deriving DecidableEq, Repr, Inhabited

/-- The record the Frame Classifier builds (10_state.md R25). -/
structure Frame where
  /-- `L`, the raw bit count. -/
  length : Nat
  frameType : FrameType
  /-- The 7-bit code of a short frame, the first data byte of any other, 0 for an `error` frame. -/
  command : Byte
  parityOk : Bool
  /-- The received bits without parity bits, in reception order. -/
  dataBits : List Bool
  /-- The whole data bytes `B[0..n-1]`. -/
  bytes : List Byte
  request : Option Request
  deriving DecidableEq, Repr, Inhabited

/-- One received command: one constructor for each row of the opcode table.

Operands. `link` is the link payload `B[1..n-3]` of a standard frame (40_frame_classifier.md R149), the
checksum left out. A SEL frame in AC form carries `NVB` and the UID bits `data_bits[16..k-1]` (R109). A SEL frame in
SELECT form, or any other standard frame with a SEL code and a right checksum, carries `B[1..n-3]`, which the
engine tests (42_anticollision.md R203). A Dandelion command carries its request payload, whose length the
command tests (43_dandelion_commands.md R231). `dandCmd` is a DAND_CMD frame that selects none of the nine
Dandelion rows: no code, an unknown code, or more than 48 payload bytes. -/
inductive Instr
  | reqa
  | wupa
  | timeslot
  | hlta (link : List Byte)
  | ratsDand (link : List Byte)
  | deselectDand (link : List Byte)
  | t2tRead (link : List Byte)
  | dandCmd (link : List Byte)
  | sel1Ac (nvb : Byte) (uidBits : List Bool)
  | sel1Select (link : List Byte)
  | sel2Ac (nvb : Byte) (uidBits : List Bool)
  | sel2Select (link : List Byte)
  | sel3Ac (nvb : Byte) (uidBits : List Bool)
  | sel3Select (link : List Byte)
  | readWord (payload : List Byte)
  | readHalfword (payload : List Byte)
  | readByte (payload : List Byte)
  | writeWord (payload : List Byte)
  | writeHalfword (payload : List Byte)
  | writeByte (payload : List Byte)
  | call (payload : List Byte)
  | sendMessage (payload : List Byte)
  | loopback (payload : List Byte)
  deriving DecidableEq, Repr, Inhabited

end Sys2Proof
end

