-- ==== Sys2Proof/Config.lean ====
section
/-! DEFINITION. The constants of 00_scope.md R5, the configuration of 00_scope.md R6 and 10_state.md R35 to R43 as
plain data, and the uninterpreted functions that stand for what the spec leaves open (free values: no body). -/

namespace Sys2Proof

/-! ## Constants the source fixes (00_scope.md R5) -/

def cmdReqa : Byte := 0x26
def cmdWupa : Byte := 0x52
def cmdTimeslot : Byte := 0x35
def cmdHlta : Byte := 0x50
def cmdSel1 : Byte := 0x93
def cmdSel2 : Byte := 0x95
def cmdSel3 : Byte := 0x97
def cmdRatsDand : Byte := 0x47
def cmdDeselectDand : Byte := 0x48
def cmdT2tRead : Byte := 0x30
def cmdDand : Byte := 0x01
def dcReadWord : Byte := 0x80
def dcReadHalfword : Byte := 0x81
def dcReadByte : Byte := 0x82
def dcWriteWord : Byte := 0x70
def dcWriteHalfword : Byte := 0x71
def dcWriteByte : Byte := 0x72
def dcCall : Byte := 0x90
def dcSendMessage : Byte := 0x60
def dcLoopback : Byte := 0xFF
def ackCallFunc : Byte := 0x90
def ackSendMsg : Byte := 0x60
def rloopback : Byte := 0xFF
def errRecCrc : Byte := 0xAA
def errRecCrcp : Byte := 0xA5
def errReadProtected : Byte := 0xC0
def errWriteProtected : Byte := 0xD0
def errMisAligned : Byte := 0xDD
def errUnknownCmd : Byte := 0xAF
def errMsgCallDisabled : Byte := 0xED
/-- `NVB = 0x70` marks the SELECT form (30_encoding.md R108). -/
def nvbSelect : Byte := 0x70
/-- Capacity in bytes of the request and of the response payload buffer. -/
abbrev bufCap : Nat := 48
/-- Number of 32-bit words of the mailbox. -/
abbrev mailboxWords : Nat := 64
/-- Size in bytes of the mailbox window (20_memory.md R74). -/
abbrev mailboxBytes : Nat := 256

/-! ## Enumerations -/

/-- The seven protocol states (10_state.md R21), in the order the source lists them. -/
inductive TagState
  | idle
  | ready0
  | active0
  | halt
  | ready1
  | active1
  | protDand
  deriving DecidableEq, Repr, Inhabited

/-- AccessState, and the region privilege, which has the same four values (10_state.md R38). -/
inductive AccessState
  | readWrite
  | readOnly
  | writeOnly
  | noAccess
  deriving DecidableEq, Repr, Inhabited

/-- What an access wants (20_memory.md R76). -/
inductive Intent
  | read
  | write
  deriving DecidableEq, Repr, Inhabited

/-- The verdict of the address check (20_memory.md R77). -/
inductive Verdict
  | allowed
  | denied
  | misaligned
  deriving DecidableEq, Repr, Inhabited

/-- Access widths, 1, 2 and 4 bytes (20_memory.md R65). -/
inductive Width
  | byte
  | halfword
  | word
  deriving DecidableEq, Repr, Inhabited

/-- The seven owner ids (10_state.md R37). -/
inductive Owner
  | rom1
  | rom2
  | ram1
  | ram2
  | hw1
  | hw2
  | hw3
  deriving DecidableEq, Repr, Inhabited

/-- One value for each of the seven owners. -/
structure PerOwner (α : Type) where
  rom1 : α
  rom2 : α
  ram1 : α
  ram2 : α
  hw1 : α
  hw2 : α
  hw3 : α
  deriving DecidableEq, Repr, Inhabited

/-- What the collaborator behind a region is (20_memory.md R63, R70: "which regions behave like plain memory is the
configuration's business"): byte memory that holds the last value written, its halfwords and words in either
byte order, or a device about which nothing is known. DESIGN CHOICE (log 6). -/
inductive Backing
  | plainLittle
  | plainBig
  | device
  deriving DecidableEq, Repr, Inhabited

/-- The fixed part of a region: the closed-open interval `[start, stop)` (10_state.md R37) and its backing. -/
structure Region where
  start : Nat
  stop : Nat
  backing : Backing
  deriving DecidableEq, Repr, Inhabited

/-- The tag's identifier of 4, 7 or 10 bytes (10_state.md R35). -/
inductive Uid
  | single (u : Vector Byte 4)
  | double (u : Vector Byte 7)
  | triple (u : Vector Byte 10)
  deriving DecidableEq, Repr, Inhabited

/-- A registered callback, by name (10_state.md R31, 44_mailbox_registry.md R271; log 7): the two built-ins (R273), the
function `add` of the spec's test configuration T1, and any function of the platform, numbered. -/
inductive Callback
  | mailboxAddr
  | mailboxSize
  | testAdd
  | platform (k : Nat)
  deriving DecidableEq, Repr, Inhabited

/-! ## The reply record -/

/-- A DandelionResponse (10_state.md R27). -/
structure Response where
  /-- Number of data bits to transmit, before checksum and parity. -/
  bitLength : Nat
  sendReply : Bool
  appendChecksum : Bool
  payload : Vector Byte 48
  deriving DecidableEq, Repr, Inhabited

/-- What a handler asks the block to answer: nothing, whole bytes, or bits (00_scope.md R8 `reply …`). -/
inductive Reply
  | noResponse
  | bytes (bs : List Byte) (crc : Bool)
  | bits (bs : List Bool)
  deriving DecidableEq, Repr, Inhabited

/-! ## Memory and the collaborators' state -/

/-- The plain byte memory behind the address space: (address, byte) pairs in the canonical form of
`Memory.wf` (Machine/Ops.lean). -/
abbrev Memory := List (Nat × BitVec 8)

/-- The 64 words of the mailbox (10_state.md R30). -/
abbrev Mailbox := Vector Word 64

/-- `env` of 20_memory.md R70: the plain memory, and the state of all devices as one abstract number (log 5). -/
structure Env where
  mem : Memory
  dev : Nat
  deriving DecidableEq, Repr, Inhabited

/-- What one invocation of a platform callback does (44_mailbox_registry.md R271): the mailbox after it, the bytes of
plain memory it wrote, in order, the devices' state after it and its 32-bit result (log 7). -/
structure CallbackEffect where
  mailbox : Mailbox
  writes : List (Word × Byte)
  dev : Nat
  result : Word
  deriving DecidableEq, Repr, Inhabited

/-- What an `AUX_HANDLER` gives (41_link_commands.md R164, R173): the new `tag_state` and the reply. -/
structure AuxResult where
  tagState : TagState
  reply : Reply
  deriving DecidableEq, Repr, Inhabited

/-! ## The configuration -/

/-- The inputs that `ConfigChange` may give new values (10_state.md R43): the two enables (R40, R41), the regions'
privileges (R37) and the NVM pages' access states (R39). -/
structure LiveConfig where
  messageEnable : Bool
  callEnable : Bool
  priv : PerOwner AccessState
  pageAccess : List AccessState
  deriving DecidableEq, Repr, Inhabited

/-- The configuration: the parameters of 00_scope.md R6. All but `live` are constant while the block runs
(10_state.md R42, R43). A statement about every state holds for every configuration. -/
structure Cfg where
  uid : Uid
  atqa0 : Byte
  atqa1 : Byte
  sakCascade : Byte
  sakComplete : Byte
  /-- `CT`, the cascade tag. -/
  ct : Byte
  ackReadWord : Byte
  ackReadHalfword : Byte
  ackReadByte : Byte
  ackWriteWord : Byte
  ackWriteHalfword : Byte
  ackWriteByte : Byte
  ratsReply : List Byte
  deselectReply : List Byte
  rxMaxBits : Nat
  region : PerOwner Region
  nvmStart : Nat
  nvmStop : Nat
  nvmPageSize : Nat
  mailboxBase : Nat
  fidMailboxAddr : Byte
  fidMailboxSize : Byte
  /-- `INIT_REGISTRY` beside the two built-ins (44_mailbox_registry.md R273). -/
  extraRegistry : List (Byte × Callback)
  /-- Whether an `AUX_HANDLER` is supplied (92_eei_decisions.md D29). -/
  auxPresent : Bool
  live : LiveConfig
  deriving DecidableEq, Repr, Inhabited

/-- The configuration of `State.reset`: the defaults of 00_scope.md R6 and 30_encoding.md R101, and for every parameter
that has none the spec's own test configuration T1 (95_test_vectors.md L2). DESIGN CHOICE, unsafe (log 2). -/
def Cfg.testT1 : Cfg where
  uid := .single #v[0x04, 0xA1, 0xB2, 0xC3]
  atqa0 := 0x04
  atqa1 := 0x00
  sakCascade := 0x04
  sakComplete := 0x00
  ct := 0x88
  ackReadWord := 0x80
  ackReadHalfword := 0x81
  ackReadByte := 0x82
  ackWriteWord := 0x70
  ackWriteHalfword := 0x71
  ackWriteByte := 0x72
  ratsReply := [0x47]
  deselectReply := [0x48]
  rxMaxBits := 468
  region :=
    { rom1 := ⟨0x00000000, 0x00004000, .plainLittle⟩
      rom2 := ⟨0x00010000, 0x00018000, .plainLittle⟩
      ram1 := ⟨0x20000000, 0x20002000, .plainLittle⟩
      ram2 := ⟨0x20002000, 0x20004000, .plainLittle⟩
      hw1 := ⟨0x40000000, 0x40001000, .plainLittle⟩
      hw2 := ⟨0x40010000, 0x40011000, .plainLittle⟩
      hw3 := ⟨0x40020000, 0x40021000, .plainLittle⟩ }
  nvmStart := 0x00010000
  nvmStop := 0x00010200
  nvmPageSize := 128
  mailboxBase := 0x20003F00
  fidMailboxAddr := 0x01
  fidMailboxSize := 0x02
  extraRegistry := [(0x10, .testAdd)]
  auxPresent := false
  live :=
    { messageEnable := true
      callEnable := true
      priv :=
        { rom1 := .readOnly
          rom2 := .readOnly
          ram1 := .readWrite
          ram2 := .readWrite
          hw1 := .readWrite
          hw2 := .writeOnly
          hw3 := .noAccess }
      pageAccess := [.readWrite, .readOnly, .writeOnly, .noAccess] }

/-! ## Free values: uninterpreted, nothing constrains them -/

/-- Word `w` of the mailbox after the `k`-th reset: "an arbitrary value chosen once at reset (a draw)"
(10_state.md R46, 70_reset_and_hazards.md R320). Free value (log 3). -/
opaque Config.mailboxDraw : Nat → Nat → Word

/-- What the byte of plain memory at an address holds before anything wrote it: "any value drawn by `ExtMem`"
(93_implementation_defined.md I5). Free value (log 4). -/
opaque Config.powerOnByte : Nat → Byte

/-- `ExtMem.read` of a device (20_memory.md R70): from the devices' state, the address and the number of bytes, the value
(its low bytes count) and the devices' state after the read. Free value (log 5). -/
opaque Config.deviceRead : Nat → Nat → Nat → Nat × Nat

/-- `ExtMem.write` of a device (20_memory.md R70): from the devices' state, the address, the number of bytes and the
value, the devices' state after the write. Free value (log 5). -/
opaque Config.deviceWrite : Nat → Nat → Nat → Nat → Nat

/-- Platform callback number `k` (44_mailbox_registry.md R271), a total function of mailbox and `env`.
Free value (log 7). -/
opaque Config.platformCallback : Nat → Mailbox → Env → CallbackEffect

/-- `AUX_HANDLER(tag_state, frame)` (41_link_commands.md R164, R173), where one is supplied. Free value (log 8). -/
opaque Config.auxHandler : TagState → Frame → AuxResult

end Sys2Proof
end

