-- ==== Sys2Proof/WellFormed.lean ====
section
/-! DEFINITION. Which instructions a frame can carry: the operand shapes of 30_encoding.md R104 to R116 and the raw
length the receive buffer allows (R128). Decoding an ill-formed term's encoding gives another instruction. -/

namespace Sys2Proof

/-- The nine Dandelion codes (30_encoding.md R100). -/
def dandCodes : List Byte :=
  [dcReadWord, dcReadHalfword, dcReadByte, dcWriteWord, dcWriteHalfword, dcWriteByte, dcCall, dcSendMessage,
    dcLoopback]

/-- A SEL frame in AC form (30_encoding.md R109): at most 32 UID bits, and a byte-aligned one has `NVB != 0x70`, or it
would not be in AC form. -/
def wfAc (nvb : Byte) (uidBits : List Bool) : Bool :=
  decide (uidBits.length ≤ 32) && (uidBits.length % 8 != 0 || nvb != nvbSelect)

/-- A standard SEL frame that is not in AC form (30_encoding.md R109, R110): more than 6 bytes, or `NVB = 0x70`. -/
def wfSelect (link : List Byte) : Bool :=
  decide (4 ≤ link.length) || link.head? == some nvbSelect

/-- A DAND_CMD frame that selects none of the nine Dandelion rows (30_encoding.md R103, R111). -/
def wfDandCmd : List Byte → Bool
  | [] => true
  | code :: payload => !dandCodes.contains code || decide (bufCap < payload.length)

/-- A Dandelion request (10_state.md R26): at most 48 payload bytes. -/
def wfPayload (payload : List Byte) : Bool := decide (payload.length ≤ bufCap)

/-- The instruction's operands are such that a frame carries exactly it. -/
def Instr.wf : Instr → Bool
  | .reqa | .wupa | .timeslot => true
  | .hlta _ | .ratsDand _ | .deselectDand _ | .t2tRead _ => true
  | .dandCmd link => wfDandCmd link
  | .sel1Ac nvb u | .sel2Ac nvb u | .sel3Ac nvb u => wfAc nvb u
  | .sel1Select link | .sel2Select link | .sel3Select link => wfSelect link
  | .readWord p | .readHalfword p | .readByte p => wfPayload p
  | .writeWord p | .writeHalfword p | .writeByte p => wfPayload p
  | .call p | .sendMessage p | .loopback p => wfPayload p

/-- The raw length of the frame of a standard instruction with `n` data bytes, checksum included (30_encoding.md R92). -/
def rawStandard (n : Nat) : Nat := 9 * n

/-- The raw length of an AC-form frame with `m` UID bits (30_encoding.md R93, R95). -/
def rawAc (m : Nat) : Nat := 9 * ((16 + m) / 8) + (16 + m) % 8

/-- `L`, the raw bit length of the instruction's frame (30_encoding.md R91 to R93). -/
def Instr.rawBits : Instr → Nat
  | .reqa | .wupa | .timeslot => 7
  | .hlta l | .ratsDand l | .deselectDand l | .t2tRead l | .dandCmd l => rawStandard (l.length + 3)
  | .sel1Select l | .sel2Select l | .sel3Select l => rawStandard (l.length + 3)
  | .sel1Ac _ u | .sel2Ac _ u | .sel3Ac _ u => rawAc u.length
  | .readWord p | .readHalfword p | .readByte p => rawStandard (p.length + 4)
  | .writeWord p | .writeHalfword p | .writeByte p => rawStandard (p.length + 4)
  | .call p | .sendMessage p | .loopback p => rawStandard (p.length + 4)

/-- The frame is not longer than the receive buffer (`RX_MAX_BITS`, 30_encoding.md R128); a short frame is classified
before the buffer's size is looked at (40_frame_classifier.md R141). -/
def Instr.fits (rxMax : Nat) (i : Instr) : Bool := i.rawBits == 7 || decide (i.rawBits ≤ rxMax)

end Sys2Proof
end

