-- ==== Sys2Proof/Decode.lean ====
section
/-! DEFINITION. The Frame Classifier (40_frame_classifier.md), the choice of the instruction a frame carries
(30_encoding.md R98 to R103, 41_link_commands.md R160, R165, R166, 43_dandelion_commands.md R231), and the encoder,
written from the same layouts. Frames are bit lists, first received bit first (10_state.md R24). -/

namespace Sys2Proof

/-! ## Bits and bytes, parity, checksum -/

/-- The number whose least significant bit comes first (30_encoding.md R91, R94). -/
def bitsToNat : List Bool → Nat
  | [] => 0
  | b :: bs => b.toNat + 2 * bitsToNat bs

/-- The byte of at most eight bits, least significant first (30_encoding.md R92). -/
def byteOfBits (bs : List Bool) : Byte := BitVec.ofNat 8 (bitsToNat bs)

/-- The eight bits of a byte, least significant first (30_encoding.md R94). -/
def bitsOfByte (b : Byte) : List Bool :=
  [b.getLsbD 0, b.getLsbD 1, b.getLsbD 2, b.getLsbD 3, b.getLsbD 4, b.getLsbD 5, b.getLsbD 6, b.getLsbD 7]

/-- The odd-parity bit of a byte (30_encoding.md R96). -/
def parityBit (b : Byte) : Bool := (bitsOfByte b).foldl xor true

/-- One byte of CRC_A (30_encoding.md R102). -/
def crcStep (crc : Halfword) (b : Byte) : Halfword :=
  let t : Byte := b ^^^ crc.setWidth 8
  let t : Byte := t ^^^ (t <<< 4)
  let t : Halfword := t.setWidth 16
  (crc >>> 8) ^^^ (t <<< 8) ^^^ (t <<< 3) ^^^ (t >>> 4)

/-- `CRC_A` of a byte sequence (30_encoding.md R102). -/
def crcA (bs : List Byte) : Halfword := bs.foldl crcStep 0x6363

/-- The two checksum bytes in transmission order, low byte first (30_encoding.md R92, R102). -/
def crcBytes (bs : List Byte) : List Byte := [(crcA bs).setWidth 8, (crcA bs >>> 8).setWidth 8]

/-- The first `n` bytes of a sequence, filled with zero bytes (10_state.md R26 to R28). -/
def padBytes (n : Nat) (bs : List Byte) : Vector Byte n :=
  ⟨((bs ++ List.replicate n 0).take n).toArray, by simp⟩

/-! ## The Frame Classifier -/

/-- The groups of nine raw bits: a byte, and whether its parity bit is right (40_frame_classifier.md R143, R146). -/
def rawGroups : List Bool → List (Byte × Bool)
  | b0 :: b1 :: b2 :: b3 :: b4 :: b5 :: b6 :: b7 :: p :: rest =>
    let b := byteOfBits [b0, b1, b2, b3, b4, b5, b6, b7]
    (b, p == parityBit b) :: rawGroups rest
  | _ => []

/-- The data bits: the raw bits without the parity bit of each whole group (30_encoding.md R95,
40_frame_classifier.md R143). -/
def dropParity : List Bool → List Bool
  | b0 :: b1 :: b2 :: b3 :: b4 :: b5 :: b6 :: b7 :: _ :: rest =>
    b0 :: b1 :: b2 :: b3 :: b4 :: b5 :: b6 :: b7 :: dropParity rest
  | rest => rest

/-- The type of a frame, by its raw length alone (40_frame_classifier.md R141). -/
def frameTypeOf (rxMax len : Nat) : FrameType :=
  if len = 7 then .short
  else if rxMax < len then .error
  else if len % 9 = 0 ∧ 1 ≤ len / 9 then .standard
  else if 1 ≤ len % 9 ∧ len % 9 ≤ 7 ∧ 2 ≤ len / 9 ∧ len / 9 ≤ 5 then .anticollision
  else .error

/-- A DandelionRequest of a code and its payload bytes, absent when the payload does not fit the buffer
(40_frame_classifier.md R150). -/
def mkRequest (code : Byte) (payload : List Byte) : Option Request :=
  if payload.length ≤ bufCap then some ⟨code, payload.length, padBytes 48 payload⟩ else none

/-- The link payload `B[1..n-3]` of a standard frame with a checksum (40_frame_classifier.md R149). -/
def linkPayload (bytes : List Byte) : List Byte := (bytes.drop 1).take (bytes.length - 3)

/-- The embedded Dandelion request of a standard frame's bytes (40_frame_classifier.md R150). -/
def requestOf (bytes : List Byte) : Option Request :=
  if 4 ≤ bytes.length ∧ bytes.head? = some cmdDand then
    match linkPayload bytes with
    | code :: payload => mkRequest code payload
    | [] => none
  else none

/-- `Classify(rx_bits, L)` (40_frame_classifier.md R140 to R150). -/
def classify (rxMax : Nat) (rx : List Bool) : Frame :=
  let bytes := (rawGroups rx).map Prod.fst
  match frameTypeOf rxMax rx.length with
  | .short => ⟨rx.length, .short, byteOfBits rx, true, rx, [], none⟩
  | .standard =>
    ⟨rx.length, .standard, bytes.headD 0, (rawGroups rx).all Prod.snd, dropParity rx, bytes, requestOf bytes⟩
  | .anticollision =>
    ⟨rx.length, .anticollision, bytes.headD 0, (rawGroups rx).all Prod.snd, dropParity rx, bytes, none⟩
  | .error => ⟨rx.length, .error, 0, true, [], [], none⟩

/-- `CrcOk(frame)` on the frame's bytes (40_frame_classifier.md R148). -/
def crcOk (bytes : List Byte) : Bool :=
  decide (3 ≤ bytes.length) && (bytes.drop (bytes.length - 2) == crcBytes (bytes.take (bytes.length - 2)))

/-- The byte is one of the three SEL codes (30_encoding.md R99, R107). -/
def isSelCode (b : Byte) : Bool := b == cmdSel1 || b == cmdSel2 || b == cmdSel3

/-- `IsAcForm(frame)` (30_encoding.md R109). -/
def isAcForm (f : Frame) : Bool :=
  match f.frameType with
  | .anticollision => true
  | .standard =>
    decide (2 ≤ f.bytes.length) && decide (f.bytes.length ≤ 6) && isSelCode f.command
      && (f.bytes.drop 1).head? != some nvbSelect
  | .short => false
  | .error => false

/-! ## From a frame to an instruction -/

/-- Why a frame carries no instruction. -/
inductive Reject
  /-- A length that fits no format (41_link_commands.md R161). -/
  | badLength
  /-- A parity bit is wrong (60_exceptions.md R288). -/
  | parity
  /-- The checksum is wrong or there is no room for one (60_exceptions.md R287). -/
  | checksum
  /-- A short frame whose code is no command (41_link_commands.md R165). -/
  | unknownShort
  /-- An anticollision frame whose first byte is no SEL code (42_anticollision.md R203). -/
  | unknownAc
  /-- A standard frame whose first byte is no command (41_link_commands.md R166). -/
  | unknownStandard
  deriving DecidableEq, Repr, Inhabited

/-- What a frame carries: an instruction, or none, by name. -/
inductive Decoded
  | instr (i : Instr)
  | rejected (r : Reject)
  deriving DecidableEq, Repr, Inhabited

/-- `ShortDispatch` (41_link_commands.md R165). -/
def decodeShort (code : Byte) : Decoded :=
  if code = cmdReqa then .instr .reqa
  else if code = cmdWupa then .instr .wupa
  else if code = cmdTimeslot then .instr .timeslot
  else .rejected .unknownShort

/-- A frame in AC form: the SEL code, `NVB` and the UID bits (30_encoding.md R109, 42_anticollision.md R203). -/
def decodeAc (f : Frame) : Decoded :=
  let nvb := (f.bytes.drop 1).headD 0
  let uidBits := f.dataBits.drop 16
  if f.command = cmdSel1 then .instr (.sel1Ac nvb uidBits)
  else if f.command = cmdSel2 then .instr (.sel2Ac nvb uidBits)
  else if f.command = cmdSel3 then .instr (.sel3Ac nvb uidBits)
  else .rejected .unknownAc

/-- The nine Dandelion rows, by code (43_dandelion_commands.md R231). -/
def dandelionInstr (code : Byte) (payload : List Byte) : Option Instr :=
  if code = dcReadWord then some (.readWord payload)
  else if code = dcReadHalfword then some (.readHalfword payload)
  else if code = dcReadByte then some (.readByte payload)
  else if code = dcWriteWord then some (.writeWord payload)
  else if code = dcWriteHalfword then some (.writeHalfword payload)
  else if code = dcWriteByte then some (.writeByte payload)
  else if code = dcCall then some (.call payload)
  else if code = dcSendMessage then some (.sendMessage payload)
  else if code = dcLoopback then some (.loopback payload)
  else none

/-- A DAND_CMD frame: the Dandelion row its second byte selects when the frame has a request, else DAND_CMD itself
(30_encoding.md R103, R111; 41_link_commands.md R172). -/
def decodeDand (link : List Byte) : Instr :=
  match link with
  | [] => .dandCmd []
  | code :: payload =>
    if payload.length ≤ bufCap then (dandelionInstr code payload).getD (.dandCmd link) else .dandCmd link

/-- `StdDispatch` (41_link_commands.md R166): the first byte and the link payload. -/
def decodeStandard (command : Byte) (link : List Byte) : Decoded :=
  if command = cmdHlta then .instr (.hlta link)
  else if command = cmdSel1 then .instr (.sel1Select link)
  else if command = cmdSel2 then .instr (.sel2Select link)
  else if command = cmdSel3 then .instr (.sel3Select link)
  else if command = cmdRatsDand then .instr (.ratsDand link)
  else if command = cmdDeselectDand then .instr (.deselectDand link)
  else if command = cmdDand then .instr (decodeDand link)
  else if command = cmdT2tRead then .instr (.t2tRead link)
  else .rejected .unknownStandard

/-- The tests of 41_link_commands.md R160, in its order: type, parity, AC form, checksum, first byte. -/
def decodeFrame (f : Frame) : Decoded :=
  match f.frameType with
  | .error => .rejected .badLength
  | .short => decodeShort f.command
  | .standard | .anticollision =>
    if f.parityOk = false then .rejected .parity
    else if isAcForm f then decodeAc f
    else if crcOk f.bytes = false then .rejected .checksum
    else decodeStandard f.command (linkPayload f.bytes)

/-- What a received bit sequence carries, for a receive buffer of `rxMax` raw bits. Total. -/
def decode (rxMax : Nat) (rx : List Bool) : Decoded := decodeFrame (classify rxMax rx)

/-! ## The encoder -/

/-- Data bits with the odd-parity bit after each whole byte, none after an incomplete one (30_encoding.md R92, R93). -/
def addParity : List Bool → List Bool
  | b0 :: b1 :: b2 :: b3 :: b4 :: b5 :: b6 :: b7 :: rest =>
    b0 :: b1 :: b2 :: b3 :: b4 :: b5 :: b6 :: b7 :: parityBit (byteOfBits [b0, b1, b2, b3, b4, b5, b6, b7])
      :: addParity rest
  | rest => rest

/-- The bits of bytes in transmission order (30_encoding.md R94). -/
def bitsOfBytes (bs : List Byte) : List Bool := bs.flatMap bitsOfByte

/-- A short frame (30_encoding.md R91). -/
def encodeShort (code : Byte) : List Bool := (bitsOfByte code).take 7

/-- A standard frame of exactly these bytes (30_encoding.md R92, R126 `F: …`). -/
def encodeBytes (bs : List Byte) : List Bool := addParity (bitsOfBytes bs)

/-- A standard frame with its checksum appended (30_encoding.md R126 `F: … +crc`). -/
def encodeStandard (bs : List Byte) : List Bool := encodeBytes (bs ++ crcBytes bs)

/-- A SEL frame in AC form (30_encoding.md R109). -/
def encodeAc (sel nvb : Byte) (uidBits : List Bool) : List Bool := addParity (bitsOfBytes [sel, nvb] ++ uidBits)

/-- The frame of an instruction (30_encoding.md R104 to R116). -/
def encode : Instr → List Bool
  | .reqa => encodeShort cmdReqa
  | .wupa => encodeShort cmdWupa
  | .timeslot => encodeShort cmdTimeslot
  | .hlta link => encodeStandard (cmdHlta :: link)
  | .ratsDand link => encodeStandard (cmdRatsDand :: link)
  | .deselectDand link => encodeStandard (cmdDeselectDand :: link)
  | .t2tRead link => encodeStandard (cmdT2tRead :: link)
  | .dandCmd link => encodeStandard (cmdDand :: link)
  | .sel1Ac nvb u => encodeAc cmdSel1 nvb u
  | .sel1Select link => encodeStandard (cmdSel1 :: link)
  | .sel2Ac nvb u => encodeAc cmdSel2 nvb u
  | .sel2Select link => encodeStandard (cmdSel2 :: link)
  | .sel3Ac nvb u => encodeAc cmdSel3 nvb u
  | .sel3Select link => encodeStandard (cmdSel3 :: link)
  | .readWord p => encodeStandard (cmdDand :: dcReadWord :: p)
  | .readHalfword p => encodeStandard (cmdDand :: dcReadHalfword :: p)
  | .readByte p => encodeStandard (cmdDand :: dcReadByte :: p)
  | .writeWord p => encodeStandard (cmdDand :: dcWriteWord :: p)
  | .writeHalfword p => encodeStandard (cmdDand :: dcWriteHalfword :: p)
  | .writeByte p => encodeStandard (cmdDand :: dcWriteByte :: p)
  | .call p => encodeStandard (cmdDand :: dcCall :: p)
  | .sendMessage p => encodeStandard (cmdDand :: dcSendMessage :: p)
  | .loopback p => encodeStandard (cmdDand :: dcLoopback :: p)

/-! ## Words of the opcode table -/

/-- The `n` bytes of a selector of the opcode table, `B[0]` the most significant (30_encoding.md R103:
"`B[0] * 256 + B[1]`"). -/
def selectorBytes : Nat → Nat → List Byte
  | 0, _ => []
  | n + 1, w => BitVec.ofNat 8 (w / 256 ^ n) :: selectorBytes n w

/-- How many operand bytes of zeros follow a row's selector, from the row's `encoding`: four UID bytes and BCC, an
address, an address and data, an id (log 18). -/
def zeroOperandBytes (b0 b1 : Byte) : Nat :=
  if isSelCode b0 then 5
  else if b0 = cmdDand then
    if b1 = dcReadWord ∨ b1 = dcReadHalfword ∨ b1 = dcReadByte then 4
    else if b1 = dcWriteWord then 8
    else if b1 = dcWriteHalfword then 6
    else if b1 = dcWriteByte then 5
    else if b1 = dcCall ∨ b1 = dcSendMessage then 1
    else 0
  else 0

/-- The frame of a word of the opcode table (log 18): a short frame for a code of the three short rows, a SEL frame in
AC form without a checksum, else a standard frame with operand bytes of zeros and the right checksum; parity right. -/
def tableFrame (nbits w : Nat) : List Bool :=
  match selectorBytes ((nbits + 7) / 8) w with
  | [] => []
  | [b0] =>
    if nbits ≤ 7 ∨ b0 = cmdReqa ∨ b0 = cmdWupa ∨ b0 = cmdTimeslot then encodeShort b0 else encodeStandard [b0]
  | b0 :: b1 :: rest =>
    if isSelCode b0 ∧ b1 ≠ nvbSelect then encodeBytes (b0 :: b1 :: rest)
    else encodeStandard (b0 :: b1 :: rest ++ List.replicate (zeroOperandBytes b0 b1 - rest.length) 0)

/-- The instruction the decoder reads from a word of the opcode table, numbered as the table numbers its selectors. -/
def decodeTableWord (nbits w : Nat) : Option Instr :=
  match decode 468 (tableFrame nbits w) with
  | .instr i => some i
  | .rejected _ => none

end Sys2Proof
end

