-- ==== Sys2Proof/Machine/State.lean ====
section
/-! DEFINITION. The block's state (10_state.md R20), the configuration it reads, the collaborators' state, the
environment's coming events, the reasons a step can stop, and the state after reset (10_state.md R46). -/

namespace Sys2Proof.Machine

/-- What cut the handling of a frame short (60_exceptions.md R300, 70_reset_and_hazards.md R320). -/
inductive Cut
  | fieldLost
  | reset
  deriving DecidableEq, Repr, Inhabited

/-- The events of 00_scope.md R9. `frameCut` is a frame whose handling field loss or reset cut short: whether its one
possible side effect happened is the environment's choice, not the block's (60_exceptions.md R300; log 11). -/
inductive Event
  | reset
  | register (id : Byte) (cb : Callback)
  | configChange (new : LiveConfig)
  | frameReceived (rx : List Bool)
  | fieldLost
  | frameCut (rx : List Bool) (cut : Cut) (effectDone : Bool)
  deriving DecidableEq, Repr, Inhabited

/-- The machine's state. The first seven fields are 10_state.md R20; `cfg` is what the block reads as configuration
(R35 to R43); `env` is the collaborators' state (20_memory.md R70); `resets` and `inputs` are the model's own
(logs 3, 1). -/
structure State where
  tagState : TagState
  cascadeLevel : Nat
  frame : Option Frame
  req : Request
  resp : Response
  mailbox : Mailbox
  registry : Vector (Option Callback) 256
  cfg : Cfg
  env : Env
  resets : Nat
  inputs : List Event
  deriving DecidableEq, Repr

/-- No step of the block is a fault that stops it (70_reset_and_hazards.md R337: every error is a reply), so there is
no fault and nothing raises one. -/
inductive Fault
  deriving DecidableEq, Repr

/-- The situations the spec refuses. -/
inductive Refusal
  /-- Raised by `exec` for an instruction without a meaning. None is left. Safe. -/
  | notModelled (mnemonic : String)
  /-- Raised by Timeslot when no `AUX_HANDLER` is supplied (41_link_commands.md R164: `refuse`). Safe. -/
  | timeslotWithoutHandler
  /-- Raised by T2T_READ when no `AUX_HANDLER` is supplied (41_link_commands.md R173: `refuse`). Safe. -/
  | t2tReadWithoutHandler
  /-- Raised by `step` for a configuration that breaks 10_state.md R35, R37, R39 or 20_memory.md R74, and for a
  `ConfigChange` that would make one (70_reset_and_hazards.md R332). Safe. -/
  | illFormedConfig
  deriving DecidableEq, Repr

/-- `resp` freshly constructed (10_state.md R28). -/
def freshResponse : Response := ⟨0, false, false, Vector.replicate 48 0⟩

/-- `req` as reset leaves it (10_state.md R46). -/
def zeroRequest : Request := ⟨0, 0, Vector.replicate 48 0⟩

/-- The 64 mailbox words drawn at the `k`-th reset (10_state.md R46; log 3). -/
def drawnMailbox (k : Nat) : Mailbox := ⟨((List.range 64).map (Config.mailboxDraw k)).toArray, by simp⟩

/-- A registry with every entry absent (10_state.md R46). -/
def emptyRegistry : Vector (Option Callback) 256 := Vector.replicate 256 none

/-- The machine right after reset (10_state.md R46), with the configuration of log 2 driven, nothing written to plain
memory (log 4), no event coming (log 1). -/
def State.reset : State where
  tagState := .idle
  cascadeLevel := 0
  frame := none
  req := zeroRequest
  resp := freshResponse
  mailbox := drawnMailbox 0
  registry := emptyRegistry
  cfg := Cfg.testT1
  env := ⟨[], 0⟩
  resets := 0
  inputs := []

end Sys2Proof.Machine
end

