-- ==== Sys2Proof/Machine/Flags.lean ====
section
/-! DEFINITION. The block's conditions: predicates over `tag_state` (10_state.md R22), permissions of an AccessState
(20_memory.md R76), the flags of a reply (10_state.md R29), and the trace numbers of R21 and R38. -/

namespace Sys2Proof.Machine

/-- `ready(s)` (10_state.md R22). -/
def isReady : TagState → Bool
  | .ready0 | .ready1 => true
  | .idle | .active0 | .halt | .active1 | .protDand => false

/-- `active(s)` (10_state.md R22). -/
def isActive : TagState → Bool
  | .active0 | .active1 => true
  | .idle | .ready0 | .halt | .ready1 | .protDand => false

/-- `selected(s)` (10_state.md R22). -/
def isSelected : TagState → Bool
  | .active0 | .active1 | .protDand => true
  | .idle | .ready0 | .halt | .ready1 => false

/-- `sleeping(s)` (10_state.md R22). -/
def isSleeping : TagState → Bool
  | .idle | .halt => true
  | .ready0 | .active0 | .ready1 | .active1 | .protDand => false

/-- `promote` (10_state.md R22), used only from a Ready state. -/
def promoteState : TagState → TagState
  | .ready0 => .active0
  | .ready1 => .active1
  | .idle => .idle
  | .active0 => .active0
  | .halt => .halt
  | .active1 => .active1
  | .protDand => .protDand

/-- `demote` (10_state.md R22), used only from a Ready state. -/
def demoteState : TagState → TagState
  | .ready0 => .idle
  | .ready1 => .halt
  | .idle => .idle
  | .active0 => .active0
  | .halt => .halt
  | .active1 => .active1
  | .protDand => .protDand

/-- The number of a `tag_state` where a trace needs one (10_state.md R21). -/
def tagStateCode : TagState → Nat
  | .idle => 0
  | .ready0 => 1
  | .active0 => 2
  | .halt => 3
  | .ready1 => 4
  | .active1 => 5
  | .protDand => 6

/-- The privilege nibble where a trace needs one: bit 0 read, bit 1 write (10_state.md R38). -/
def privilegeNibble : AccessState → BitVec 4
  | .noAccess => 0
  | .readOnly => 1
  | .writeOnly => 2
  | .readWrite => 3

/-- `Permits(st, intent)` (20_memory.md R76). -/
def permits : AccessState → Intent → Bool
  | .readWrite, .read => true
  | .readWrite, .write => true
  | .readOnly, .read => true
  | .readOnly, .write => false
  | .writeOnly, .read => false
  | .writeOnly, .write => true
  | .noAccess, .read => false
  | .noAccess, .write => false

end Sys2Proof.Machine
end

