-- ==== Sys2Proof/Machine/Operands.lean ====
section
/-! DEFINITION. Operand assembly (30_encoding.md R117) and the UID as the anticollision engine sees it
(42_anticollision.md R200 to R202). -/

namespace Sys2Proof.Machine

/-- The number of bytes of an access (20_memory.md R65). -/
def widthBytes : Width → Nat
  | .byte => 1
  | .halfword => 2
  | .word => 4

/-- The unsigned number whose least significant byte comes first. -/
def leNat : List Byte → Nat
  | [] => 0
  | b :: bs => b.toNat + 256 * leNat bs

/-- The `n` low bytes of `v`, least significant first. -/
def leBytes : Nat → Nat → List Byte
  | _, 0 => []
  | v, n + 1 => BitVec.ofNat 8 v :: leBytes (v / 256) n

/-- `be(bytes)`: most significant byte first (00_scope.md R8). -/
def beNat (bs : List Byte) : Nat := leNat bs.reverse

/-- `be_bytes(v, n)` (00_scope.md R8). -/
def beBytes (v n : Nat) : List Byte := (leBytes v n).reverse

/-- The payload bytes `payload[i..j-1]` of a request. -/
def payloadSlice (r : Request) (i j : Nat) : List Byte := (r.payload.toList.take j).drop i

/-- The address operand, `be32(payload[0..3])` (20_memory.md R61, 30_encoding.md R112). -/
def addrOperand (r : Request) : Nat := beNat (payloadSlice r 0 4)

/-- The data operand of a write of `n` bytes, `be(payload[4..3+n])` (20_memory.md R62, 30_encoding.md R113). -/
def dataOperand (r : Request) (n : Nat) : Nat := beNat (payloadSlice r 4 (4 + n))

/-- The function id, `payload[0]` (30_encoding.md R114). -/
def idOperand (r : Request) : Byte := r.payload[0]

/-- `bc = NVB[7:4]` (30_encoding.md R108). -/
def nvbBytes (nvb : Byte) : Nat := (nvb.extractLsb' 4 4).toNat

/-- `bt = NVB[3:0]` (30_encoding.md R108). -/
def nvbBits (nvb : Byte) : Nat := (nvb.extractLsb' 0 4).toNat

/-- `N_LEVELS` (10_state.md R35). -/
def nLevels : Uid → Nat
  | .single _ => 1
  | .double _ => 2
  | .triple _ => 3

/-- `UIDCL(n)[0..3]`, empty for a level the UID does not have (42_anticollision.md R200). -/
def uidCl (ct : Byte) (uid : Uid) (n : Nat) : List Byte :=
  match uid, n with
  | .single u, 1 => [u[0], u[1], u[2], u[3]]
  | .double u, 1 => [ct, u[0], u[1], u[2]]
  | .double u, 2 => [u[3], u[4], u[5], u[6]]
  | .triple u, 1 => [ct, u[0], u[1], u[2]]
  | .triple u, 2 => [ct, u[3], u[4], u[5]]
  | .triple u, 3 => [u[6], u[7], u[8], u[9]]
  | _, _ => []

/-- `BCC`: the exclusive-or of the four bytes of UID CLn (42_anticollision.md R201). -/
def bcc (cl : List Byte) : Byte := cl.foldl (· ^^^ ·) 0

/-- `U40(n)`: the 40 bits of UID CLn and BCC in transmission order (42_anticollision.md R202). -/
def u40 (cl : List Byte) : List Bool := bitsOfBytes (cl ++ [bcc cl])

end Sys2Proof.Machine
end

