-- ==== Sys2Proof/Machine/Ops.lean ====
section
/-! DEFINITION. The named operations: memory and mailbox (20_memory.md R70 to R74), the address check (R71, R75 to R77),
the reply primitives, among them `reply Status`, the block's one way of taking an error (60_exceptions.md R286), the
outcomes shared by the link state machine and the anticollision engine (41_link_commands.md R167, R169), and the
registry (44_mailbox_registry.md R272, R274). -/

namespace Sys2Proof.Machine

/-! ## Plain memory: a canonical list of cells (log 4) -/

/-- The canonical form: addresses strictly rising, all in the 32-bit space (10_state.md R44). An unlisted address has
no value in the list, so no entry can equal what it reads as. -/
abbrev Memory.wf (m : Memory) : Prop :=
  m.Pairwise (fun x y => x.1 < y.1) ∧ ∀ c ∈ m, c.1 < 2 ^ 32

/-- The byte written at an address, if one was. -/
def memLookup : Memory → Nat → Option Byte
  | [], _ => none
  | (k, v) :: m, a => if a = k then some v else memLookup m a

/-- Write one byte, keeping the canonical form. -/
def memInsert : Memory → Nat → Byte → Memory
  | [], a, v => [(a, v)]
  | (k, w) :: m, a, v =>
    if a < k then (a, v) :: (k, w) :: m
    else if a = k then (a, v) :: m
    else (k, w) :: memInsert m a v

/-- What an address of plain memory reads as: the byte last written, or the free value of a byte nothing has written
(93_implementation_defined.md I5; log 4). -/
def plainByte (m : Memory) (a : Nat) : Byte := (memLookup m a).getD (Config.powerOnByte a)

/-- Write consecutive bytes from an address on. An address past the 32-bit space does not exist and is not written;
no access reaches one (20_memory.md R66). -/
def memInsertMany : Memory → Nat → List Byte → Memory
  | m, _, [] => m
  | m, a, v :: vs => memInsertMany (if a < 2 ^ 32 then memInsert m a v else m) (a + 1) vs

/-! ## The mailbox as bytes (20_memory.md R63, R74) -/

/-- The address lies in the mailbox window. -/
def inWindow (c : Cfg) (a : Nat) : Bool := decide (c.mailboxBase ≤ a) && decide (a < c.mailboxBase + mailboxBytes)

/-- Byte `b` of a word, `w[8*b+7 : 8*b]`. -/
def wordByte (w : Word) (b : Nat) : Byte := w.extractLsb' (8 * b) 8

/-- The word with byte `b` replaced. -/
def setWordByte (w : Word) (b : Nat) (v : Byte) : Word :=
  (w &&& ~~~((0xFF : Word) <<< (8 * b))) ||| (v.setWidth 32 <<< (8 * b))

/-- The byte at offset `o` of the mailbox window. -/
def mailboxByte (mb : Mailbox) (o : Nat) : Byte := wordByte (mb[o / 4]?.getD 0) (o % 4)

/-- Write the byte at offset `o` of the mailbox window. -/
def setMailboxByte (mb : Mailbox) (o : Nat) (v : Byte) : Mailbox :=
  mb.setIfInBounds (o / 4) (setWordByte (mb[o / 4]?.getD 0) (o % 4) v)

/-- Write consecutive bytes of the mailbox from an offset on. -/
def setMailboxBytes : Mailbox → Nat → List Byte → Mailbox
  | mb, _, [] => mb
  | mb, o, v :: vs => setMailboxBytes (setMailboxByte mb o v) (o + 1) vs

/-- What one byte of the address space holds: the mailbox's in the window, else plain memory's. It has no side effect;
of an address of a device it says nothing the block could read. -/
def byteAt (s : State) (a : Nat) : Byte :=
  if inWindow s.cfg a then mailboxByte s.mailbox (a - s.cfg.mailboxBase) else plainByte s.env.mem a

/-! ## The address check (20_memory.md R71 to R77) -/

/-- The value of an owner. -/
def ofOwner {α : Type} (p : PerOwner α) : Owner → α
  | .rom1 => p.rom1
  | .rom2 => p.rom2
  | .ram1 => p.ram1
  | .ram2 => p.ram2
  | .hw1 => p.hw1
  | .hw2 => p.hw2
  | .hw3 => p.hw3

/-- The seven owner ids. -/
def owners : List Owner := [.rom1, .rom2, .ram1, .ram2, .hw1, .hw2, .hw3]

/-- The address lies in the owner's region, `start(r) <= addr < stop(r)`. -/
def inRegion (c : Cfg) (a : Nat) (r : Owner) : Bool :=
  decide ((ofOwner c.region r).start ≤ a) && decide (a < (ofOwner c.region r).stop)

/-- `RegionOf(addr)` (20_memory.md R71). -/
def regionOf (c : Cfg) (a : Nat) : Option Owner := owners.find? (inRegion c a)

/-- The address lies in the NVM page range (20_memory.md R75). -/
def inNvm (c : Cfg) (a : Nat) : Bool := decide (c.nvmStart ≤ a) && decide (a < c.nvmStop)

/-- `StateOf(addr)` for an address of region `r` (20_memory.md R75). A page past the table, which a well-formed
configuration does not have, counts as `NoAccess` (log 27). -/
def stateOf (c : Cfg) (r : Owner) (a : Nat) : AccessState :=
  if inNvm c a then (c.live.pageAccess[(a - c.nvmStart) / c.nvmPageSize]?).getD .noAccess
  else ofOwner c.live.priv r

/-- `Check(addr, n, intent)` (20_memory.md R77). -/
def check (c : Cfg) (a : Nat) (w : Width) (i : Intent) : Verdict :=
  if a % widthBytes w ≠ 0 then .misaligned
  else
    match regionOf c a with
    | none => .denied
    | some r => if permits (stateOf c r a) i then .allowed else .denied

/-- What backs an address outside the mailbox window (20_memory.md R70; log 6). -/
def backingOf (c : Cfg) (a : Nat) : Backing :=
  match regionOf c a with
  | some r => (ofOwner c.region r).backing
  | none => .device

/-- A region's bounds are well formed (10_state.md R37). -/
def regionBoundsWf (r : Region) : Bool :=
  decide (r.start < r.stop) && decide (r.stop ≤ 2 ^ 32) && r.start % 4 == 0 && r.stop % 4 == 0

/-- Two regions do not overlap. -/
def regionsApart (r t : Region) : Bool := decide (r.stop ≤ t.start) || decide (t.stop ≤ r.start)

/-- The NVM page table is well formed (10_state.md R39). -/
def nvmWf (c : Cfg) : Bool :=
  decide (c.nvmStart < c.nvmStop) && decide (c.nvmStop ≤ 2 ^ 32) && decide (0 < c.nvmPageSize)
    && c.nvmStart % 4 == 0 && c.nvmStop % 4 == 0 && c.nvmPageSize % 4 == 0
    && (c.nvmStop - c.nvmStart) % c.nvmPageSize == 0
    && c.live.pageAccess.length == (c.nvmStop - c.nvmStart) / c.nvmPageSize

/-- The mailbox window is well placed (20_memory.md R74). -/
def windowWf (c : Cfg) : Bool :=
  c.mailboxBase % 4 == 0 && decide (c.mailboxBase + mailboxBytes ≤ 2 ^ 32)
    && (decide (c.mailboxBase + mailboxBytes ≤ c.nvmStart) || decide (c.nvmStop ≤ c.mailboxBase))

/-- The configuration is well formed (70_reset_and_hazards.md R332; 10_state.md R35, R37, R39; 20_memory.md R74;
00_scope.md R6 for the reply strings). `UID_SIZE` in 4, 7, 10 holds by the type `Uid`. -/
def configWf (c : Cfg) : Bool :=
  owners.all (fun r => regionBoundsWf (ofOwner c.region r))
    && decide (owners.Pairwise fun r t => regionsApart (ofOwner c.region r) (ofOwner c.region t) = true)
    && nvmWf c && windowWf c
    && decide (c.ratsReply.length ≤ bufCap) && decide (c.deselectReply.length ≤ bufCap)

/-! ## Memory access (20_memory.md R72, R73) -/

/-- The bytes of `n` consecutive addresses. -/
def bytesAt (s : State) (a : Nat) : Nat → List Byte
  | 0 => []
  | n + 1 => byteAt s a :: bytesAt s (a + 1) n

/-- `MemRead(addr, n)` (20_memory.md R72): the value, below `2^(8n)`, and the state after the read, which differs only
where a device was read. -/
def memRead (s : State) (a : Nat) (w : Width) : Nat × State :=
  let n := widthBytes w
  if inWindow s.cfg a then (leNat (bytesAt s a n), s)
  else
    match backingOf s.cfg a with
    | .plainLittle => (leNat (bytesAt s a n), s)
    | .plainBig => (beNat (bytesAt s a n), s)
    | .device =>
      let r := Config.deviceRead s.env.dev a n
      (r.1 % 2 ^ (8 * n), { s with env := { s.env with dev := r.2 } })

/-- `MemWrite(addr, n, v)` (20_memory.md R73). -/
def memWrite (s : State) (a : Nat) (w : Width) (v : Nat) : State :=
  let n := widthBytes w
  if inWindow s.cfg a then
    { s with mailbox := setMailboxBytes s.mailbox (a - s.cfg.mailboxBase) (leBytes v n) }
  else
    match backingOf s.cfg a with
    | .plainLittle => { s with env := { s.env with mem := memInsertMany s.env.mem a (leBytes v n) } }
    | .plainBig => { s with env := { s.env with mem := memInsertMany s.env.mem a (beBytes v n) } }
    | .device => { s with env := { s.env with dev := Config.deviceWrite s.env.dev a n v } }

/-! ## Replies (30_encoding.md R122, R123; 60_exceptions.md R286) -/

/-- Bits packed into bytes, bit `i` of the sequence at bit `i mod 8` of byte `i div 8` (30_encoding.md R123). -/
def packBits : List Bool → List Byte
  | b0 :: b1 :: b2 :: b3 :: b4 :: b5 :: b6 :: b7 :: rest =>
    byteOfBits [b0, b1, b2, b3, b4, b5, b6, b7] :: packBits rest
  | [] => []
  | rest => [byteOfBits rest]

/-- The response of `reply Bytes(bs, crc)` (30_encoding.md R122); with no byte it is `NFC_NO_RESPONSE`. Of more than
the 48 bytes of the buffer, 48 are taken: DESIGN CHOICE (log 24). -/
def responseOfBytes (bs : List Byte) (crc : Bool) : Response :=
  if bs.isEmpty then freshResponse
  else ⟨8 * (bs.take bufCap).length, true, crc, padBytes 48 bs⟩

/-- The response of `reply Bits(bits)` (30_encoding.md R123, for 1 to 40 bits). DESIGN CHOICE (log 24): no bit is
`NFC_NO_RESPONSE`, 41 to 384 bits are composed as R123 composes 40, and of more the 384 bits of the buffer are taken.
Only an `AUX_HANDLER` can ask for these. -/
def responseOfBits (bits : List Bool) : Response :=
  if bits.isEmpty then freshResponse
  else ⟨(bits.take (8 * bufCap)).length, true, false, padBytes 48 (packBits (bits.take (8 * bufCap)))⟩

/-- `reply Bytes(bs, crc)`. -/
def replyBytes (bs : List Byte) (crc : Bool) (s : State) : State := { s with resp := responseOfBytes bs crc }

/-- `reply Bits(bits)`. -/
def replyBits (bits : List Bool) (s : State) : State := { s with resp := responseOfBits bits }

/-- `reply NoResponse` (00_scope.md R8, `NFC_NO_RESPONSE`). -/
def replyNone (s : State) : State := { s with resp := freshResponse }

/-- `reply Status(c)`: taking an error, which writes `resp` and nothing else; nothing is saved and there is no return
(60_exceptions.md R286, R301, R302). -/
def replyStatus (c : Byte) (s : State) : State := replyBytes [c] true s

/-- The catch-all (41_link_commands.md R181). -/
def unknownCommand (s : State) : State := replyStatus errUnknownCmd s

/-- A handler's reply. -/
def replyOf : Reply → State → State
  | .noResponse, s => replyNone s
  | .bytes bs crc, s => replyBytes bs crc s
  | .bits bs, s => replyBits bs s

/-! ## Outcomes of the link state machine -/

/-- `tag_state <- t`, `cascade_level <- l`. -/
def setLink (t : TagState) (l : Nat) (s : State) : State := { s with tagState := t, cascadeLevel := l }

/-- `NotAddressed` (41_link_commands.md R167). -/
def notAddressed (s : State) : State := replyNone (setLink (demoteState s.tagState) 0 s)

/-- `Promote` (41_link_commands.md R169). -/
def promote (s : State) : State := replyBytes [s.cfg.sakComplete] true (setLink (promoteState s.tagState) 0 s)

/-- A wake command: `tag_state <- t`, `cascade_level <- 0`, ATQA without checksum (41_link_commands.md R162, R163;
30_encoding.md R124). -/
def wake (t : TagState) (s : State) : State :=
  if isSleeping s.tagState then replyBytes [s.cfg.atqa0, s.cfg.atqa1] false (setLink t 0 s) else unknownCommand s

/-- `(tag_state, resp) <- AUX_HANDLER(tag_state, frame)` (41_link_commands.md R164, R173). `cascade_level` is cleared when
the handler changes `tag_state`, as 10_state.md R23 says of every entry, demotion and promotion (log 8). -/
def auxApply (f : Frame) (s : State) : State :=
  let r := Config.auxHandler s.tagState f
  replyOf r.reply (setLink r.tagState (if r.tagState = s.tagState then s.cascadeLevel else 0) s)

/-! ## The registry (44_mailbox_registry.md) -/

/-- `registry[id]`. -/
def registered (s : State) (id : Byte) : Option Callback := (s.registry[id.toNat]?).getD none

/-- `Register(id, cb)` (44_mailbox_registry.md R272). -/
def registerCallback (id : Byte) (cb : Callback) (s : State) : State :=
  { s with registry := s.registry.setIfInBounds id.toNat (some cb) }

/-- Apply a platform callback's writes to plain memory, in order. -/
def applyWrites : Memory → List (Word × Byte) → Memory
  | m, [] => m
  | m, (a, v) :: ws => applyWrites (memInsert m a.toNat v) ws

/-- `Invoke(id)` of a registered callback (44_mailbox_registry.md R273, R274): its result and the state after it, in which
only `mailbox` and `env` can differ. -/
def invoke (cb : Callback) (s : State) : Nat × State :=
  match cb with
  | .mailboxAddr => (s.cfg.mailboxBase, s)
  | .mailboxSize => (mailboxBytes, s)
  | .testAdd => (0, { s with mailbox := s.mailbox.setIfInBounds 2 (s.mailbox[0] + s.mailbox[1]) })
  | .platform k =>
    let r := Config.platformCallback k s.mailbox s.env
    (r.result.toNat, { s with mailbox := r.mailbox, env := ⟨applyWrites s.env.mem r.writes, r.dev⟩ })

end Sys2Proof.Machine
end

