-- ==== Sys2Proof/Machine/Anticollision.lean ====
section
/-! DEFINITION. The anticollision engine (42_anticollision.md): `Anticollision` and `Select`, and the six SEL commands
on them. -/

namespace Sys2Proof.Machine

/-- `NVB` agrees with the frame's `k` data bits (30_encoding.md R108, 42_anticollision.md R203 (1)). -/
def nvbAgrees (nvb : Byte) (k : Nat) : Bool :=
  decide (2 ≤ nvbBytes nvb) && decide (nvbBytes nvb ≤ 6) && decide (nvbBits nvb ≤ 7)
    && 8 * nvbBytes nvb + nvbBits nvb == k && decide (k ≤ 48)

/-- The level of the frame is the next one and the UID has it (42_anticollision.md R203 (2)). -/
def levelAddressed (lvl : Nat) (s : State) : Bool :=
  lvl == s.cascadeLevel + 1 && decide (lvl ≤ nLevels s.cfg.uid)

/-- `AcCompare(lvl)` (42_anticollision.md R204). -/
def acCompare (lvl : Nat) (uidBits : List Bool) (s : State) : State :=
  let u := u40 (uidCl s.cfg.ct s.cfg.uid lvl)
  if u.take uidBits.length = uidBits then replyBits (u.drop uidBits.length) s else notAddressed s

/-- `Anticollision(frame)` for a SEL code of level `lvl` (42_anticollision.md R203), and the catch-all outside the Ready
states (41_link_commands.md R160). -/
def anticollision (lvl : Nat) (nvb : Byte) (uidBits : List Bool) (s : State) : State :=
  if isReady s.tagState = false then unknownCommand s
  else if nvbAgrees nvb (16 + uidBits.length) = false then unknownCommand s
  else if levelAddressed lvl s = false then notAddressed s
  else acCompare lvl uidBits s

/-- `SelectCompare(lvl)` on the four UID bytes and BCC of the frame (42_anticollision.md R211). -/
def selectCompare (lvl : Nat) (sent : List Byte) (sentBcc : Byte) (s : State) : State :=
  let cl := uidCl s.cfg.ct s.cfg.uid lvl
  if sent = cl ∧ sentBcc = bcc cl then
    if lvl < nLevels s.cfg.uid then replyBytes [s.cfg.sakCascade] true { s with cascadeLevel := lvl }
    else promote s
  else notAddressed s

/-- `Select(frame)` for a SEL code of level `lvl`, on `B[1..n-3]` (42_anticollision.md R203): `NVB = 0x70` and `n = 9`, else
malformed; the catch-all outside the Ready states (41_link_commands.md R166). -/
def select (lvl : Nat) (link : List Byte) (s : State) : State :=
  if isReady s.tagState = false then unknownCommand s
  else
    match link with
    | [nvb, u0, u1, u2, u3, sentBcc] =>
      if nvb ≠ nvbSelect then unknownCommand s
      else if levelAddressed lvl s = false then notAddressed s
      else selectCompare lvl [u0, u1, u2, u3] sentBcc s
    | _ => unknownCommand s

/-- SEL1 in AC form (42_anticollision.md R205). -/
def execSel1Ac (nvb : Byte) (uidBits : List Bool) (s : State) : Host.Outcome State Fault Refusal :=
  .next (anticollision 1 nvb uidBits s)

/-- SEL1 in SELECT form (42_anticollision.md R208). -/
def execSel1Select (link : List Byte) (s : State) : Host.Outcome State Fault Refusal := .next (select 1 link s)

/-- SEL2 in AC form (42_anticollision.md R206). -/
def execSel2Ac (nvb : Byte) (uidBits : List Bool) (s : State) : Host.Outcome State Fault Refusal :=
  .next (anticollision 2 nvb uidBits s)

/-- SEL2 in SELECT form (42_anticollision.md R209). -/
def execSel2Select (link : List Byte) (s : State) : Host.Outcome State Fault Refusal := .next (select 2 link s)

/-- SEL3 in AC form (42_anticollision.md R207). -/
def execSel3Ac (nvb : Byte) (uidBits : List Bool) (s : State) : Host.Outcome State Fault Refusal :=
  .next (anticollision 3 nvb uidBits s)

/-- SEL3 in SELECT form (42_anticollision.md R210). -/
def execSel3Select (link : List Byte) (s : State) : Host.Outcome State Fault Refusal := .next (select 3 link s)

end Sys2Proof.Machine
end

