-- ==== Sys2Proof/Machine/Dandelion.lean ====
section
/-! DEFINITION. The Dandelion Command Dispatcher (43_dandelion_commands.md): the shared procedures R241 to R243 and
R240, the dispatch R231, and the ten commands. The procedures read the request from `req`, as the spec's do. -/

namespace Sys2Proof.Machine

/-- `Read(w, ack)` (43_dandelion_commands.md R241). -/
def dandRead (w : Width) (ack : Byte) (s : State) : State :=
  if s.req.plen ≠ 4 then unknownCommand s
  else
    match check s.cfg (addrOperand s.req) w .read with
    | .misaligned => replyStatus errMisAligned s
    | .denied => replyStatus errReadProtected s
    | .allowed =>
      let r := memRead s (addrOperand s.req) w
      replyBytes (ack :: beBytes r.1 (widthBytes w)) true r.2

/-- `Write(w, ack)` (43_dandelion_commands.md R242). -/
def dandWrite (w : Width) (ack : Byte) (s : State) : State :=
  if s.req.plen ≠ 4 + widthBytes w then unknownCommand s
  else
    match check s.cfg (addrOperand s.req) w .write with
    | .misaligned => replyStatus errMisAligned s
    | .denied => replyStatus errWriteProtected s
    | .allowed =>
      replyBytes [ack] true (memWrite s (addrOperand s.req) w (dataOperand s.req (widthBytes w)))

/-- `CallCommon(enabled, ack)` (43_dandelion_commands.md R243). -/
def callCommon (enabled : Bool) (ack : Byte) (s : State) : State :=
  if enabled = false then replyStatus errMsgCallDisabled s
  else if s.req.plen ≠ 1 then unknownCommand s
  else
    match registered s (idOperand s.req) with
    | none => unknownCommand s
    | some cb =>
      let r := invoke cb s
      replyBytes (ack :: beBytes r.1 4) true r.2

/-- loopback (43_dandelion_commands.md R240). -/
def dandLoopback (s : State) : State :=
  if 47 < s.req.plen then unknownCommand s
  else replyBytes (rloopback :: payloadSlice s.req 0 s.req.plen) true s

/-- `Dispatch(req)` (43_dandelion_commands.md R231, R244). -/
def dispatch (s : State) : State :=
  if s.req.command = dcReadWord then dandRead .word s.cfg.ackReadWord s
  else if s.req.command = dcReadHalfword then dandRead .halfword s.cfg.ackReadHalfword s
  else if s.req.command = dcReadByte then dandRead .byte s.cfg.ackReadByte s
  else if s.req.command = dcWriteWord then dandWrite .word s.cfg.ackWriteWord s
  else if s.req.command = dcWriteHalfword then dandWrite .halfword s.cfg.ackWriteHalfword s
  else if s.req.command = dcWriteByte then dandWrite .byte s.cfg.ackWriteByte s
  else if s.req.command = dcCall then callCommon s.cfg.live.callEnable ackCallFunc s
  else if s.req.command = dcSendMessage then callCommon s.cfg.live.messageEnable ackSendMsg s
  else if s.req.command = dcLoopback then dandLoopback s
  else unknownCommand s

/-- DAND_CMD up to the dispatch (41_link_commands.md R172): only in `ProtDand`, and only with a request, which is written
to `req` (40_frame_classifier.md R150). -/
def withRequest (code : Byte) (payload : List Byte) (k : State → State) (s : State) : State :=
  if s.tagState = .protDand then
    match mkRequest code payload with
    | some r => k { s with req := r }
    | none => unknownCommand s
  else unknownCommand s

/-- DAND_CMD (41_link_commands.md R172). -/
def execDandCmd (link : List Byte) (s : State) : Host.Outcome State Fault Refusal :=
  match link with
  | [] => .next (unknownCommand s)
  | code :: payload => .next (withRequest code payload dispatch s)

/-- read_word (43_dandelion_commands.md R232). -/
def execReadWord (payload : List Byte) (s : State) : Host.Outcome State Fault Refusal :=
  .next (withRequest dcReadWord payload (dandRead .word s.cfg.ackReadWord) s)

/-- read_halfword (43_dandelion_commands.md R233). -/
def execReadHalfword (payload : List Byte) (s : State) : Host.Outcome State Fault Refusal :=
  .next (withRequest dcReadHalfword payload (dandRead .halfword s.cfg.ackReadHalfword) s)

/-- read_byte (43_dandelion_commands.md R234). -/
def execReadByte (payload : List Byte) (s : State) : Host.Outcome State Fault Refusal :=
  .next (withRequest dcReadByte payload (dandRead .byte s.cfg.ackReadByte) s)

/-- write_word (43_dandelion_commands.md R235). -/
def execWriteWord (payload : List Byte) (s : State) : Host.Outcome State Fault Refusal :=
  .next (withRequest dcWriteWord payload (dandWrite .word s.cfg.ackWriteWord) s)

/-- write_halfword (43_dandelion_commands.md R236). -/
def execWriteHalfword (payload : List Byte) (s : State) : Host.Outcome State Fault Refusal :=
  .next (withRequest dcWriteHalfword payload (dandWrite .halfword s.cfg.ackWriteHalfword) s)

/-- write_byte (43_dandelion_commands.md R237). -/
def execWriteByte (payload : List Byte) (s : State) : Host.Outcome State Fault Refusal :=
  .next (withRequest dcWriteByte payload (dandWrite .byte s.cfg.ackWriteByte) s)

/-- call (43_dandelion_commands.md R238). -/
def execCall (payload : List Byte) (s : State) : Host.Outcome State Fault Refusal :=
  .next (withRequest dcCall payload (callCommon s.cfg.live.callEnable ackCallFunc) s)

/-- send_message (43_dandelion_commands.md R239). -/
def execSendMessage (payload : List Byte) (s : State) : Host.Outcome State Fault Refusal :=
  .next (withRequest dcSendMessage payload (callCommon s.cfg.live.messageEnable ackSendMsg) s)

/-- loopback (43_dandelion_commands.md R240). -/
def execLoopback (payload : List Byte) (s : State) : Host.Outcome State Fault Refusal :=
  .next (withRequest dcLoopback payload dandLoopback s)

end Sys2Proof.Machine
end

