-- ==== Sys2Proof/Machine/Link.lean ====
section
/-! DEFINITION. The standard-frame link commands (41_link_commands.md R168 to R173), DAND_CMD apart
(Machine/Dandelion.lean). -/

namespace Sys2Proof.Machine

/-- HLTA (41_link_commands.md R168). The link payload is not looked at (30_encoding.md R104). -/
def execHlta (_link : List Byte) (s : State) : Host.Outcome State Fault Refusal :=
  .next (if isSelected s.tagState then replyNone { s with tagState := .halt } else unknownCommand s)

/-- RATS_DAND (41_link_commands.md R170). The link payload is not looked at (30_encoding.md R105). -/
def execRatsDand (_link : List Byte) (s : State) : Host.Outcome State Fault Refusal :=
  .next
    (if isActive s.tagState then replyBytes s.cfg.ratsReply true { s with tagState := .protDand }
    else unknownCommand s)

/-- DESELECT_DAND (41_link_commands.md R171). The link payload is not looked at (30_encoding.md R106). -/
def execDeselectDand (_link : List Byte) (s : State) : Host.Outcome State Fault Refusal :=
  .next
    (if s.tagState = .protDand then replyBytes s.cfg.deselectReply true { s with tagState := .halt }
    else unknownCommand s)

/-- T2T_READ (41_link_commands.md R173): as Timeslot, the `AUX_HANDLER` or a refusal (log 8). -/
def execT2tRead (link : List Byte) (s : State) : Host.Outcome State Fault Refusal :=
  if s.cfg.auxPresent then
    .next (auxApply (s.frame.getD (classify s.cfg.rxMaxBits (encode (.t2tRead link)))) s)
  else .refused .t2tReadWithoutHandler

end Sys2Proof.Machine
end

