-- ==== Sys2Proof/Machine/Wake.lean ====
section
/-! DEFINITION. The short-frame commands (41_link_commands.md R162 to R164). -/

namespace Sys2Proof.Machine

/-- REQA (41_link_commands.md R162, R180). -/
def execReqa (s : State) : Host.Outcome State Fault Refusal := .next (wake .ready0 s)

/-- WUPA (41_link_commands.md R163, R180). -/
def execWupa (s : State) : Host.Outcome State Fault Refusal := .next (wake .ready1 s)

/-- Timeslot (41_link_commands.md R164): the `AUX_HANDLER` where one is supplied, on the frame being handled (or, where
`exec` is asked without one, on the frame that carries the command); refused without one (log 8). -/
def execTimeslot (s : State) : Host.Outcome State Fault Refusal :=
  if s.cfg.auxPresent then
    .next (auxApply (s.frame.getD (classify s.cfg.rxMaxBits (encode .timeslot))) s)
  else .refused .timeslotWithoutHandler

end Sys2Proof.Machine
end

