-- ==== Sys2Proof/Machine/Dispatch.lean ====
section
/-! DEFINITION. The dispatch of an instruction to its meaning, one arm per row of spec/opcode_table.json. -/

namespace Sys2Proof.Machine

def exec (i : Instr) (s : State) : Host.Outcome State Fault Refusal :=
  match i with
  | .reqa => Sys2Proof.Machine.execReqa s
  | .wupa => Sys2Proof.Machine.execWupa s
  | .timeslot => Sys2Proof.Machine.execTimeslot s
  | .hlta link => Sys2Proof.Machine.execHlta link s
  | .ratsDand link => Sys2Proof.Machine.execRatsDand link s
  | .deselectDand link => Sys2Proof.Machine.execDeselectDand link s
  | .t2tRead link => Sys2Proof.Machine.execT2tRead link s
  | .dandCmd link => Sys2Proof.Machine.execDandCmd link s
  | .sel1Ac nvb uidBits => Sys2Proof.Machine.execSel1Ac nvb uidBits s
  | .sel1Select link => Sys2Proof.Machine.execSel1Select link s
  | .sel2Ac nvb uidBits => Sys2Proof.Machine.execSel2Ac nvb uidBits s
  | .sel2Select link => Sys2Proof.Machine.execSel2Select link s
  | .sel3Ac nvb uidBits => Sys2Proof.Machine.execSel3Ac nvb uidBits s
  | .sel3Select link => Sys2Proof.Machine.execSel3Select link s
  | .readWord payload => Sys2Proof.Machine.execReadWord payload s
  | .readHalfword payload => Sys2Proof.Machine.execReadHalfword payload s
  | .readByte payload => Sys2Proof.Machine.execReadByte payload s
  | .writeWord payload => Sys2Proof.Machine.execWriteWord payload s
  | .writeHalfword payload => Sys2Proof.Machine.execWriteHalfword payload s
  | .writeByte payload => Sys2Proof.Machine.execWriteByte payload s
  | .call payload => Sys2Proof.Machine.execCall payload s
  | .sendMessage payload => Sys2Proof.Machine.execSendMessage payload s
  | .loopback payload => Sys2Proof.Machine.execLoopback payload s

end Sys2Proof.Machine
end

