-- ==== Sys2Proof/Machine/Events.lean ====
section
/-! DEFINITION. The handling of one event to completion (00_scope.md R9): a received frame (41_link_commands.md R160),
field loss (60_exceptions.md R299), reset (70_reset_and_hazards.md R320), `Register` and `ConfigChange`, and a frame cut
short (60_exceptions.md R300). -/

namespace Sys2Proof.Machine

/-! ## A received frame -/

/-- The start of the handling of a frame: `resp` fresh (10_state.md R28), `frame` classified, `req` extracted
(40_frame_classifier.md R150). -/
def receive (rx : List Bool) (s : State) : State :=
  let f := classify s.cfg.rxMaxBits rx
  { s with resp := freshResponse, frame := some f, req := f.request.getD s.req }

/-- The end of the handling: `frame` and `req` live during one frame only (10_state.md R20; log 10). -/
def retire (s : State) : State := { s with frame := none, req := zeroRequest }

/-- The answer to a frame that carries no instruction (41_link_commands.md R160, R161, R165, R166, R181). -/
def rejectFrame (r : Reject) (s : State) : State :=
  match r with
  | .badLength => replyNone s
  | .parity => replyStatus errRecCrcp s
  | .checksum => replyStatus errRecCrc s
  | .unknownShort => unknownCommand s
  | .unknownAc => unknownCommand s
  | .unknownStandard => unknownCommand s

/-- What a decoded frame does to the state in which it was received. -/
def execDecoded (d : Decoded) (s : State) : Host.Outcome State Fault Refusal :=
  match d with
  | .instr i => exec i s
  | .rejected r => .next (rejectFrame r s)

/-- Apply a function to the state of an outcome. -/
def mapNext (f : State → State) : Host.Outcome State Fault Refusal → Host.Outcome State Fault Refusal
  | .next s => .next (f s)
  | .fault e => .fault e
  | .refused e => .refused e

/-- `FrameReceived(rx_bits, L)` (41_link_commands.md R160). -/
def handleFrame (rx : List Bool) (s : State) : Host.Outcome State Fault Refusal :=
  mapNext retire (execDecoded (decode s.cfg.rxMaxBits rx) (receive rx s))

/-! ## Field loss, reset, registration, configuration -/

/-- `FieldLost` (60_exceptions.md R299). -/
def fieldLost (s : State) : State := retire (replyNone (setLink .idle 0 s))

/-- `Reset` (70_reset_and_hazards.md R320): the registry empties and the mailbox words are drawn afresh; the
configuration and `env` are not the block's. -/
def resetBlock (s : State) : State :=
  { fieldLost s with mailbox := drawnMailbox (s.resets + 1), registry := emptyRegistry, resets := s.resets + 1 }

/-- `ConfigChange` (10_state.md R43). -/
def changeConfig (new : LiveConfig) (s : State) : State := { s with cfg := { s.cfg with live := new } }

/-- The state after a frame's one possible side effect, in `mailbox` and `env`, and nothing else of its handling. -/
def keepSideEffect (s : State) : Host.Outcome State Fault Refusal → State
  | .next t => { s with mailbox := t.mailbox, env := t.env }
  | .fault _ => s
  | .refused _ => s

/-- A frame whose handling was cut short (60_exceptions.md R300, 70_reset_and_hazards.md R320): its side effect done wholly
or not at all, then the field loss or the reset. -/
def cutFrame (rx : List Bool) (cut : Cut) (effectDone : Bool) (s : State) : State :=
  let t := if effectDone then keepSideEffect s (handleFrame rx s) else s
  match cut with
  | .fieldLost => fieldLost t
  | .reset => resetBlock t

/-- One event, handled to completion. A `ConfigChange` to an ill-formed configuration is refused
(70_reset_and_hazards.md R332). -/
def handleEvent (e : Event) (s : State) : Host.Outcome State Fault Refusal :=
  match e with
  | .reset => .next (resetBlock s)
  | .register id cb => .next (registerCallback id cb s)
  | .configChange new =>
    if configWf (changeConfig new s).cfg then .next (changeConfig new s) else .refused .illFormedConfig
  | .frameReceived rx => handleFrame rx s
  | .fieldLost => .next (fieldLost s)
  | .frameCut rx cut effectDone => .next (cutFrame rx cut effectDone s)

/-- The environment's next event, or waiting when none is coming (70_reset_and_hazards.md R322; logs 1, 15). An ill-formed
configuration has no meaning (70_reset_and_hazards.md R332). -/
def nextEvent (s : State) : Host.Outcome State Fault Refusal :=
  if configWf s.cfg = false then .refused .illFormedConfig
  else
    match s.inputs with
    | [] => .next s
    | e :: rest => handleEvent e { s with inputs := rest }

/-- The `Register` events of the platform's initialisation: the two built-ins and the rest of `INIT_REGISTRY`
(44_mailbox_registry.md R273, 70_reset_and_hazards.md R323). -/
def initialisation (c : Cfg) : List Event :=
  ((c.fidMailboxAddr, Callback.mailboxAddr) :: (c.fidMailboxSize, Callback.mailboxSize) :: c.extraRegistry).map
    fun p => .register p.1 p.2

/-- A frame put where the next step takes its event (logs 1, 18). -/
def enqueueFrame (rx : List Bool) (s : State) : State := { s with inputs := .frameReceived rx :: s.inputs }

end Sys2Proof.Machine
end

