-- ==== Sys2Proof/Machine/Step.lean ====
section
/-! DEFINITION. One step: the environment's next event, handled to completion (00_scope.md R9). -/

namespace Sys2Proof.Machine

/-- One step of the block. -/
def step (s : State) : Host.Outcome State Fault Refusal := nextEvent s

/-- The state with the frame of a word of the opcode table as the next event (logs 1, 18). -/
def State.withFetchWord (s : State) (nbits w : Nat) : State := enqueueFrame (tableFrame nbits w) s

end Sys2Proof.Machine
end

