-- ==== Sys2Proof/Safety.lean ====
section
/-! DEFINITION. The terms of the claims: the invariant of the block's state, the forms of a reply, and what an error
leaves unchanged. -/

namespace Sys2Proof.Machine

/-- `resp` as 10_state.md R27 says: at most 384 bits, a checksum only after whole bytes, and nothing in it when no reply is
sent (92_eei_decisions.md D18). -/
abbrev responseWf (r : Response) : Prop :=
  r.bitLength ≤ 384 ∧ (r.appendChecksum = true → r.bitLength % 8 = 0) ∧ (r.sendReply = false → r = freshResponse)

/-- `cascade_level` as 10_state.md R23 says: below the UID's number of levels, and 0 outside the Ready states. -/
abbrev cascadeWf (s : State) : Prop :=
  s.cascadeLevel < nLevels s.cfg.uid ∧ (isReady s.tagState = false → s.cascadeLevel = 0)

/-- What holds of the block's state between events: a well-formed configuration (70_reset_and_hazards.md R332), plain memory
in its canonical form, `cascade_level` and `resp` as R23 and R27 say, and no frame being handled (10_state.md R32). -/
structure State.Inv (s : State) : Prop where
  config : configWf s.cfg = true
  memory : Memory.wf s.env.mem
  cascade : cascadeWf s
  response : responseWf s.resp
  noFrame : s.frame = none
  noRequest : s.req = zeroRequest

/-- The seven error codes (30_encoding.md R101). -/
def errorCodes : List Byte :=
  [errRecCrc, errRecCrcp, errReadProtected, errWriteProtected, errMisAligned, errUnknownCmd, errMsgCallDisabled]

/-- The reply is the one-byte status reply with code `c` (60_exceptions.md R286). -/
abbrev isStatusReply (c : Byte) (r : Response) : Prop :=
  r.bitLength = 8 ∧ r.sendReply = true ∧ r.appendChecksum = true ∧ r.payload.toList = c :: List.replicate 47 0

/-- Two states agree on everything a frame's handling could leave behind but `resp` and the per-frame storage
`frame` and `req` (60_exceptions.md R286). -/
abbrev sameButReply (s t : State) : Prop :=
  t.tagState = s.tagState ∧ t.cascadeLevel = s.cascadeLevel ∧ t.mailbox = s.mailbox ∧ t.registry = s.registry ∧
    t.cfg = s.cfg ∧ t.env = s.env ∧ t.resets = s.resets ∧ t.inputs = s.inputs

/-- Two states agree on everything but the link state, `resp` and the per-frame storage. -/
abbrev sameButLink (s t : State) : Prop :=
  t.mailbox = s.mailbox ∧ t.registry = s.registry ∧ t.cfg = s.cfg ∧ t.env = s.env ∧ t.resets = s.resets ∧
    t.inputs = s.inputs

/-- What `req` holds while a Dandelion command with this code and payload is handled (40_frame_classifier.md R150). -/
def requestOfPayload (code : Byte) (payload : List Byte) : Request := ⟨code, payload.length, padBytes 48 payload⟩

end Sys2Proof.Machine
end

