-- ==== Sys2Proof/Certificates/Slice0/Obligations.lean ====
section
/-! DEFINITION. The statements for the provers. Each docstring names the rule of spec/ it formalises; a clause that rests
on a choice of the model names the log entry (notes/assumptions). -/

open Sys2Proof Sys2Proof.Machine

/-! ## The step -/

/-- R9, R160: when the next event is a frame that decodes to `i`, the step receives it (`resp` fresh, `frame` and `req`
written), runs `exec i`, and drops the per-frame storage (log 10); a refusal of `exec` is the step's. -/
def Obligations.StepRunsDecodedInstruction : Prop :=
  ∀ (s : State) (rx : List Bool) (rest : List Event) (i : Instr),
    configWf s.cfg = true → s.inputs = .frameReceived rx :: rest → decode s.cfg.rxMaxBits rx = .instr i →
    ∀ r : State,
      r = { s with
            inputs := rest, resp := freshResponse, frame := some (classify s.cfg.rxMaxBits rx)
            req := (classify s.cfg.rxMaxBits rx).request.getD s.req } →
      (∀ t, exec i r = .next t → step s = .next { t with frame := none, req := zeroRequest }) ∧
        (∀ e, exec i r = .refused e → step s = .refused e)

/-- R161: a frame of type `error` is dropped without a reply; nothing but the per-frame storage `frame` and `req` and the
fresh `resp` (R28) is touched. -/
def Obligations.ErrorFrameIsDropped : Prop :=
  ∀ (s : State) (rx : List Bool) (rest : List Event),
    configWf s.cfg = true → s.inputs = .frameReceived rx :: rest →
    frameTypeOf s.cfg.rxMaxBits rx.length = .error →
    ∃ t, step s = .next t ∧ t = { s with inputs := rest, resp := freshResponse, frame := t.frame, req := t.req }

/-- R287, R288: the two transport errors, in every state, before the command is looked at. -/
def Obligations.TransportErrorsAreAnswered : Prop :=
  ∀ (s : State) (rx : List Bool) (rest : List Event) (f : Frame),
    configWf s.cfg = true → s.inputs = .frameReceived rx :: rest → f = classify s.cfg.rxMaxBits rx →
    f.frameType = .standard ∨ f.frameType = .anticollision →
    (f.parityOk = false →
      ∃ t, step s = .next t ∧ isStatusReply 0xA5 t.resp ∧ t.tagState = s.tagState ∧
        t.cascadeLevel = s.cascadeLevel ∧ t.mailbox = s.mailbox ∧ t.registry = s.registry ∧ t.cfg = s.cfg ∧
        t.env = s.env ∧ t.inputs = rest) ∧
    (f.parityOk = true → isAcForm f = false →
      (f.bytes.length < 3 ∨
        ∃ body lo hi, f.bytes = body ++ [lo, hi] ∧
          (crcA body).toNat ≠ lo.toNat + 256 * hi.toNat) →
      ∃ t, step s = .next t ∧ isStatusReply 0xAA t.resp ∧ t.tagState = s.tagState ∧
        t.cascadeLevel = s.cascadeLevel ∧ t.mailbox = s.mailbox ∧ t.registry = s.registry ∧ t.cfg = s.cfg ∧
        t.env = s.env ∧ t.inputs = rest)

/-- R165, R166, R181, R203: a short code, or the first byte of a frame with right parity and, where one is due, a right
checksum, that is no command, is answered 0xAF and changes nothing. -/
def Obligations.UnknownLinkCodesAreAnswered : Prop :=
  ∀ (s : State) (rx : List Bool) (rest : List Event) (f : Frame),
    configWf s.cfg = true → s.inputs = .frameReceived rx :: rest → f = classify s.cfg.rxMaxBits rx →
    (f.frameType = .short ∧ f.command ∉ ([0x26, 0x52, 0x35] : List Byte)) ∨
      (f.frameType = .anticollision ∧ f.parityOk = true ∧ f.command ∉ ([0x93, 0x95, 0x97] : List Byte)) ∨
      (f.frameType = .standard ∧ f.parityOk = true ∧ crcOk f.bytes = true ∧
        f.command ∉ ([0x50, 0x93, 0x95, 0x97, 0x47, 0x48, 0x01, 0x30] : List Byte)) →
    ∃ t, step s = .next t ∧ isStatusReply 0xAF t.resp ∧ t.tagState = s.tagState ∧
      t.cascadeLevel = s.cascadeLevel ∧ t.mailbox = s.mailbox ∧ t.registry = s.registry ∧ t.cfg = s.cfg ∧
      t.env = s.env ∧ t.inputs = rest

/-- R322, R337 (log 15): with no coming event the block waits, and a step changes nothing. -/
def Obligations.WaitingChangesNothing : Prop :=
  ∀ s : State, configWf s.cfg = true → s.inputs = [] → step s = .next s

/-- R337: with a well-formed configuration, no frame is refused but a Timeslot or T2T_READ frame without an `AUX_HANDLER`.
The other disjunct is the model's choice and not R337's: a `ConfigChange` whose page table has not one entry for each
page (R39) is refused when it comes (logs 13, 20). -/
def Obligations.OnlyRefusals : Prop :=
  ∀ (s : State) (e : Refusal), configWf s.cfg = true → step s = .refused e →
    (∃ rx rest, s.inputs = .frameReceived rx :: rest ∧ s.cfg.auxPresent = false ∧
      ((decode s.cfg.rxMaxBits rx = .instr .timeslot ∧ e = .timeslotWithoutHandler) ∨
        ∃ link, decode s.cfg.rxMaxBits rx = .instr (.t2tRead link) ∧ e = .t2tReadWithoutHandler)) ∨
    ∃ new rest, s.inputs = .configChange new :: rest ∧ configWf { s.cfg with live := new } = false ∧
      e = .illFormedConfig

/-! ## Reset, field loss, registration, configuration -/

/-- R20, R46, R320: what the event `Reset` leaves. The mailbox words are the model's free values (log 3): nothing is said of
them. That the configuration outlives a reset is the model's choice (log 2). -/
def Obligations.ResetEventLeaves : Prop :=
  ∀ (s : State) (rest : List Event), configWf s.cfg = true → s.inputs = .reset :: rest →
    ∃ t, step s = .next t ∧ t.tagState = .idle ∧ t.cascadeLevel = 0 ∧ t.frame = none ∧
      t.req.command = 0 ∧ t.req.plen = 0 ∧ t.req.payload.toList = List.replicate 48 0 ∧
      t.resp.bitLength = 0 ∧ t.resp.sendReply = false ∧ t.resp.appendChecksum = false ∧
      t.resp.payload.toList = List.replicate 48 0 ∧
      (∀ id, registered t id = none) ∧ t.cfg = s.cfg ∧ t.env = s.env ∧ t.inputs = rest

/-- R46: the block's state right after reset. The configuration driven there is the model's choice (log 2) and nothing is
said of it, nor of the mailbox (log 3). -/
def Obligations.ResetStateValues : Prop :=
  State.reset.tagState = .idle ∧ State.reset.cascadeLevel = 0 ∧ State.reset.frame = none ∧
    State.reset.req.command = 0 ∧ State.reset.req.plen = 0 ∧
    State.reset.req.payload.toList = List.replicate 48 0 ∧
    State.reset.resp.bitLength = 0 ∧ State.reset.resp.sendReply = false ∧
    State.reset.resp.appendChecksum = false ∧ State.reset.resp.payload.toList = List.replicate 48 0 ∧
    ∀ id, registered State.reset id = none

/-- R299: field loss, from any state: `Idle`, no level done, `resp` fresh, no `frame`, and mailbox, registry,
configuration and `env` untouched. `req` has no meaning afterwards and nothing is said of it. -/
def Obligations.FieldLossForcesIdle : Prop :=
  ∀ (s : State) (rest : List Event), configWf s.cfg = true → s.inputs = .fieldLost :: rest →
    ∃ t, step s = .next t ∧ t =
      { s with
        inputs := rest, tagState := .idle, cascadeLevel := 0, resp := freshResponse, frame := none, req := t.req }

/-- R300, R320: a frame cut short by field loss or reset leaves no reply and the tag in `Idle`, and its side effect
happened wholly or not at all. Which of the two is the environment's choice, and so is the cut by a reset
(logs 11, 12). -/
def Obligations.CutFrameIsAllOrNothing : Prop :=
  ∀ (s : State) (rest : List Event) (rx : List Bool) (cut : Cut) (done : Bool),
    configWf s.cfg = true → s.inputs = .frameCut rx cut done :: rest →
    ∃ t, step s = .next t ∧ t.tagState = .idle ∧ t.cascadeLevel = 0 ∧ t.resp = freshResponse ∧ t.frame = none ∧
      t.cfg = s.cfg ∧ t.inputs = rest ∧
      (cut = .fieldLost → t.registry = s.registry) ∧ (cut = .reset → ∀ id, registered t id = none) ∧
      (done = false → t.env = s.env ∧ (cut = .fieldLost → t.mailbox = s.mailbox)) ∧
      (done = true →
        (∀ u, step { s with inputs := .frameReceived rx :: rest } = .next u →
          t.env = u.env ∧ (cut = .fieldLost → t.mailbox = u.mailbox)) ∧
        (∀ e, step { s with inputs := .frameReceived rx :: rest } = .refused e →
          t.env = s.env ∧ (cut = .fieldLost → t.mailbox = s.mailbox)))

/-- R272: `Register` stores one callback under one id and touches nothing else. It is taken at any time between frames
(log 14). -/
def Obligations.RegisterStoresOneCallback : Prop :=
  ∀ (s : State) (rest : List Event) (id : Byte) (cb : Callback),
    configWf s.cfg = true → s.inputs = .register id cb :: rest →
    ∃ t, step s = .next t ∧ registered t id = some cb ∧ (∀ other, other ≠ id → registered t other = registered s other) ∧
      t.tagState = s.tagState ∧ t.cascadeLevel = s.cascadeLevel ∧ t.resp = s.resp ∧ t.mailbox = s.mailbox ∧
      t.cfg = s.cfg ∧ t.env = s.env ∧ t.inputs = rest

/-- R272, R273, R323: the platform's initialisation, run from any state, leaves under each id the last callback of
`INIT_REGISTRY` for it, and under the other ids what was there. -/
def Obligations.InitialisationRegistersAll : Prop :=
  ∀ (s : State) (id : Byte), configWf s.cfg = true → s.inputs = initialisation s.cfg →
    ∃ t, Host.Core.run Sys2Proof.core (initialisation s.cfg).length s = .next t ∧ t.inputs = [] ∧
      registered t id =
        (((s.cfg.fidMailboxAddr, Callback.mailboxAddr) :: (s.cfg.fidMailboxSize, Callback.mailboxSize)
            :: s.cfg.extraRegistry).reverse.lookup id).or (registered s id)

/-- R43, R332: `ConfigChange` gives new values to its four inputs and changes nothing else; one that would make the
configuration ill formed is refused (log 20). -/
def Obligations.ConfigChangeReplacesItsInputs : Prop :=
  ∀ (s : State) (rest : List Event) (new : LiveConfig),
    configWf s.cfg = true → s.inputs = .configChange new :: rest →
    (configWf { s.cfg with live := new } = true →
      step s = .next { s with inputs := rest, cfg := { s.cfg with live := new } }) ∧
    (configWf { s.cfg with live := new } = false → step s = .refused .illFormedConfig)

/-- R332: an ill-formed configuration is refused; that every step refuses it, whatever the event, is the model's reading of
"at construction" (log 13). -/
def Obligations.IllFormedConfigIsRefused : Prop :=
  ∀ s : State,
    (∃ r t, r ≠ t ∧ ∃ a, (ofOwner s.cfg.region r).start ≤ a ∧ a < (ofOwner s.cfg.region r).stop ∧
        (ofOwner s.cfg.region t).start ≤ a ∧ a < (ofOwner s.cfg.region t).stop) ∨
      (∃ a, s.cfg.mailboxBase ≤ a ∧ a < s.cfg.mailboxBase + 256 ∧ s.cfg.nvmStart ≤ a ∧ a < s.cfg.nvmStop) ∨
      (∃ r, (ofOwner s.cfg.region r).start % 4 ≠ 0 ∨ (ofOwner s.cfg.region r).stop % 4 ≠ 0) ∨
      s.cfg.nvmStart % 4 ≠ 0 ∨ s.cfg.nvmStop % 4 ≠ 0 ∨ s.cfg.nvmPageSize % 4 ≠ 0 ∨ s.cfg.mailboxBase % 4 ≠ 0 →
    step s = .refused .illFormedConfig

/-- R20, R42, R43: no step changes a constant of the configuration, and only a `ConfigChange` changes its four inputs. That
the identity inputs, which R35 calls constant between resets, outlive a reset too is the model's choice (log 2). -/
def Obligations.ConfigurationConstantsNeverChange : Prop :=
  ∀ s t : State, step s = .next t →
    ({ t.cfg with live := s.cfg.live } : Cfg) = s.cfg ∧
      ((∀ new rest, s.inputs ≠ .configChange new :: rest) → t.cfg = s.cfg)

/-- R83, R272: the registry changes only through `Register` and `Reset` (and a frame that a reset cut short,
log 12). -/
def Obligations.RegistryChangesOnlyByRegisterOrReset : Prop :=
  ∀ s t : State, step s = .next t → t.registry ≠ s.registry →
    (∃ id cb rest, s.inputs = .register id cb :: rest) ∨ (∃ rest, s.inputs = .reset :: rest) ∨
      ∃ rx done rest, s.inputs = .frameCut rx .reset done :: rest

/-! ## The invariant -/

/-- The invariant of Safety.lean holds right after reset (with the configuration of log 2). -/
def Obligations.ResetStateMeetsInvariant : Prop := State.reset.Inv

/-- R23, R27, R28, R32, R332: from every state that meets the invariant, every step leads to one that meets it: the
configuration stays well formed, plain memory keeps its canonical form, `cascade_level` stays below the UID's number
of levels and is 0 outside the Ready states, `resp` has at most 384 bits and a checksum only after whole bytes, and
nothing of a frame outlives its event. The form of plain memory is the model's (log 4), and so is what stands for
"no request" (log 10). -/
def Obligations.EveryStepKeepsInvariant : Prop :=
  ∀ s t : State, s.Inv → step s = .next t → t.Inv

/-! ## Frames and encodings -/

/-- Every well-formed instruction whose frame fits the receive buffer decodes from its encoding, with every operand. Which
frames are which constructor is read from R103 (log 17). -/
def Obligations.DecodeOfEncode : Prop :=
  ∀ (rxMax : Nat) (i : Instr), i.wf = true → i.fits rxMax = true → decode rxMax (encode i) = .instr i

/-- The other direction: a bit sequence that decodes to an instruction is that instruction's one encoding, and the
instruction is well formed and fits (log 17). -/
def Obligations.EncodeOfDecode : Prop :=
  ∀ (rxMax : Nat) (rx : List Bool) (i : Instr), decode rxMax rx = .instr i →
    encode i = rx ∧ i.wf = true ∧ i.fits rxMax = true

/-- R91, R92, R93: four frames written out bit by bit from their encodings (REQA, HLTA, SEL1 in AC form with 13 UID bits,
read_word of 0x20000010). -/
def Obligations.KnownFramesDecode : Prop :=
  decode 468 [false, true, true, false, false, true, false] = .instr .reqa ∧
    decode 468
        [false, false, false, false, true, false, true, false, true,
          false, false, false, false, false, false, false, false, true,
          true, true, true, false, true, false, true, false, false,
          true, false, true, true, false, false, true, true, false] = .instr (.hlta [0x00]) ∧
    decode 468
        [true, true, false, false, true, false, false, true, true,
          true, false, true, false, true, true, false, false, true,
          false, false, true, false, false, false, false, false, false,
          true, false, false, false, false] =
      .instr (.sel1Ac 0x35 [false, false, true, false, false, false, false, false, true, false, false, false, false]) ∧
    decode 468
        [true, false, false, false, false, false, false, false, false,
          false, false, false, false, false, false, false, true, false,
          false, false, false, false, false, true, false, false, false,
          false, false, false, false, false, false, false, false, true,
          false, false, false, false, false, false, false, false, true,
          false, false, false, false, true, false, false, false, false,
          true, true, true, true, true, false, false, false, false,
          false, true, true, false, false, true, false, false, false] = .instr (.readWord [0x20, 0x00, 0x00, 0x10])

/-- R147: which lengths make an `error` frame, and its fields. -/
def Obligations.ErrorFrameLengths : Prop :=
  ∀ (rxMax : Nat) (rx : List Bool),
    ((classify rxMax rx).frameType = .error ↔
      rx.length ≠ 7 ∧
        (rx.length = 0 ∨ rx.length ≤ 6 ∨ rx.length % 9 = 8 ∨
          (1 ≤ rx.length % 9 ∧ rx.length % 9 ≤ 7 ∧ ¬(2 ≤ rx.length / 9 ∧ rx.length / 9 ≤ 5)) ∨ rxMax < rx.length)) ∧
    ((classify rxMax rx).frameType = .error →
      classify rxMax rx = ⟨rx.length, .error, 0, true, [], [], none⟩)

/-- R142, R144, R145: which lengths make a short, a standard and an anticollision frame. -/
def Obligations.WellFormedFrameLengths : Prop :=
  ∀ (rxMax : Nat) (rx : List Bool),
    ((classify rxMax rx).frameType = .short ↔ rx.length = 7) ∧
    ((classify rxMax rx).frameType = .standard ↔ ∃ n, 1 ≤ n ∧ rx.length = 9 * n ∧ rx.length ≤ rxMax) ∧
    ((classify rxMax rx).frameType = .anticollision ↔
      rx.length ≤ rxMax ∧
        (19 ≤ rx.length ∧ rx.length ≤ 25 ∨ 28 ≤ rx.length ∧ rx.length ≤ 34 ∨ 37 ≤ rx.length ∧ rx.length ≤ 43 ∨
          46 ≤ rx.length ∧ rx.length ≤ 52))

/-- R143, R146: the bytes, the data bits and `parity_ok` of a frame of groups (byte, parity bit) and `r` further bits; a
wrong parity bit changes neither the type nor the bytes. -/
def Obligations.ParityFlagIsExact : Prop :=
  ∀ (rxMax : Nat) (groups : List (Byte × Bool)) (tail rx : List Bool),
    tail.length ≤ 7 → rx = (groups.flatMap fun g => bitsOfByte g.1 ++ [g.2]) ++ tail →
    frameTypeOf rxMax rx.length = .standard ∨ frameTypeOf rxMax rx.length = .anticollision →
    (classify rxMax rx).frameType = frameTypeOf rxMax rx.length ∧
      (classify rxMax rx).bytes = groups.map Prod.fst ∧
      (classify rxMax rx).dataBits = (groups.flatMap fun g => bitsOfByte g.1) ++ tail ∧
      ((classify rxMax rx).parityOk = true ↔ ∀ g ∈ groups, g.2 = parityBit g.1)

/-- R150: a frame has an embedded request exactly when it is a standard frame of at least 4 bytes, the first is 0x01 and at
most 48 are payload; then the request holds the code, the length and the payload filled with zeros. -/
def Obligations.RequestIsExtracted : Prop :=
  ∀ (rxMax : Nat) (rx : List Bool),
    ((classify rxMax rx).frameType = .standard → ∀ code payload c0 c1,
      (classify rxMax rx).bytes = 0x01 :: code :: payload ++ [c0, c1] → payload.length ≤ 48 →
      ∃ r, (classify rxMax rx).request = some r ∧ r.command = code ∧ r.plen = payload.length ∧
        r.payload.toList = payload ++ List.replicate (48 - payload.length) 0) ∧
    ((classify rxMax rx).frameType ≠ .standard ∨ (classify rxMax rx).bytes.length < 4 ∨
        (classify rxMax rx).bytes.head? ≠ some 0x01 ∨ 52 < (classify rxMax rx).bytes.length →
      (classify rxMax rx).request = none)

/-- R148: the checksum test, a function of the bytes alone: false of fewer than 3 bytes, else the last two bytes, low byte
first, are CRC_A of the others; and the equivalent test that CRC_A over all bytes is 0. -/
def Obligations.ChecksumTestIsZeroRemainder : Prop :=
  (∀ bytes : List Byte, bytes.length < 3 → crcOk bytes = false) ∧
    (∀ (body : List Byte) (lo hi : Byte), body ≠ [] →
      (crcOk (body ++ [lo, hi]) = true ↔ (crcA body).toNat = lo.toNat + 256 * hi.toNat)) ∧
    ∀ bytes : List Byte, 3 ≤ bytes.length → (crcOk bytes = true ↔ crcA bytes = 0)

/-! ## Link commands -/

/-- R162, R163, R180: REQA and WUPA, in the states that accept them and in the others. -/
def Obligations.WakeCommands : Prop :=
  ∀ s : State,
    (s.tagState = .idle ∨ s.tagState = .halt →
      exec .reqa s = .next
        { s with
          tagState := .ready0, cascadeLevel := 0
          resp := ⟨16, true, false, padBytes 48 [s.cfg.atqa0, s.cfg.atqa1]⟩ } ∧
      exec .wupa s = .next
        { s with
          tagState := .ready1, cascadeLevel := 0
          resp := ⟨16, true, false, padBytes 48 [s.cfg.atqa0, s.cfg.atqa1]⟩ }) ∧
    (s.tagState ≠ .idle → s.tagState ≠ .halt →
      exec .reqa s = .next { s with resp := ⟨8, true, true, padBytes 48 [0xAF]⟩ } ∧
      exec .wupa s = .next { s with resp := ⟨8, true, true, padBytes 48 [0xAF]⟩ })

/-- R168: HLTA, whatever the link payload. -/
def Obligations.HltaHalts : Prop :=
  ∀ (s : State) (link : List Byte),
    (s.tagState ∈ [TagState.active0, .active1, .protDand] →
      exec (.hlta link) s = .next { s with tagState := .halt, resp := freshResponse }) ∧
    (s.tagState ∉ [TagState.active0, .active1, .protDand] →
      exec (.hlta link) s = .next { s with resp := ⟨8, true, true, padBytes 48 [0xAF]⟩ })

/-- R170: RATS_DAND, whatever the link payload; a reply string has at most 48 bytes in a well-formed configuration. -/
def Obligations.RatsDandEntersProtocol : Prop :=
  ∀ (s : State) (link : List Byte), s.cfg.ratsReply.length ≤ 48 →
    (s.tagState = .active0 ∨ s.tagState = .active1 →
      (s.cfg.ratsReply = [] →
        exec (.ratsDand link) s = .next { s with tagState := .protDand, resp := freshResponse }) ∧
      (s.cfg.ratsReply ≠ [] →
        exec (.ratsDand link) s = .next
          { s with
            tagState := .protDand
            resp := ⟨8 * s.cfg.ratsReply.length, true, true, padBytes 48 s.cfg.ratsReply⟩ })) ∧
    (s.tagState ≠ .active0 → s.tagState ≠ .active1 →
      exec (.ratsDand link) s = .next { s with resp := ⟨8, true, true, padBytes 48 [0xAF]⟩ })

/-- R171: DESELECT_DAND, whatever the link payload. -/
def Obligations.DeselectDandHalts : Prop :=
  ∀ (s : State) (link : List Byte), s.cfg.deselectReply.length ≤ 48 →
    (s.tagState = .protDand →
      (s.cfg.deselectReply = [] →
        exec (.deselectDand link) s = .next { s with tagState := .halt, resp := freshResponse }) ∧
      (s.cfg.deselectReply ≠ [] →
        exec (.deselectDand link) s = .next
          { s with
            tagState := .halt
            resp := ⟨8 * s.cfg.deselectReply.length, true, true, padBytes 48 s.cfg.deselectReply⟩ })) ∧
    (s.tagState ≠ .protDand →
      exec (.deselectDand link) s = .next { s with resp := ⟨8, true, true, padBytes 48 [0xAF]⟩ })

/-- R164, R173: Timeslot and T2T_READ complete in every state when an `AUX_HANDLER` is supplied: `tag_state` and the reply
are the handler's, for the frame being handled; without one they are refused. `cascade_level` is kept when the handler
keeps `tag_state` and cleared when it changes it (R23 read so, log 8). -/
def Obligations.AuxCommands : Prop :=
  ∀ (s : State) (f : Frame) (link : List Byte), s.frame = some f →
    (s.cfg.auxPresent = true →
      ∀ r, r = Config.auxHandler s.tagState f →
        ∃ t, exec .timeslot s = .next t ∧ exec (.t2tRead link) s = .next t ∧ t.tagState = r.tagState ∧
          t.cascadeLevel = (if r.tagState = s.tagState then s.cascadeLevel else 0) ∧ sameButLink s t ∧
          t.frame = s.frame ∧ t.req = s.req ∧
          t.resp =
            match r.reply with
            | .noResponse => freshResponse
            | .bytes bs crc => (replyBytes bs crc s).resp
            | .bits bits => (replyBits bits s).resp) ∧
    (s.cfg.auxPresent = false →
      exec .timeslot s = .refused .timeslotWithoutHandler ∧
      exec (.t2tRead link) s = .refused .t2tReadWithoutHandler)

/-- R270, R60: no link command and no SEL command touches the mailbox, the registry, the configuration or the
collaborators' state. -/
def Obligations.LinkCommandsTouchOnlyLinkState : Prop :=
  ∀ (s t : State) (link : List Byte) (nvb : Byte) (uidBits : List Bool) (i : Instr),
    i ∈ [Instr.reqa, .wupa, .timeslot, .hlta link, .ratsDand link, .deselectDand link, .t2tRead link,
      .sel1Ac nvb uidBits, .sel1Select link, .sel2Ac nvb uidBits, .sel2Select link, .sel3Ac nvb uidBits,
      .sel3Select link] →
    exec i s = .next t → sameButLink s t ∧ t.frame = s.frame ∧ t.req = s.req

/-- R178: `ProtDand` is left only by HLTA, DESELECT_DAND, field loss and reset (also while a frame is handled), where no
`AUX_HANDLER` gives Timeslot or T2T_READ a meaning of its own (logs 8, 12). -/
def Obligations.ProtDandIsLeftOnlyBy : Prop :=
  ∀ s t : State, s.tagState = .protDand → s.cfg.auxPresent = false → step s = .next t → t.tagState ≠ .protDand →
    (∃ rx rest link, s.inputs = .frameReceived rx :: rest ∧
      (decode s.cfg.rxMaxBits rx = .instr (.hlta link) ∨ decode s.cfg.rxMaxBits rx = .instr (.deselectDand link))) ∨
    (∃ rest, s.inputs = .fieldLost :: rest) ∨ (∃ rest, s.inputs = .reset :: rest) ∨
    ∃ rx cut done rest, s.inputs = .frameCut rx cut done :: rest

/-! ## Anticollision -/

/-- R200, R201, R202: the number of levels and UID CLn for the three UID sizes, BCC, and the 40 bits. -/
def Obligations.UidLevelsAndBits : Prop :=
  (∀ (ct : Byte) (u : Vector Byte 4), nLevels (.single u) = 1 ∧ uidCl ct (.single u) 1 = u.toList) ∧
    (∀ (ct : Byte) (u : Vector Byte 7),
      nLevels (.double u) = 2 ∧ uidCl ct (.double u) 1 = ct :: u.toList.take 3 ∧ uidCl ct (.double u) 2 = u.toList.drop 3) ∧
    (∀ (ct : Byte) (u : Vector Byte 10),
      nLevels (.triple u) = 3 ∧ uidCl ct (.triple u) 1 = ct :: u.toList.take 3 ∧
        uidCl ct (.triple u) 2 = ct :: (u.toList.drop 3).take 3 ∧ uidCl ct (.triple u) 3 = u.toList.drop 6) ∧
    ∀ b0 b1 b2 b3 : Byte,
      bcc [b0, b1, b2, b3] = b0 ^^^ b1 ^^^ b2 ^^^ b3 ∧ (u40 [b0, b1, b2, b3]).length = 40 ∧
        ∀ j i : Nat, j < 5 → i < 8 →
          (u40 [b0, b1, b2, b3])[8 * j + i]? =
            ([b0, b1, b2, b3, b0 ^^^ b1 ^^^ b2 ^^^ b3][j]?).map fun b => b.getLsbD i

/-- R203 to R207: SEL1, SEL2 and SEL3 in AC form, in the order of the tests: not Ready, malformed, wrong level, mismatch
and match; the reply to a match is the rest of `U40`. -/
def Obligations.SelAcForm : Prop :=
  ∀ (s : State) (lvl : Nat) (nvb : Byte) (uidBits : List Bool) (i : Instr) (u : List Bool),
    (lvl = 1 ∧ i = .sel1Ac nvb uidBits ∨ lvl = 2 ∧ i = .sel2Ac nvb uidBits ∨ lvl = 3 ∧ i = .sel3Ac nvb uidBits) →
    u = u40 (uidCl s.cfg.ct s.cfg.uid lvl) →
    exec i s = .next
      (if ¬(s.tagState = .ready0 ∨ s.tagState = .ready1) then
        { s with resp := ⟨8, true, true, padBytes 48 [0xAF]⟩ }
      else if ¬(2 ≤ nvb.toNat / 16 ∧ nvb.toNat / 16 ≤ 6 ∧ nvb.toNat % 16 ≤ 7 ∧
          8 * (nvb.toNat / 16) + nvb.toNat % 16 = 16 + uidBits.length ∧ uidBits.length ≤ 32) then
        { s with resp := ⟨8, true, true, padBytes 48 [0xAF]⟩ }
      else if lvl = s.cascadeLevel + 1 ∧ lvl ≤ nLevels s.cfg.uid ∧ uidBits <+: u then
        { s with
          resp := ⟨40 - uidBits.length, true, false, padBytes 48 (packBits (u.drop uidBits.length))⟩ }
      else
        { s with
          tagState := if s.tagState = .ready0 then .idle else .halt
          cascadeLevel := 0, resp := freshResponse })

/-- R203, R208 to R211, R169: SEL1, SEL2 and SEL3 in SELECT form. -/
def Obligations.SelSelectForm : Prop :=
  ∀ (s : State) (lvl : Nat) (link : List Byte) (i : Instr) (cl : List Byte),
    (lvl = 1 ∧ i = .sel1Select link ∨ lvl = 2 ∧ i = .sel2Select link ∨ lvl = 3 ∧ i = .sel3Select link) →
    cl = uidCl s.cfg.ct s.cfg.uid lvl →
    exec i s = .next
      (if ¬((s.tagState = .ready0 ∨ s.tagState = .ready1) ∧ link.length = 6 ∧ link.head? = some 0x70) then
        { s with resp := ⟨8, true, true, padBytes 48 [0xAF]⟩ }
      else if lvl = s.cascadeLevel + 1 ∧ lvl ≤ nLevels s.cfg.uid ∧ link = 0x70 :: cl ++ [bcc cl] then
        if lvl < nLevels s.cfg.uid then
          { s with cascadeLevel := lvl, resp := ⟨8, true, true, padBytes 48 [s.cfg.sakCascade]⟩ }
        else
          { s with
            tagState := if s.tagState = .ready0 then .active0 else .active1
            cascadeLevel := 0, resp := ⟨8, true, true, padBytes 48 [s.cfg.sakComplete]⟩ }
      else
        { s with
          tagState := if s.tagState = .ready0 then .idle else .halt
          cascadeLevel := 0, resp := freshResponse })

/-- R179, R212: a wake command and then a matching SELECT for each level of the UID, from any sleeping state, select the
tag: `Active0` after REQA, `Active1` after WUPA. -/
def Obligations.MatchingSelectsSelectTheTag : Prop :=
  ∀ (s : State) (wakeUp : Instr) (body : Nat → List Byte),
    s.tagState = .idle ∨ s.tagState = .halt → wakeUp = .reqa ∨ wakeUp = .wupa →
    (∀ n, body n = 0x70 :: uidCl s.cfg.ct s.cfg.uid n ++ [bcc (uidCl s.cfg.ct s.cfg.uid n)]) →
    ∃ t t1 t2 t3, exec wakeUp s = .next t ∧ exec (.sel1Select (body 1)) t = .next t1 ∧
      exec (.sel2Select (body 2)) t1 = .next t2 ∧ exec (.sel3Select (body 3)) t2 = .next t3 ∧
      ∀ u, (nLevels s.cfg.uid = 1 ∧ u = t1 ∨ nLevels s.cfg.uid = 2 ∧ u = t2 ∨ nLevels s.cfg.uid = 3 ∧ u = t3) →
        u.tagState = (if wakeUp = .reqa then .active0 else .active1) ∧ u.cascadeLevel = 0 ∧
          u.resp = ⟨8, true, true, padBytes 48 [s.cfg.sakComplete]⟩

/-! ## The address check and memory -/

/-- R71, R75, R76, R77: the verdict, where the regions do not overlap. -/
def Obligations.CheckVerdict : Prop :=
  ∀ (c : Cfg) (a : Nat) (w : Width) (intent : Intent), configWf c = true →
    (a % widthBytes w ≠ 0 → check c a w intent = .misaligned) ∧
    (a % widthBytes w = 0 →
      ((∀ r, ¬((ofOwner c.region r).start ≤ a ∧ a < (ofOwner c.region r).stop)) → check c a w intent = .denied) ∧
      ∀ r, (ofOwner c.region r).start ≤ a → a < (ofOwner c.region r).stop →
        ∀ st : AccessState,
          (c.nvmStart ≤ a ∧ a < c.nvmStop → c.live.pageAccess[(a - c.nvmStart) / c.nvmPageSize]? = some st) →
          (¬(c.nvmStart ≤ a ∧ a < c.nvmStop) → st = ofOwner c.live.priv r) →
          check c a w intent =
            if intent = .read ∧ (st = .readWrite ∨ st = .readOnly) ∨
                intent = .write ∧ (st = .readWrite ∨ st = .writeOnly) then .allowed else .denied)

/-- R79: the four properties the source states of the check. -/
def Obligations.CheckLaws : Prop :=
  ∀ (c : Cfg) (a : Nat) (w : Width) (intent : Intent),
    ((∀ r, ¬((ofOwner c.region r).start ≤ a ∧ a < (ofOwner c.region r).stop)) →
      check c a w intent = .denied ∨ check c a w intent = .misaligned) ∧
    (w ≠ .byte → a % widthBytes w ≠ 0 → check c a w intent = .misaligned) ∧
    check c a .byte intent ≠ .misaligned ∧
    (configWf c = true → ∀ r, ofOwner c.live.priv r = .readOnly → (ofOwner c.region r).start ≤ a →
      a < (ofOwner c.region r).stop → ¬(c.nvmStart ≤ a ∧ a < c.nvmStop) → check c a w .write ≠ .allowed)

/-- R77, R66: an aligned access at an address of a region lies wholly inside that region, inside or outside the NVM range
and there in one page, and inside or outside the mailbox window. -/
def Obligations.AlignedAccessDoesNotStraddle : Prop :=
  ∀ (c : Cfg) (a k : Nat) (w : Width) (r : Owner), configWf c = true → a % widthBytes w = 0 → k < widthBytes w →
    (ofOwner c.region r).start ≤ a → a < (ofOwner c.region r).stop →
    (ofOwner c.region r).start ≤ a + k ∧ a + k < (ofOwner c.region r).stop ∧ a + k < 2 ^ 32 ∧
      (inNvm c (a + k) = inNvm c a) ∧ stateOf c r (a + k) = stateOf c r a ∧ inWindow c (a + k) = inWindow c a

/-- R63, R72, R74: a read in the mailbox window is the little-endian slice of the mailbox word, and changes nothing. -/
def Obligations.MailboxWindowRead : Prop :=
  ∀ (s : State) (j b : Nat) (w : Width) (h : j < 64), b + widthBytes w ≤ 4 →
    memRead s (s.cfg.mailboxBase + 4 * j + b) w = ((s.mailbox[j].extractLsb' (8 * b) (8 * widthBytes w)).toNat, s)

/-- R63, R73, R74: a write in the mailbox window replaces the slice of the mailbox word and nothing else. -/
def Obligations.MailboxWindowWrite : Prop :=
  ∀ (s : State) (j b v : Nat) (w : Width) (h : j < 64), b + widthBytes w ≤ 4 → v < 2 ^ (8 * widthBytes w) →
    ∃ mb : Mailbox, memWrite s (s.cfg.mailboxBase + 4 * j + b) w v = { s with mailbox := mb } ∧
      (∀ (k : Nat) (hk : k < 64), k ≠ j → mb[k] = s.mailbox[k]) ∧
      ∀ n, mb[j].getLsbD n =
        if 8 * b ≤ n ∧ n < 8 * (b + widthBytes w) then v.testBit (n - 8 * b) else s.mailbox[j].getLsbD n

/-- R67, R70, R73 and the frame of a write: outside the mailbox window and outside a device, an aligned write changes exactly
its `n` bytes, in the region's byte order, and every other byte of the address space, the mailbox, the devices and all
else are unchanged. A write at a device is the device's write with that address, width and value, and nothing else.
What is plain, and in which byte order, is the configuration's business, and the form of plain memory and of devices
is the model's (logs 4, 5, 6). -/
def Obligations.PlainWriteChangesItsBytes : Prop :=
  ∀ (s t : State) (a v : Nat) (w : Width), configWf s.cfg = true → a % widthBytes w = 0 → a < 2 ^ 32 →
    inWindow s.cfg a = false → t = memWrite s a w v →
    t = { s with env := t.env } ∧
    (backingOf s.cfg a = .plainLittle → t.env.dev = s.env.dev ∧
      ∀ b, byteAt t b = if a ≤ b ∧ b < a + widthBytes w then BitVec.ofNat 8 (v / 256 ^ (b - a)) else byteAt s b) ∧
    (backingOf s.cfg a = .plainBig → t.env.dev = s.env.dev ∧
      ∀ b, byteAt t b =
        if a ≤ b ∧ b < a + widthBytes w then BitVec.ofNat 8 (v / 256 ^ (widthBytes w - 1 - (b - a)))
        else byteAt s b) ∧
    (backingOf s.cfg a = .device →
      t.env.mem = s.env.mem ∧ t.env.dev = Config.deviceWrite s.env.dev a (widthBytes w) v)

/-- R70, R72: a read changes at most the devices' state, and that only when a device is read: then the value and the devices'
new state are those the device gives for that address and width. A read's value is below `2^(8n)`. That plain
memory and a device do not disturb each other is the model's (logs 5, 6). -/
def Obligations.ReadHasNoSideEffectOnMemory : Prop :=
  ∀ (s : State) (a : Nat) (w : Width),
    (memRead s a w).1 < 2 ^ (8 * widthBytes w) ∧
    (memRead s a w).2 = { s with env := { s.env with dev := (memRead s a w).2.env.dev } } ∧
    (inWindow s.cfg a = true ∨ backingOf s.cfg a ≠ .device → (memRead s a w).2 = s) ∧
    (inWindow s.cfg a = false → backingOf s.cfg a = .device →
      ∀ d : Nat × Nat, d = Config.deviceRead s.env.dev a (widthBytes w) →
        (memRead s a w).1 = d.1 % 2 ^ (8 * widthBytes w) ∧ (memRead s a w).2.env.dev = d.2)

/-- R63, R70, R72: a read in plain memory gives the number whose bytes are the `n` bytes there, in the region's byte order,
and changes nothing. What is plain memory, and in which byte order, is the configuration's business (logs 4, 6). -/
def Obligations.PlainReadGivesItsBytes : Prop :=
  ∀ (s : State) (a : Nat) (w : Width), inWindow s.cfg a = false → backingOf s.cfg a ≠ .device →
    (memRead s a w).2 = s ∧ (memRead s a w).1 < 2 ^ (8 * widthBytes w) ∧
    (backingOf s.cfg a = .plainLittle →
      ∀ k, k < widthBytes w → BitVec.ofNat 8 ((memRead s a w).1 / 256 ^ k) = byteAt s (a + k)) ∧
    (backingOf s.cfg a = .plainBig →
      ∀ k, k < widthBytes w →
        BitVec.ofNat 8 ((memRead s a w).1 / 256 ^ (widthBytes w - 1 - k)) = byteAt s (a + k))

/-- R61, R62: on the wire the most significant byte of an address and of a value comes first. -/
def Obligations.WireOrderIsBigEndian : Prop :=
  (∀ b3 b2 b1 b0 : Byte,
      beNat [b3, b2, b1, b0] = b3.toNat * 2 ^ 24 + b2.toNat * 2 ^ 16 + b1.toNat * 2 ^ 8 + b0.toNat) ∧
    (∀ b1 b0 : Byte, beNat [b1, b0] = b1.toNat * 2 ^ 8 + b0.toNat) ∧ (∀ b0 : Byte, beNat [b0] = b0.toNat) ∧
    ∀ v n : Nat, (beBytes v n).length = n ∧ beNat (beBytes v n) = v % 2 ^ (8 * n)

/-! ## Dandelion commands -/

/-- R172: outside `ProtDand` every Dandelion frame is answered 0xAF and changes nothing, whatever it asks. -/
def Obligations.DandelionOutsideProtDand : Prop :=
  ∀ (s : State) (p : List Byte) (i : Instr), s.tagState ≠ .protDand →
    i ∈ [Instr.dandCmd p, .readWord p, .readHalfword p, .readByte p, .writeWord p, .writeHalfword p, .writeByte p,
      .call p, .sendMessage p, .loopback p] →
    exec i s = .next { s with resp := ⟨8, true, true, padBytes 48 [0xAF]⟩ }

/-- R172, R231, R240, R244: in `ProtDand`, DAND_CMD hands a request of at most 48 payload bytes to the row of its code; with an
unknown code it is answered 0xAF (`req` written), and without a request too; a loopback request is echoed. That
DAND_CMD as an instruction can carry a known code, and then does what the code's row does, is the model's reading: no
frame decodes to such a term (log 17). -/
def Obligations.DandCmdHandsRequestOver : Prop :=
  ∀ (s : State) (code : Byte) (p : List Byte), s.tagState = .protDand →
    (p.length ≤ 48 →
      exec (.dandCmd (0x80 :: p)) s = exec (.readWord p) s ∧
      exec (.dandCmd (0x81 :: p)) s = exec (.readHalfword p) s ∧
      exec (.dandCmd (0x82 :: p)) s = exec (.readByte p) s ∧
      exec (.dandCmd (0x70 :: p)) s = exec (.writeWord p) s ∧
      exec (.dandCmd (0x71 :: p)) s = exec (.writeHalfword p) s ∧
      exec (.dandCmd (0x72 :: p)) s = exec (.writeByte p) s ∧
      exec (.dandCmd (0x90 :: p)) s = exec (.call p) s ∧
      exec (.dandCmd (0x60 :: p)) s = exec (.sendMessage p) s ∧
      exec (.dandCmd (0xFF :: p)) s = exec (.loopback p) s ∧
      (code ∉ dandCodes →
        exec (.dandCmd (code :: p)) s = .next
          { s with req := requestOfPayload code p, resp := ⟨8, true, true, padBytes 48 [0xAF]⟩ })) ∧
    (48 < p.length →
      exec (.dandCmd (code :: p)) s = .next { s with resp := ⟨8, true, true, padBytes 48 [0xAF]⟩ }) ∧
    exec (.dandCmd []) s = .next { s with resp := ⟨8, true, true, padBytes 48 [0xAF]⟩ } ∧
    (p.length ≤ 47 →
      exec (.dandCmd (0xFF :: p)) s = .next
        { s with
          req := requestOfPayload 0xFF p, resp := ⟨8 * (1 + p.length), true, true, padBytes 48 (0xFF :: p)⟩ })

/-- R232, R233, R234, R241: the three reads in `ProtDand`, in the order of their tests: length, alignment, region and
privilege; allowed, the acknowledge and the value most significant byte first. -/
def Obligations.DandelionReads : Prop :=
  ∀ (s r : State) (p : List Byte) (w : Width) (code ack : Byte) (i : Instr) (a : Nat),
    (w = .word ∧ code = 0x80 ∧ ack = s.cfg.ackReadWord ∧ i = .readWord p ∨
      w = .halfword ∧ code = 0x81 ∧ ack = s.cfg.ackReadHalfword ∧ i = .readHalfword p ∨
      w = .byte ∧ code = 0x82 ∧ ack = s.cfg.ackReadByte ∧ i = .readByte p) →
    s.tagState = .protDand → p.length ≤ 48 → r = { s with req := requestOfPayload code p } →
    (p.length ≠ 4 → exec i s = .next { r with resp := ⟨8, true, true, padBytes 48 [0xAF]⟩ }) ∧
    ∀ a3 a2 a1 a0 : Byte, p = [a3, a2, a1, a0] →
      a = beNat [a3, a2, a1, a0] →
      exec i s = .next
        (match check s.cfg a w .read with
        | .misaligned => { r with resp := ⟨8, true, true, padBytes 48 [0xDD]⟩ }
        | .denied => { r with resp := ⟨8, true, true, padBytes 48 [0xC0]⟩ }
        | .allowed =>
          { (memRead r a w).2 with
            resp := ⟨8 * (1 + widthBytes w), true, true,
              padBytes 48 (ack :: beBytes (memRead r a w).1 (widthBytes w))⟩ })

/-- R235, R236, R237, R242: the three writes in `ProtDand`; refused, nothing is written; allowed, `MemWrite` of the data,
most significant byte first, at the address the payload gives. -/
def Obligations.DandelionWrites : Prop :=
  ∀ (s r : State) (p : List Byte) (w : Width) (code ack : Byte) (i : Instr) (a : Nat),
    (w = .word ∧ code = 0x70 ∧ ack = s.cfg.ackWriteWord ∧ i = .writeWord p ∨
      w = .halfword ∧ code = 0x71 ∧ ack = s.cfg.ackWriteHalfword ∧ i = .writeHalfword p ∨
      w = .byte ∧ code = 0x72 ∧ ack = s.cfg.ackWriteByte ∧ i = .writeByte p) →
    s.tagState = .protDand → p.length ≤ 48 → r = { s with req := requestOfPayload code p } →
    (p.length ≠ 4 + widthBytes w → exec i s = .next { r with resp := ⟨8, true, true, padBytes 48 [0xAF]⟩ }) ∧
    ∀ (a3 a2 a1 a0 : Byte) (data : List Byte), p = [a3, a2, a1, a0] ++ data → data.length = widthBytes w →
      a = beNat [a3, a2, a1, a0] →
      exec i s = .next
        (match check s.cfg a w .write with
        | .misaligned => { r with resp := ⟨8, true, true, padBytes 48 [0xDD]⟩ }
        | .denied => { r with resp := ⟨8, true, true, padBytes 48 [0xD0]⟩ }
        | .allowed => { memWrite r a w (beNat data) with resp := ⟨8, true, true, padBytes 48 [ack]⟩ })

/-- R238, R239, R243, R274: call and send_message in `ProtDand`, in the order of their tests: the enable, the length, the
registration; then the callback's result. -/
def Obligations.CallsInvokeRegisteredFunctions : Prop :=
  ∀ (s r : State) (p : List Byte) (enabled : Bool) (code : Byte) (i : Instr),
    (enabled = s.cfg.live.callEnable ∧ code = 0x90 ∧ i = .call p ∨
      enabled = s.cfg.live.messageEnable ∧ code = 0x60 ∧ i = .sendMessage p) →
    s.tagState = .protDand → p.length ≤ 48 → r = { s with req := requestOfPayload code p } →
    (enabled = false → exec i s = .next { r with resp := ⟨8, true, true, padBytes 48 [0xED]⟩ }) ∧
    (enabled = true → p.length ≠ 1 → exec i s = .next { r with resp := ⟨8, true, true, padBytes 48 [0xAF]⟩ }) ∧
    ∀ id, enabled = true → p = [id] →
      (registered s id = none → exec i s = .next { r with resp := ⟨8, true, true, padBytes 48 [0xAF]⟩ }) ∧
      ∀ cb, registered s id = some cb →
        exec i s = .next
          { (invoke cb r).2 with resp := ⟨40, true, true, padBytes 48 (code :: beBytes (invoke cb r).1 4)⟩ }

/-- R271, R273, R274: an invocation can change only the mailbox and the collaborators' state. Mailbox, devices, written
bytes and result are those that the platform's callback gives for `(mailbox, env)`, the last write to an address
counting; plain memory elsewhere is kept (logs 7, 26). The two built-ins change nothing and answer the mailbox's
address and its size in bytes (the spec's choice of results, R273; log 7), and the test configuration's `add` writes
one mailbox word (95_test_vectors.md). -/
def Obligations.InvocationTouchesMailboxAndEnvOnly : Prop :=
  ∀ (s : State) (cb : Callback),
    (invoke cb s).2 = { s with mailbox := (invoke cb s).2.mailbox, env := (invoke cb s).2.env } ∧
    (Memory.wf s.env.mem → Memory.wf (invoke cb s).2.env.mem) ∧
    invoke .mailboxAddr s = (s.cfg.mailboxBase, s) ∧ invoke .mailboxSize s = (256, s) ∧
    (∀ (k : Nat) (r : CallbackEffect), r = Config.platformCallback k s.mailbox s.env →
      ∃ t, invoke (.platform k) s = (r.result.toNat, t) ∧ t.mailbox = r.mailbox ∧ t.env.dev = r.dev ∧
        ∀ a, plainByte t.env.mem a =
          ((r.writes.reverse.find? fun w => w.1.toNat == a).map Prod.snd).getD (plainByte s.env.mem a)) ∧
    ∃ mb : Mailbox, invoke .testAdd s = (0, { s with mailbox := mb }) ∧ mb[2] = s.mailbox[0] + s.mailbox[1] ∧
      ∀ (k : Nat) (hk : k < 64), k ≠ 2 → mb[k] = s.mailbox[k]

/-- R240: loopback in `ProtDand` echoes its payload; a payload whose echo does not fit is answered 0xAF. -/
def Obligations.LoopbackEchoesItsPayload : Prop :=
  ∀ (s r : State) (p : List Byte), s.tagState = .protDand → p.length ≤ 48 →
    r = { s with req := requestOfPayload 0xFF p } →
    (p.length ≤ 47 →
      exec (.loopback p) s = .next
        { r with resp := ⟨8 * (1 + p.length), true, true, padBytes 48 (0xFF :: p)⟩ }) ∧
    (47 < p.length → exec (.loopback p) s = .next { r with resp := ⟨8, true, true, padBytes 48 [0xAF]⟩ })

/-- R245: whatever a Dandelion command answers, it answers, with a checksum and at most 384 bits, `tag_state` and
`cascade_level` are kept, and where its status is an error code (and the acknowledge codes of the configuration are not
error codes) neither the mailbox nor the collaborators changed. -/
def Obligations.DandelionInvariants : Prop :=
  ∀ (s t : State) (p : List Byte) (i : Instr),
    i ∈ [Instr.dandCmd p, .readWord p, .readHalfword p, .readByte p, .writeWord p, .writeHalfword p, .writeByte p,
      .call p, .sendMessage p, .loopback p] →
    exec i s = .next t →
    t.resp.sendReply = true ∧ t.resp.appendChecksum = true ∧ t.resp.bitLength ≤ 384 ∧ 8 ≤ t.resp.bitLength ∧
      t.tagState = s.tagState ∧ t.cascadeLevel = s.cascadeLevel ∧ t.registry = s.registry ∧ t.cfg = s.cfg ∧
      ((∀ c ∈ [s.cfg.ackReadWord, s.cfg.ackReadHalfword, s.cfg.ackReadByte, s.cfg.ackWriteWord,
          s.cfg.ackWriteHalfword, s.cfg.ackWriteByte], c ∉ errorCodes) →
        t.resp.payload[0] ∈ errorCodes → t.mailbox = s.mailbox ∧ t.env = s.env)

/-- R80, R62, R63: in the mailbox window and in plain memory, a word, halfword or byte that a write command stored is what a
following read command of the same width answers, byte for byte (plain memory: logs 4, 6). -/
def Obligations.WriteThenReadReturnsData : Prop :=
  ∀ (s t u : State) (addr data : List Byte) (a : Nat) (w : Width) (wr rd : Instr),
    (w = .word ∧ wr = .writeWord (addr ++ data) ∧ rd = .readWord addr ∨
      w = .halfword ∧ wr = .writeHalfword (addr ++ data) ∧ rd = .readHalfword addr ∨
      w = .byte ∧ wr = .writeByte (addr ++ data) ∧ rd = .readByte addr) →
    configWf s.cfg = true → s.tagState = .protDand → addr.length = 4 → data.length = widthBytes w → a = beNat addr →
    check s.cfg a w .write = .allowed → check s.cfg a w .read = .allowed →
    inWindow s.cfg a = true ∨ backingOf s.cfg a ≠ .device →
    exec wr s = .next t → exec rd t = .next u →
    u.resp.bitLength = 8 * (1 + widthBytes w) ∧ (u.resp.payload.toList.drop 1).take (widthBytes w) = data

/-- R68: the same read twice, against the mailbox window or plain memory (log 6), gives byte-identical responses. -/
def Obligations.ReadTwiceIsIdentical : Prop :=
  ∀ (s t u : State) (addr : List Byte) (a : Nat) (w : Width) (rd : Instr),
    (w = .word ∧ rd = .readWord addr ∨ w = .halfword ∧ rd = .readHalfword addr ∨ w = .byte ∧ rd = .readByte addr) →
    addr.length = 4 → a = beNat addr → inWindow s.cfg a = true ∨ backingOf s.cfg a ≠ .device →
    exec rd s = .next t → exec rd t = .next u → u.resp = t.resp ∧ u.env = s.env ∧ u.mailbox = s.mailbox

/-! ## Replies -/

/-- R122, R123, R286: the reply primitives: whole bytes, bits, status, nothing. -/
def Obligations.ReplyPrimitives : Prop :=
  ∀ (s : State) (bs : List Byte) (bits : List Bool) (crc : Bool) (c : Byte),
    (1 ≤ bs.length → bs.length ≤ 48 →
      ∃ r, replyBytes bs crc s = { s with resp := r } ∧ r.bitLength = 8 * bs.length ∧ r.sendReply = true ∧
        r.appendChecksum = crc ∧ r.payload.toList = bs ++ List.replicate (48 - bs.length) 0) ∧
    (1 ≤ bits.length → bits.length ≤ 40 →
      ∃ r, replyBits bits s = { s with resp := r } ∧ r.bitLength = bits.length ∧ r.sendReply = true ∧
        r.appendChecksum = false ∧
        ∀ k, k < 384 → (bitsOfBytes r.payload.toList)[k]? = some (bits.getD k false)) ∧
    (∃ r, replyStatus c s = { s with resp := r } ∧ isStatusReply c r) ∧
    replyBytes [] crc s = { s with resp := freshResponse }
end

