-- ==== Sys2Proof/Laws/Bytes.lean ====
section
/-! SUPPORT. Bits, bytes, byte orders, padded buffers and the bytes of a word. -/

namespace Sys2Proof

/-! ### Bits and bytes -/

@[simp] theorem bitsOfByte_length (b : Byte) : (bitsOfByte b).length = 8 := rfl

theorem bitsOfByte_byteOfBits : ∀ b0 b1 b2 b3 b4 b5 b6 b7 : Bool,
    bitsOfByte (byteOfBits [b0, b1, b2, b3, b4, b5, b6, b7]) = [b0, b1, b2, b3, b4, b5, b6, b7] := by
  decide

@[simp] theorem byteOfBits_bitsOfByte : ∀ b : Byte, byteOfBits (bitsOfByte b) = b := by
  decide

@[simp] theorem bitsOfBytes_nil : bitsOfBytes [] = [] := rfl

@[simp] theorem bitsOfBytes_cons (b : Byte) (bs : List Byte) :
    bitsOfBytes (b :: bs) = bitsOfByte b ++ bitsOfBytes bs := rfl

@[simp] theorem bitsOfBytes_append (as bs : List Byte) :
    bitsOfBytes (as ++ bs) = bitsOfBytes as ++ bitsOfBytes bs := by
  simp [bitsOfBytes]

@[simp] theorem bitsOfBytes_length (bs : List Byte) : (bitsOfBytes bs).length = 8 * bs.length := by
  induction bs with
  | nil => rfl
  | cons b bs ih => simp [ih]; omega

/-- Bit `8*j + i` of a byte sequence is bit `i` of byte `j` (42_anticollision.md R202). -/
theorem bitsOfBytes_getElem? (bs : List Byte) (j i : Nat) (hi : i < 8) :
    (bitsOfBytes bs)[8 * j + i]? = (bs[j]?).map fun b => b.getLsbD i := by
  induction bs generalizing j with
  | nil => simp
  | cons b bs ih =>
    cases j with
    | zero =>
      rw [bitsOfBytes_cons, List.getElem?_append_left (by simpa using hi)]
      interval_cases i <;> simp [bitsOfByte]
    | succ j =>
      rw [bitsOfBytes_cons, List.getElem?_append_right (by simp; omega), bitsOfByte_length,
        show 8 * (j + 1) + i - 8 = 8 * j + i by omega, ih]
      simp

@[simp] theorem crcBytes_length (bs : List Byte) : (crcBytes bs).length = 2 := rfl

/-! ### Padded buffers -/

theorem padBytes_toList (n : Nat) (bs : List Byte) :
    (padBytes n bs).toList = (bs ++ List.replicate n 0).take n := rfl

theorem padBytes_toList_of_le (n : Nat) (bs : List Byte) (h : bs.length ≤ n) :
    (padBytes n bs).toList = bs ++ List.replicate (n - bs.length) 0 := by
  rw [padBytes_toList, List.take_append, List.take_of_length_le h, List.take_replicate]
  simp

theorem padBytes_take (n : Nat) (bs : List Byte) (h : bs.length ≤ n) :
    (padBytes n bs).toList.take bs.length = bs := by
  rw [padBytes_toList_of_le n bs h]; simp

end Sys2Proof

namespace Sys2Proof.Machine

/-! ### Byte orders -/

@[simp] theorem leBytes_length (v n : Nat) : (leBytes v n).length = n := by
  induction n generalizing v with
  | zero => rfl
  | succ n ih => simp [leBytes, ih]

@[simp] theorem beBytes_length (v n : Nat) : (beBytes v n).length = n := by simp [beBytes]

theorem leNat_leBytes (v n : Nat) : leNat (leBytes v n) = v % 256 ^ n := by
  induction n generalizing v with
  | zero => simp [leBytes, leNat, Nat.mod_one]
  | succ n ih =>
    simp only [leBytes, leNat, ih, BitVec.toNat_ofNat]
    have h : v % 256 ^ (n + 1) = v % 256 + 256 * (v / 256 % 256 ^ n) := by
      rw [Nat.pow_succ', Nat.mod_mul]
    rw [h]

theorem leNat_lt (bs : List Byte) : leNat bs < 256 ^ bs.length := by
  induction bs with
  | nil => simp [leNat]
  | cons b bs ih =>
    have hb := b.isLt
    simp only [leNat, List.length_cons, pow_succ]
    omega

theorem leBytes_leNat (bs : List Byte) : leBytes (leNat bs) bs.length = bs := by
  induction bs with
  | nil => rfl
  | cons b bs ih =>
    have hb := b.isLt
    have h1 : (b.toNat + 256 * leNat bs) / 256 = leNat bs := by omega
    have h2 : BitVec.ofNat 8 (b.toNat + 256 * leNat bs) = b := by
      apply BitVec.eq_of_toNat_eq
      simp only [BitVec.toNat_ofNat]
      omega
    simp only [leNat, List.length_cons, leBytes, h1, h2, ih]

theorem leBytes_getElem? (v n k : Nat) :
    (leBytes v n)[k]? = if k < n then some (BitVec.ofNat 8 (v / 256 ^ k)) else none := by
  induction n generalizing v k with
  | zero => simp [leBytes]
  | succ n ih =>
    cases k with
    | zero => simp [leBytes]
    | succ k =>
      simp only [leBytes, List.getElem?_cons_succ, ih, Nat.div_div_eq_div_mul]
      rw [pow_succ, Nat.mul_comm 256]
      simp

theorem beNat_beBytes (v n : Nat) : beNat (beBytes v n) = v % 256 ^ n := by
  simp [beNat, beBytes, leNat_leBytes]

theorem beNat_lt (bs : List Byte) : beNat bs < 256 ^ bs.length := by
  simpa [beNat] using leNat_lt bs.reverse

theorem beBytes_beNat (bs : List Byte) : beBytes (beNat bs) bs.length = bs := by
  have h := leBytes_leNat bs.reverse
  simp only [List.length_reverse] at h
  simp [beBytes, beNat, h]

theorem beBytes_getElem? (v n k : Nat) :
    (beBytes v n)[k]? = if k < n then some (BitVec.ofNat 8 (v / 256 ^ (n - 1 - k))) else none := by
  unfold beBytes
  by_cases h : k < n
  · rw [List.getElem?_reverse (by simpa using h), leBytes_length, leBytes_getElem?]
    simp [h, show n - 1 - k < n by omega]
  · simp [h]

theorem beNat_four (a3 a2 a1 a0 : Byte) :
    beNat [a3, a2, a1, a0] = a3.toNat * 2 ^ 24 + a2.toNat * 2 ^ 16 + a1.toNat * 2 ^ 8 + a0.toNat := by
  simp only [beNat, List.reverse_cons, List.reverse_nil, List.nil_append, List.cons_append, leNat]
  omega

/-! ### The bytes of a word and of the mailbox (20_memory.md R63) -/

theorem setWordByte_getLsbD (w : Word) (b : Nat) (v : Byte) (i : Nat) (hb : b < 4) :
    (setWordByte w b v).getLsbD i =
      if 8 * b ≤ i ∧ i < 8 * b + 8 then v.getLsbD (i - 8 * b) else w.getLsbD i := by
  by_cases hi : i < 32
  · have h255 : ∀ k, k < 32 → (255#32).getLsbD k = decide (k < 8) := by decide
    simp only [setWordByte, BitVec.getLsbD_or, BitVec.getLsbD_and, BitVec.getLsbD_not, BitVec.getLsbD_shiftLeft,
      BitVec.getLsbD_setWidth, hi, decide_true, Bool.true_and]
    by_cases h1 : i < 8 * b
    · simp [h1, show ¬ 8 * b ≤ i by omega]
    · have h3 := h255 (i - 8 * b) (by omega)
      by_cases h2 : i < 8 * b + 8
      · simp [h1, h2, h3, show 8 * b ≤ i by omega, show i - 8 * b < 8 by omega, show i - 8 * b < 32 by omega]
      · rw [BitVec.getLsbD_of_ge v (i - 8 * b) (by omega)]
        simp [h1, h2, h3, show ¬ i - 8 * b < 8 by omega]
  · have h1 : ¬(8 * b ≤ i ∧ i < 8 * b + 8) := by omega
    rw [if_neg h1, BitVec.getLsbD_of_ge _ _ (by omega), BitVec.getLsbD_of_ge _ _ (by omega)]

theorem wordByte_setWordByte (w : Word) (b c : Nat) (v : Byte) (hb : b < 4) :
    wordByte (setWordByte w b v) c = if c = b then v else wordByte w c := by
  apply BitVec.eq_of_getLsbD_eq
  intro i hi
  simp only [wordByte, BitVec.getLsbD_extractLsb', hi, decide_true, Bool.true_and, setWordByte_getLsbD _ _ _ _ hb]
  by_cases h : c = b
  · subst h
    simp [show 8 * c + i < 8 * c + 8 by omega]
  · rw [if_neg (by omega), if_neg h]
    simp [hi]

theorem mailboxByte_setMailboxByte (mb : Mailbox) (o p : Nat) (v : Byte) (ho : o < 256) :
    mailboxByte (setMailboxByte mb o v) p = if p = o then v else mailboxByte mb p := by
  have ho4 : o / 4 < 64 := by omega
  unfold mailboxByte setMailboxByte
  by_cases hd : p / 4 = o / 4
  · rw [hd, Vector.getElem?_setIfInBounds_self_of_lt ho4]
    simp only [Option.getD_some]
    rw [wordByte_setWordByte _ _ _ _ (Nat.mod_lt _ (by omega))]
    by_cases h : p = o
    · simp [h]
    · rw [if_neg (by omega), if_neg h]
  · rw [Vector.getElem?_setIfInBounds_ne (by omega), if_neg (by intro h; exact hd (by rw [h]))]

theorem mailboxByte_setMailboxBytes (mb : Mailbox) (o p : Nat) (vs : List Byte) (h : o + vs.length ≤ 256) :
    mailboxByte (setMailboxBytes mb o vs) p =
      if o ≤ p ∧ p < o + vs.length then vs.getD (p - o) 0 else mailboxByte mb p := by
  induction vs generalizing mb o with
  | nil => simp [setMailboxBytes, show ¬(o ≤ p ∧ p < o) by omega]
  | cons v vs ih =>
    simp only [List.length_cons] at h ⊢
    rw [setMailboxBytes, ih _ _ (by omega), mailboxByte_setMailboxByte _ _ _ _ (by omega)]
    by_cases hp : p = o
    · subst hp; simp
    · by_cases h1 : o + 1 ≤ p ∧ p < o + 1 + vs.length
      · rw [if_pos h1, if_pos (by omega), show p - o = p - (o + 1) + 1 by omega, List.getD_cons_succ]
      · rw [if_neg h1, if_neg hp, if_neg (by omega)]

end Sys2Proof.Machine
end

