-- ==== Sys2Proof/Laws/Codec.lean ====
section
/-! SUPPORT. Raw frames as groups of a byte and a parity bit: what the classifier reads from them, what the encoder writes,
and the length of an encoding. -/

namespace Sys2Proof

/-- Raw bits of groups (byte, parity bit) in order (30_encoding.md R92). -/
def rawOfGroups (gs : List (Byte × Bool)) : List Bool := gs.flatMap fun g => bitsOfByte g.1 ++ [g.2]

@[simp] theorem rawOfGroups_nil : rawOfGroups [] = [] := rfl

@[simp] theorem rawOfGroups_cons (g : Byte × Bool) (gs : List (Byte × Bool)) :
    rawOfGroups (g :: gs) = bitsOfByte g.1 ++ g.2 :: rawOfGroups gs := by
  simp [rawOfGroups]

@[simp] theorem rawOfGroups_length (gs : List (Byte × Bool)) : (rawOfGroups gs).length = 9 * gs.length := by
  induction gs with
  | nil => rfl
  | cons g gs ih => simp [ih]; omega

/-- The eight bits of a byte, spelled out. -/
theorem byteOfBits_getLsbD (b : Byte) :
    byteOfBits [b.getLsbD 0, b.getLsbD 1, b.getLsbD 2, b.getLsbD 3, b.getLsbD 4, b.getLsbD 5, b.getLsbD 6,
      b.getLsbD 7] = b :=
  byteOfBits_bitsOfByte b

theorem rawGroups_short (tail : List Bool) (h : tail.length ≤ 8) : rawGroups tail = [] := by
  unfold rawGroups
  split
  · simp at h; omega
  · rfl

theorem dropParity_short (tail : List Bool) (h : tail.length ≤ 8) : dropParity tail = tail := by
  unfold dropParity
  split
  · simp at h; omega
  · rfl

theorem addParity_short (tail : List Bool) (h : tail.length ≤ 7) : addParity tail = tail := by
  unfold addParity
  split
  · simp at h; omega
  · rfl

/-- The classifier's groups of a raw frame (40_frame_classifier.md R143, R146). -/
theorem rawGroups_rawOfGroups (gs : List (Byte × Bool)) (tail : List Bool) (h : tail.length ≤ 8) :
    rawGroups (rawOfGroups gs ++ tail) = gs.map fun g => (g.1, g.2 == parityBit g.1) := by
  induction gs with
  | nil => simpa using rawGroups_short tail h
  | cons g gs ih =>
    simp only [rawOfGroups_cons, bitsOfByte, List.cons_append, List.nil_append, rawGroups,
      byteOfBits_getLsbD, ih, List.map_cons]

/-- The classifier's data bits of a raw frame (40_frame_classifier.md R143). -/
theorem dropParity_rawOfGroups (gs : List (Byte × Bool)) (tail : List Bool) (h : tail.length ≤ 8) :
    dropParity (rawOfGroups gs ++ tail) = bitsOfBytes (gs.map Prod.fst) ++ tail := by
  induction gs with
  | nil => simpa using dropParity_short tail h
  | cons g gs ih =>
    simp only [rawOfGroups_cons, bitsOfByte, List.cons_append, List.nil_append, dropParity, ih,
      List.map_cons, bitsOfBytes_cons]

/-- The encoder puts the right parity bit after each whole byte and none after a fragment (30_encoding.md R92, R93). -/
theorem addParity_bitsOfBytes (bs : List Byte) (tail : List Bool) (h : tail.length ≤ 7) :
    addParity (bitsOfBytes bs ++ tail) = rawOfGroups (bs.map fun b => (b, parityBit b)) ++ tail := by
  induction bs with
  | nil => simpa using addParity_short tail h
  | cons b bs ih =>
    simp only [bitsOfBytes_cons, bitsOfByte, List.cons_append, List.nil_append, addParity,
      byteOfBits_getLsbD, ih, List.map_cons, rawOfGroups_cons]

/-- Every bit sequence is whole bytes and a fragment of at most seven bits. -/
theorem exists_bytes_tail : ∀ l : List Bool, ∃ bs tail, l = bitsOfBytes bs ++ tail ∧ tail.length ≤ 7
  | b0 :: b1 :: b2 :: b3 :: b4 :: b5 :: b6 :: b7 :: rest => by
    obtain ⟨bs, tail, h, ht⟩ := exists_bytes_tail rest
    refine ⟨byteOfBits [b0, b1, b2, b3, b4, b5, b6, b7] :: bs, tail, ?_, ht⟩
    simp [bitsOfByte_byteOfBits, h]
  | [] => ⟨[], [], rfl, by simp⟩
  | [b0] => ⟨[], [b0], rfl, by simp⟩
  | [b0, b1] => ⟨[], [b0, b1], rfl, by simp⟩
  | [b0, b1, b2] => ⟨[], [b0, b1, b2], rfl, by simp⟩
  | [b0, b1, b2, b3] => ⟨[], [b0, b1, b2, b3], rfl, by simp⟩
  | [b0, b1, b2, b3, b4] => ⟨[], [b0, b1, b2, b3, b4], rfl, by simp⟩
  | [b0, b1, b2, b3, b4, b5] => ⟨[], [b0, b1, b2, b3, b4, b5], rfl, by simp⟩
  | [b0, b1, b2, b3, b4, b5, b6] => ⟨[], [b0, b1, b2, b3, b4, b5, b6], rfl, by simp⟩

/-- Every raw frame is groups of nine bits and a fragment of at most eight. -/
theorem exists_groups_tail (n : Nat) : ∀ rx : List Bool, rx.length ≤ n →
    ∃ gs tail, rx = rawOfGroups gs ++ tail ∧ tail.length ≤ 8 := by
  induction n with
  | zero =>
    intro rx h
    exact ⟨[], rx, rfl, by omega⟩
  | succ n ih =>
    intro rx h
    by_cases h8 : rx.length ≤ 8
    · exact ⟨[], rx, rfl, h8⟩
    · match rx, h, h8 with
      | b0 :: b1 :: b2 :: b3 :: b4 :: b5 :: b6 :: b7 :: p :: rest, h, _ =>
        simp only [List.length_cons] at h
        obtain ⟨gs, tail, hr, ht⟩ := ih rest (by omega)
        refine ⟨(byteOfBits [b0, b1, b2, b3, b4, b5, b6, b7], p) :: gs, tail, ?_, ht⟩
        simp [bitsOfByte_byteOfBits, hr]
      | [], _, h8 | [_], _, h8 | [_, _], _, h8 | [_, _, _], _, h8 | [_, _, _, _], _, h8 | [_, _, _, _, _], _, h8
      | [_, _, _, _, _, _], _, h8 | [_, _, _, _, _, _, _], _, h8 | [_, _, _, _, _, _, _, _], _, h8 =>
        exact absurd (by simp) h8

/-! ### What the classifier and the encoder make of groups -/

theorem frameTypeOf_short_iff (rxMax len : Nat) : frameTypeOf rxMax len = .short ↔ len = 7 := by
  unfold frameTypeOf
  split_ifs <;> simp [*]

theorem frameTypeOf_standard_iff (rxMax len : Nat) :
    frameTypeOf rxMax len = .standard ↔ len ≤ rxMax ∧ len % 9 = 0 ∧ 1 ≤ len / 9 := by
  unfold frameTypeOf
  split_ifs <;> simp <;> omega

theorem frameTypeOf_anticollision_iff (rxMax len : Nat) :
    frameTypeOf rxMax len = .anticollision ↔
      len ≤ rxMax ∧ 1 ≤ len % 9 ∧ len % 9 ≤ 7 ∧ 2 ≤ len / 9 ∧ len / 9 ≤ 5 := by
  unfold frameTypeOf
  split_ifs <;> simp <;> omega

theorem classify_frameType (rxMax : Nat) (rx : List Bool) :
    (classify rxMax rx).frameType = frameTypeOf rxMax rx.length := by
  unfold classify
  cases h : frameTypeOf rxMax rx.length <;> rfl

/-- The classifier on a standard frame of groups. -/
theorem classify_standard (rxMax : Nat) (gs : List (Byte × Bool)) (hn : 1 ≤ gs.length) (hl : 9 * gs.length ≤ rxMax) :
    classify rxMax (rawOfGroups gs) =
      ⟨9 * gs.length, .standard, (gs.map Prod.fst).headD 0, gs.all fun g => g.2 == parityBit g.1,
        bitsOfBytes (gs.map Prod.fst), gs.map Prod.fst, requestOf (gs.map Prod.fst)⟩ := by
  have ht : frameTypeOf rxMax (rawOfGroups gs).length = .standard := by
    rw [frameTypeOf_standard_iff, rawOfGroups_length]; omega
  have hg := rawGroups_rawOfGroups gs [] (by simp)
  have hd := dropParity_rawOfGroups gs [] (by simp)
  simp only [List.append_nil] at hg hd
  unfold classify
  rw [ht]
  simp only [hg, hd, rawOfGroups_length, List.map_map, Function.comp_def, List.all_map]

/-- The classifier on an anticollision frame of groups and a fragment. -/
theorem classify_anticollision (rxMax : Nat) (gs : List (Byte × Bool)) (tail : List Bool) (h2 : 2 ≤ gs.length)
    (h5 : gs.length ≤ 5) (h1 : 1 ≤ tail.length) (h7 : tail.length ≤ 7) (hl : 9 * gs.length + tail.length ≤ rxMax) :
    classify rxMax (rawOfGroups gs ++ tail) =
      ⟨9 * gs.length + tail.length, .anticollision, (gs.map Prod.fst).headD 0,
        gs.all fun g => g.2 == parityBit g.1, bitsOfBytes (gs.map Prod.fst) ++ tail, gs.map Prod.fst, none⟩ := by
  have ht : frameTypeOf rxMax (rawOfGroups gs ++ tail).length = .anticollision := by
    rw [frameTypeOf_anticollision_iff, List.length_append, rawOfGroups_length]; omega
  have hg := rawGroups_rawOfGroups gs tail (by omega)
  have hd := dropParity_rawOfGroups gs tail (by omega)
  unfold classify
  rw [ht]
  simp only [hg, hd, List.length_append, rawOfGroups_length, List.map_map, Function.comp_def, List.all_map]

/-- A frame the encoder wrote, as groups. -/
theorem encodeBytes_eq (bs : List Byte) : encodeBytes bs = rawOfGroups (bs.map fun b => (b, parityBit b)) := by
  have h := addParity_bitsOfBytes bs [] (by simp)
  simpa [encodeBytes] using h

theorem crcOk_append_crcBytes (bs : List Byte) (h : 1 ≤ bs.length) : crcOk (bs ++ crcBytes bs) = true := by
  simp [crcOk, h]

/-- A frame whose checksum is right ends in the checksum of the rest. -/
theorem eq_append_crcBytes_of_crcOk (bytes : List Byte) (h : crcOk bytes = true) :
    3 ≤ bytes.length ∧ bytes = bytes.take (bytes.length - 2) ++ crcBytes (bytes.take (bytes.length - 2)) := by
  simp only [crcOk, Bool.and_eq_true, decide_eq_true_eq, beq_iff_eq] at h
  refine ⟨h.1, ?_⟩
  conv_lhs => rw [← List.take_append_drop (bytes.length - 2) bytes, h.2]

/-! ### The length of an encoding -/

theorem addParity_length (l : List Bool) : (addParity l).length = l.length + l.length / 8 := by
  obtain ⟨bs, tail, rfl, ht⟩ := exists_bytes_tail l
  rw [addParity_bitsOfBytes bs tail ht]
  simp only [List.length_append, rawOfGroups_length, List.length_map, bitsOfBytes_length]
  omega

theorem encodeBytes_length (bs : List Byte) : (encodeBytes bs).length = 9 * bs.length := by
  rw [encodeBytes_eq]; simp

theorem encodeStandard_length (bs : List Byte) : (encodeStandard bs).length = 9 * (bs.length + 2) := by
  rw [encodeStandard, encodeBytes_length]; simp

theorem encodeAc_length (sel nvb : Byte) (u : List Bool) : (encodeAc sel nvb u).length = rawAc u.length := by
  rw [encodeAc, addParity_length]
  simp only [List.length_append, bitsOfBytes_length, List.length_cons, List.length_nil, rawAc]
  omega

end Sys2Proof
end

