-- ==== Sys2Proof/Laws/Memory.lean ====
section
/-! SUPPORT. Plain memory keeps its canonical form and reads back what was written; what a well-formed configuration says;
what one access can do. -/

namespace Sys2Proof.Machine

/-! ### Plain memory -/

theorem memLookup_memInsert (m : Memory) (a b : Nat) (v : Byte) :
    memLookup (memInsert m a v) b = if b = a then some v else memLookup m b := by
  induction m with
  | nil => simp [memInsert, memLookup]
  | cons c m ih =>
    obtain ⟨k, w⟩ := c
    unfold memInsert
    split
    · by_cases h : b = a <;> simp [memLookup, h]
    · split
      · rename_i h1 h2
        subst h2
        by_cases h : b = a <;> simp [memLookup, h]
      · simp only [memLookup, ih]
        by_cases hk : b = k
        · subst hk; simp; omega
        · simp [hk]

theorem memInsert_mem (m : Memory) (a : Nat) (v : Byte) (c : Nat × Byte) (h : c ∈ memInsert m a v) :
    c = (a, v) ∨ c ∈ m := by
  induction m with
  | nil => simpa [memInsert] using h
  | cons d m ih =>
    obtain ⟨k, w⟩ := d
    unfold memInsert at h
    split at h
    · simpa using h
    · split at h
      · simp only [List.mem_cons] at h ⊢
        tauto
      · simp only [List.mem_cons] at h ⊢
        tauto

/-- Writing a byte keeps the canonical form. -/
theorem memInsert_wf (m : Memory) (a : Nat) (v : Byte) (hm : Memory.wf m) (ha : a < 2 ^ 32) :
    Memory.wf (memInsert m a v) := by
  obtain ⟨hp, hb⟩ := hm
  refine ⟨?_, fun c hc => ?_⟩
  · clear hb
    induction m with
    | nil => simp [memInsert]
    | cons d m ih =>
      obtain ⟨k, w⟩ := d
      rw [List.pairwise_cons] at hp
      obtain ⟨h1, h2⟩ := hp
      unfold memInsert
      split
      · rename_i h
        refine List.pairwise_cons.2 ⟨fun c hc => ?_, List.pairwise_cons.2 ⟨h1, h2⟩⟩
        rcases List.mem_cons.1 hc with rfl | hc
        · exact h
        · exact lt_trans h (h1 c hc)
      · split
        · rename_i _ h
          subst h
          exact List.pairwise_cons.2 ⟨h1, h2⟩
        · refine List.pairwise_cons.2 ⟨fun c hc => ?_, ih h2⟩
          rcases memInsert_mem m a v c hc with rfl | hc
          · simp only
            omega
          · exact h1 c hc
  · rcases memInsert_mem m a v c hc with rfl | hc
    · exact ha
    · exact hb c hc

theorem memInsertMany_wf (m : Memory) (a : Nat) (vs : List Byte) (hm : Memory.wf m) :
    Memory.wf (memInsertMany m a vs) := by
  induction vs generalizing m a with
  | nil => exact hm
  | cons v vs ih =>
    unfold memInsertMany
    apply ih
    split
    · exact memInsert_wf m a v hm ‹_›
    · exact hm

theorem applyWrites_wf (m : Memory) (ws : List (Word × Byte)) (hm : Memory.wf m) : Memory.wf (applyWrites m ws) := by
  induction ws generalizing m with
  | nil => exact hm
  | cons c ws ih => exact ih _ (memInsert_wf m _ _ hm c.1.isLt)

theorem plainByte_memInsert (m : Memory) (a b : Nat) (v : Byte) :
    plainByte (memInsert m a v) b = if b = a then v else plainByte m b := by
  unfold plainByte
  rw [memLookup_memInsert]
  split <;> rfl

/-- A callback's writes: an address reads as the last write to it, any other as before. -/
theorem plainByte_applyWrites (m : Memory) (ws : List (Word × Byte)) (a : Nat) :
    plainByte (applyWrites m ws) a =
      ((ws.reverse.find? fun w => w.1.toNat == a).map Prod.snd).getD (plainByte m a) := by
  induction ws generalizing m with
  | nil => rfl
  | cons c ws ih =>
    rw [applyWrites, ih, List.reverse_cons, List.find?_append, plainByte_memInsert]
    cases ws.reverse.find? fun w => w.1.toNat == a with
    | some w => rfl
    | none =>
      by_cases h : c.1.toNat = a
      · simp [h]
      · simp [h, Ne.symm h]

theorem plainByte_memInsertMany (m : Memory) (a b : Nat) (vs : List Byte) (h : a + vs.length ≤ 2 ^ 32) :
    plainByte (memInsertMany m a vs) b =
      if a ≤ b ∧ b < a + vs.length then vs.getD (b - a) 0 else plainByte m b := by
  induction vs generalizing m a with
  | nil => simp [memInsertMany, show ¬(a ≤ b ∧ b < a) by omega]
  | cons v vs ih =>
    simp only [List.length_cons] at h ⊢
    rw [memInsertMany, if_pos (by omega), ih _ _ (by omega), plainByte_memInsert]
    by_cases hb : b = a
    · subst hb; simp
    · by_cases h1 : a + 1 ≤ b ∧ b < a + 1 + vs.length
      · rw [if_pos h1, if_pos (by omega), show b - a = b - (a + 1) + 1 by omega, List.getD_cons_succ]
      · rw [if_neg h1, if_neg hb, if_neg (by omega)]

/-! ### The configuration -/

theorem mem_owners (r : Owner) : r ∈ owners := by cases r <;> decide

/-- What a well-formed configuration says of a region (10_state.md R37). -/
theorem configWf_region (c : Cfg) (h : configWf c = true) (r : Owner) :
    (ofOwner c.region r).start < (ofOwner c.region r).stop ∧ (ofOwner c.region r).stop ≤ 2 ^ 32 ∧
      (ofOwner c.region r).start % 4 = 0 ∧ (ofOwner c.region r).stop % 4 = 0 := by
  simp only [configWf, Bool.and_eq_true, List.all_eq_true] at h
  have := h.1.1.1.1.1 r (mem_owners r)
  simp only [regionBoundsWf, Bool.and_eq_true, decide_eq_true_eq, beq_iff_eq] at this
  omega

theorem regionsApart_of_pairwise (c : Cfg) (l : List Owner)
    (hp : l.Pairwise fun r t => regionsApart (ofOwner c.region r) (ofOwner c.region t) = true) (x y : Owner)
    (hx : x ∈ l) (hy : y ∈ l) (hne : x ≠ y) : regionsApart (ofOwner c.region x) (ofOwner c.region y) = true := by
  induction l with
  | nil => simp at hx
  | cons z l ih =>
    obtain ⟨h1, h2⟩ := List.pairwise_cons.1 hp
    rcases List.mem_cons.1 hx with hx | hx <;> rcases List.mem_cons.1 hy with hy | hy
    · exact absurd (hx.trans hy.symm) hne
    · exact hx ▸ h1 y hy
    · have := h1 x hx
      rw [← hy] at this
      simpa [regionsApart, Bool.or_comm] using this
    · exact ih h2 hx hy

/-- Two regions of a well-formed configuration share no address (10_state.md R37). -/
theorem configWf_regions_disjoint (c : Cfg) (h : configWf c = true) (r t : Owner) (hrt : r ≠ t) (a : Nat)
    (hr : inRegion c a r = true) (ht : inRegion c a t = true) : False := by
  simp only [configWf, Bool.and_eq_true, decide_eq_true_eq] at h
  have hp := h.1.1.1.1.2
  have hap := regionsApart_of_pairwise c owners hp r t (mem_owners r) (mem_owners t) hrt
  simp only [regionsApart, Bool.or_eq_true, decide_eq_true_eq] at hap
  simp only [inRegion, Bool.and_eq_true, decide_eq_true_eq] at hr ht
  omega

/-- What a well-formed configuration says of the NVM range (10_state.md R39). -/
theorem configWf_nvm (c : Cfg) (h : configWf c = true) :
    c.nvmStart < c.nvmStop ∧ c.nvmStop ≤ 2 ^ 32 ∧ 0 < c.nvmPageSize ∧ c.nvmStart % 4 = 0 ∧ c.nvmStop % 4 = 0 ∧
      c.nvmPageSize % 4 = 0 ∧ (c.nvmStop - c.nvmStart) % c.nvmPageSize = 0 ∧
      c.live.pageAccess.length = (c.nvmStop - c.nvmStart) / c.nvmPageSize := by
  simp only [configWf, Bool.and_eq_true] at h
  have := h.1.1.1.2
  simp only [nvmWf, Bool.and_eq_true, decide_eq_true_eq, beq_iff_eq] at this
  tauto

/-- What a well-formed configuration says of the mailbox window (20_memory.md R74). -/
theorem configWf_window (c : Cfg) (h : configWf c = true) :
    c.mailboxBase % 4 = 0 ∧ c.mailboxBase + 256 ≤ 2 ^ 32 ∧
      (c.mailboxBase + 256 ≤ c.nvmStart ∨ c.nvmStop ≤ c.mailboxBase) := by
  simp only [configWf, Bool.and_eq_true] at h
  have := h.1.1.2
  simp only [windowWf, mailboxBytes, Bool.and_eq_true, Bool.or_eq_true, decide_eq_true_eq, beq_iff_eq] at this
  tauto

/-- The reply strings of a well-formed configuration fit the response buffer (00_scope.md R6). -/
theorem configWf_replies (c : Cfg) (h : configWf c = true) :
    c.ratsReply.length ≤ 48 ∧ c.deselectReply.length ≤ 48 := by
  simp only [configWf, Bool.and_eq_true, decide_eq_true_eq, bufCap] at h
  exact ⟨h.1.2, h.2⟩

theorem inWindow_iff (c : Cfg) (a : Nat) :
    inWindow c a = true ↔ c.mailboxBase ≤ a ∧ a < c.mailboxBase + 256 := by
  simp [inWindow, mailboxBytes]

theorem inNvm_iff (c : Cfg) (a : Nat) : inNvm c a = true ↔ c.nvmStart ≤ a ∧ a < c.nvmStop := by
  simp [inNvm]

theorem inRegion_iff (c : Cfg) (a : Nat) (r : Owner) :
    inRegion c a r = true ↔ (ofOwner c.region r).start ≤ a ∧ a < (ofOwner c.region r).stop := by
  simp [inRegion]

/-- Where the regions do not overlap, the region found is the one the address lies in (20_memory.md R71). -/
theorem regionOf_eq_some (c : Cfg) (h : configWf c = true) (a : Nat) (r : Owner) (hr : inRegion c a r = true) :
    regionOf c a = some r := by
  cases hf : regionOf c a with
  | none =>
    have := List.find?_eq_none.1 hf r (mem_owners r)
    exact absurd hr this
  | some t =>
    have ht := List.find?_some hf
    by_contra hne
    exact configWf_regions_disjoint c h t r (fun e => hne (by rw [e])) a ht hr

/-- No region is found exactly when the address lies in none (20_memory.md R71). -/
theorem regionOf_eq_none_iff (c : Cfg) (a : Nat) : regionOf c a = none ↔ ∀ r, inRegion c a r = false := by
  constructor
  · intro h r
    have := List.find?_eq_none.1 h r (mem_owners r)
    simpa using this
  · intro h
    exact List.find?_eq_none.2 fun r _ => by simp [h r]

theorem widthBytes_pos (w : Width) : 0 < widthBytes w := by cases w <;> decide

theorem widthBytes_le (w : Width) : widthBytes w ≤ 4 := by cases w <;> decide

theorem widthBytes_dvd (w : Width) : widthBytes w ∣ 4 := by cases w <;> decide

/-- An aligned access stays on one side of a multiple of 4 (20_memory.md R77). -/
theorem aligned_below (a k b : Nat) (w : Width) (hb : b % 4 = 0) (ha : a % widthBytes w = 0) (hk : k < widthBytes w)
    (h : a < b) : a + k < b := by
  cases w <;> simp only [widthBytes] at ha hk <;> omega

/-- An aligned access does not cross the edge of the mailbox window (20_memory.md R77). -/
theorem inWindow_aligned (c : Cfg) (hc : configWf c = true) (a k : Nat) (w : Width) (ha : a % widthBytes w = 0)
    (hk : k < widthBytes w) : inWindow c (a + k) = inWindow c a := by
  obtain ⟨h1, -, -⟩ := configWf_window c hc
  have h2 := aligned_below a k c.mailboxBase w h1 ha hk
  have h3 := aligned_below a k (c.mailboxBase + 256) w (by omega) ha hk
  apply Bool.eq_iff_iff.2
  rw [inWindow_iff, inWindow_iff]
  omega

/-! ### One access (20_memory.md R72, R73) -/

@[simp] theorem bytesAt_length (s : State) (a n : Nat) : (bytesAt s a n).length = n := by
  induction n generalizing a with
  | zero => rfl
  | succ n ih => simp [bytesAt, ih]

theorem bytesAt_getElem? (s : State) (a n k : Nat) (h : k < n) : (bytesAt s a n)[k]? = some (byteAt s (a + k)) := by
  induction n generalizing a k with
  | zero => omega
  | succ n ih =>
    cases k with
    | zero => simp [bytesAt]
    | succ k =>
      rw [bytesAt, List.getElem?_cons_succ, ih _ _ (by omega), show a + 1 + k = a + (k + 1) by omega]

/-- Everything a read can do: in the mailbox window and in plain memory the value of the bytes there, and no change; on a
device, the device's answer, and a change of the devices' state alone. -/
theorem memRead_cases (s : State) (a : Nat) (w : Width) :
    (memRead s a w = (leNat (bytesAt s a (widthBytes w)), s) ∧
        (inWindow s.cfg a = true ∨ backingOf s.cfg a = .plainLittle)) ∨
      (memRead s a w = (beNat (bytesAt s a (widthBytes w)), s) ∧ inWindow s.cfg a = false ∧
        backingOf s.cfg a = .plainBig) ∨
      (memRead s a w =
          ((Config.deviceRead s.env.dev a (widthBytes w)).1 % 2 ^ (8 * widthBytes w),
            { s with env := { s.env with dev := (Config.deviceRead s.env.dev a (widthBytes w)).2 } }) ∧
        inWindow s.cfg a = false ∧ backingOf s.cfg a = .device) := by
  unfold memRead
  cases hw : inWindow s.cfg a with
  | true => simp
  | false =>
    cases hb : backingOf s.cfg a with
    | plainLittle => simp
    | plainBig => simp
    | device => simp

/-- Everything a write can do: the mailbox's bytes in the window, plain memory's bytes, or the devices' state. -/
theorem memWrite_cases (s : State) (a v : Nat) (w : Width) :
    (inWindow s.cfg a = true ∧
        memWrite s a w v =
          { s with mailbox := setMailboxBytes s.mailbox (a - s.cfg.mailboxBase) (leBytes v (widthBytes w)) }) ∨
      (inWindow s.cfg a = false ∧ backingOf s.cfg a = .plainLittle ∧
        memWrite s a w v =
          { s with env := { s.env with mem := memInsertMany s.env.mem a (leBytes v (widthBytes w)) } }) ∨
      (inWindow s.cfg a = false ∧ backingOf s.cfg a = .plainBig ∧
        memWrite s a w v =
          { s with env := { s.env with mem := memInsertMany s.env.mem a (beBytes v (widthBytes w)) } }) ∨
      (inWindow s.cfg a = false ∧ backingOf s.cfg a = .device ∧
        memWrite s a w v =
          { s with env := { s.env with dev := Config.deviceWrite s.env.dev a (widthBytes w) v } }) := by
  unfold memWrite
  cases hw : inWindow s.cfg a with
  | true => simp
  | false => cases hb : backingOf s.cfg a <;> simp

/-- A read changes nothing but `env`. -/
theorem memRead_frame (s : State) (a : Nat) (w : Width) :
    (memRead s a w).2 = { s with env := (memRead s a w).2.env } ∧ (memRead s a w).2.env.mem = s.env.mem := by
  rcases memRead_cases s a w with ⟨h, -⟩ | ⟨h, -⟩ | ⟨h, -⟩ <;> rw [h] <;> simp

/-- A write changes nothing but the mailbox and `env`, and keeps plain memory canonical. -/
theorem memWrite_frame (s : State) (a v : Nat) (w : Width) :
    memWrite s a w v = { s with mailbox := (memWrite s a w v).mailbox, env := (memWrite s a w v).env } ∧
      (Memory.wf s.env.mem → Memory.wf (memWrite s a w v).env.mem) := by
  rcases memWrite_cases s a v w with ⟨-, h⟩ | ⟨-, -, h⟩ | ⟨-, -, h⟩ | ⟨-, -, h⟩ <;> rw [h] <;>
    simp only [true_and] <;> intro hm
  · exact hm
  · exact memInsertMany_wf _ _ _ hm
  · exact memInsertMany_wf _ _ _ hm
  · exact hm

end Sys2Proof.Machine
end

