-- ==== Sys2Proof/Laws/State.lean ====
section
/-! SUPPORT. One lemma per field for each update of the state, so that no proof unfolds a record update. -/

namespace Sys2Proof.Machine

/-! ### `replyBytes` -/

@[simp] theorem replyBytes_tagState (bs : List Byte) (crc : Bool) (s : State) :
    (replyBytes bs crc s).tagState = s.tagState := rfl
@[simp] theorem replyBytes_cascadeLevel (bs : List Byte) (crc : Bool) (s : State) :
    (replyBytes bs crc s).cascadeLevel = s.cascadeLevel := rfl
@[simp] theorem replyBytes_frame (bs : List Byte) (crc : Bool) (s : State) :
    (replyBytes bs crc s).frame = s.frame := rfl
@[simp] theorem replyBytes_req (bs : List Byte) (crc : Bool) (s : State) : (replyBytes bs crc s).req = s.req := rfl
@[simp] theorem replyBytes_resp (bs : List Byte) (crc : Bool) (s : State) :
    (replyBytes bs crc s).resp = responseOfBytes bs crc := rfl
@[simp] theorem replyBytes_mailbox (bs : List Byte) (crc : Bool) (s : State) :
    (replyBytes bs crc s).mailbox = s.mailbox := rfl
@[simp] theorem replyBytes_registry (bs : List Byte) (crc : Bool) (s : State) :
    (replyBytes bs crc s).registry = s.registry := rfl
@[simp] theorem replyBytes_cfg (bs : List Byte) (crc : Bool) (s : State) : (replyBytes bs crc s).cfg = s.cfg := rfl
@[simp] theorem replyBytes_env (bs : List Byte) (crc : Bool) (s : State) : (replyBytes bs crc s).env = s.env := rfl
@[simp] theorem replyBytes_resets (bs : List Byte) (crc : Bool) (s : State) :
    (replyBytes bs crc s).resets = s.resets := rfl
@[simp] theorem replyBytes_inputs (bs : List Byte) (crc : Bool) (s : State) :
    (replyBytes bs crc s).inputs = s.inputs := rfl

/-! ### `replyBits` -/

@[simp] theorem replyBits_tagState (bs : List Bool) (s : State) : (replyBits bs s).tagState = s.tagState := rfl
@[simp] theorem replyBits_cascadeLevel (bs : List Bool) (s : State) :
    (replyBits bs s).cascadeLevel = s.cascadeLevel := rfl
@[simp] theorem replyBits_frame (bs : List Bool) (s : State) : (replyBits bs s).frame = s.frame := rfl
@[simp] theorem replyBits_req (bs : List Bool) (s : State) : (replyBits bs s).req = s.req := rfl
@[simp] theorem replyBits_resp (bs : List Bool) (s : State) : (replyBits bs s).resp = responseOfBits bs := rfl
@[simp] theorem replyBits_mailbox (bs : List Bool) (s : State) : (replyBits bs s).mailbox = s.mailbox := rfl
@[simp] theorem replyBits_registry (bs : List Bool) (s : State) : (replyBits bs s).registry = s.registry := rfl
@[simp] theorem replyBits_cfg (bs : List Bool) (s : State) : (replyBits bs s).cfg = s.cfg := rfl
@[simp] theorem replyBits_env (bs : List Bool) (s : State) : (replyBits bs s).env = s.env := rfl
@[simp] theorem replyBits_resets (bs : List Bool) (s : State) : (replyBits bs s).resets = s.resets := rfl
@[simp] theorem replyBits_inputs (bs : List Bool) (s : State) : (replyBits bs s).inputs = s.inputs := rfl

/-! ### `replyNone` -/

@[simp] theorem replyNone_tagState (s : State) : (replyNone s).tagState = s.tagState := rfl
@[simp] theorem replyNone_cascadeLevel (s : State) : (replyNone s).cascadeLevel = s.cascadeLevel := rfl
@[simp] theorem replyNone_frame (s : State) : (replyNone s).frame = s.frame := rfl
@[simp] theorem replyNone_req (s : State) : (replyNone s).req = s.req := rfl
@[simp] theorem replyNone_resp (s : State) : (replyNone s).resp = freshResponse := rfl
@[simp] theorem replyNone_mailbox (s : State) : (replyNone s).mailbox = s.mailbox := rfl
@[simp] theorem replyNone_registry (s : State) : (replyNone s).registry = s.registry := rfl
@[simp] theorem replyNone_cfg (s : State) : (replyNone s).cfg = s.cfg := rfl
@[simp] theorem replyNone_env (s : State) : (replyNone s).env = s.env := rfl
@[simp] theorem replyNone_resets (s : State) : (replyNone s).resets = s.resets := rfl
@[simp] theorem replyNone_inputs (s : State) : (replyNone s).inputs = s.inputs := rfl

/-! ### `replyStatus` -/

@[simp] theorem replyStatus_tagState (c : Byte) (s : State) : (replyStatus c s).tagState = s.tagState := rfl
@[simp] theorem replyStatus_cascadeLevel (c : Byte) (s : State) :
    (replyStatus c s).cascadeLevel = s.cascadeLevel := rfl
@[simp] theorem replyStatus_frame (c : Byte) (s : State) : (replyStatus c s).frame = s.frame := rfl
@[simp] theorem replyStatus_req (c : Byte) (s : State) : (replyStatus c s).req = s.req := rfl
@[simp] theorem replyStatus_resp (c : Byte) (s : State) : (replyStatus c s).resp = responseOfBytes [c] true := rfl
@[simp] theorem replyStatus_mailbox (c : Byte) (s : State) : (replyStatus c s).mailbox = s.mailbox := rfl
@[simp] theorem replyStatus_registry (c : Byte) (s : State) : (replyStatus c s).registry = s.registry := rfl
@[simp] theorem replyStatus_cfg (c : Byte) (s : State) : (replyStatus c s).cfg = s.cfg := rfl
@[simp] theorem replyStatus_env (c : Byte) (s : State) : (replyStatus c s).env = s.env := rfl
@[simp] theorem replyStatus_resets (c : Byte) (s : State) : (replyStatus c s).resets = s.resets := rfl
@[simp] theorem replyStatus_inputs (c : Byte) (s : State) : (replyStatus c s).inputs = s.inputs := rfl

/-! ### `unknownCommand` -/

@[simp] theorem unknownCommand_tagState (s : State) : (unknownCommand s).tagState = s.tagState := rfl
@[simp] theorem unknownCommand_cascadeLevel (s : State) : (unknownCommand s).cascadeLevel = s.cascadeLevel := rfl
@[simp] theorem unknownCommand_frame (s : State) : (unknownCommand s).frame = s.frame := rfl
@[simp] theorem unknownCommand_req (s : State) : (unknownCommand s).req = s.req := rfl
@[simp] theorem unknownCommand_resp (s : State) :
    (unknownCommand s).resp = responseOfBytes [errUnknownCmd] true := rfl
@[simp] theorem unknownCommand_mailbox (s : State) : (unknownCommand s).mailbox = s.mailbox := rfl
@[simp] theorem unknownCommand_registry (s : State) : (unknownCommand s).registry = s.registry := rfl
@[simp] theorem unknownCommand_cfg (s : State) : (unknownCommand s).cfg = s.cfg := rfl
@[simp] theorem unknownCommand_env (s : State) : (unknownCommand s).env = s.env := rfl
@[simp] theorem unknownCommand_resets (s : State) : (unknownCommand s).resets = s.resets := rfl
@[simp] theorem unknownCommand_inputs (s : State) : (unknownCommand s).inputs = s.inputs := rfl

/-! ### `setLink` -/

@[simp] theorem setLink_tagState (t : TagState) (l : Nat) (s : State) : (setLink t l s).tagState = t := rfl
@[simp] theorem setLink_cascadeLevel (t : TagState) (l : Nat) (s : State) : (setLink t l s).cascadeLevel = l := rfl
@[simp] theorem setLink_frame (t : TagState) (l : Nat) (s : State) : (setLink t l s).frame = s.frame := rfl
@[simp] theorem setLink_req (t : TagState) (l : Nat) (s : State) : (setLink t l s).req = s.req := rfl
@[simp] theorem setLink_resp (t : TagState) (l : Nat) (s : State) : (setLink t l s).resp = s.resp := rfl
@[simp] theorem setLink_mailbox (t : TagState) (l : Nat) (s : State) : (setLink t l s).mailbox = s.mailbox := rfl
@[simp] theorem setLink_registry (t : TagState) (l : Nat) (s : State) : (setLink t l s).registry = s.registry := rfl
@[simp] theorem setLink_cfg (t : TagState) (l : Nat) (s : State) : (setLink t l s).cfg = s.cfg := rfl
@[simp] theorem setLink_env (t : TagState) (l : Nat) (s : State) : (setLink t l s).env = s.env := rfl
@[simp] theorem setLink_resets (t : TagState) (l : Nat) (s : State) : (setLink t l s).resets = s.resets := rfl
@[simp] theorem setLink_inputs (t : TagState) (l : Nat) (s : State) : (setLink t l s).inputs = s.inputs := rfl

/-! ### `notAddressed` -/

@[simp] theorem notAddressed_tagState (s : State) : (notAddressed s).tagState = demoteState s.tagState := rfl
@[simp] theorem notAddressed_cascadeLevel (s : State) : (notAddressed s).cascadeLevel = 0 := rfl
@[simp] theorem notAddressed_frame (s : State) : (notAddressed s).frame = s.frame := rfl
@[simp] theorem notAddressed_req (s : State) : (notAddressed s).req = s.req := rfl
@[simp] theorem notAddressed_resp (s : State) : (notAddressed s).resp = freshResponse := rfl
@[simp] theorem notAddressed_mailbox (s : State) : (notAddressed s).mailbox = s.mailbox := rfl
@[simp] theorem notAddressed_registry (s : State) : (notAddressed s).registry = s.registry := rfl
@[simp] theorem notAddressed_cfg (s : State) : (notAddressed s).cfg = s.cfg := rfl
@[simp] theorem notAddressed_env (s : State) : (notAddressed s).env = s.env := rfl
@[simp] theorem notAddressed_resets (s : State) : (notAddressed s).resets = s.resets := rfl
@[simp] theorem notAddressed_inputs (s : State) : (notAddressed s).inputs = s.inputs := rfl

/-! ### `promote` -/

@[simp] theorem promote_tagState (s : State) : (promote s).tagState = promoteState s.tagState := rfl
@[simp] theorem promote_cascadeLevel (s : State) : (promote s).cascadeLevel = 0 := rfl
@[simp] theorem promote_frame (s : State) : (promote s).frame = s.frame := rfl
@[simp] theorem promote_req (s : State) : (promote s).req = s.req := rfl
@[simp] theorem promote_resp (s : State) : (promote s).resp = responseOfBytes [s.cfg.sakComplete] true := rfl
@[simp] theorem promote_mailbox (s : State) : (promote s).mailbox = s.mailbox := rfl
@[simp] theorem promote_registry (s : State) : (promote s).registry = s.registry := rfl
@[simp] theorem promote_cfg (s : State) : (promote s).cfg = s.cfg := rfl
@[simp] theorem promote_env (s : State) : (promote s).env = s.env := rfl
@[simp] theorem promote_resets (s : State) : (promote s).resets = s.resets := rfl
@[simp] theorem promote_inputs (s : State) : (promote s).inputs = s.inputs := rfl

/-! ### `registerCallback` -/

@[simp] theorem registerCallback_tagState (id : Byte) (cb : Callback) (s : State) :
    (registerCallback id cb s).tagState = s.tagState := rfl
@[simp] theorem registerCallback_cascadeLevel (id : Byte) (cb : Callback) (s : State) :
    (registerCallback id cb s).cascadeLevel = s.cascadeLevel := rfl
@[simp] theorem registerCallback_frame (id : Byte) (cb : Callback) (s : State) :
    (registerCallback id cb s).frame = s.frame := rfl
@[simp] theorem registerCallback_req (id : Byte) (cb : Callback) (s : State) :
    (registerCallback id cb s).req = s.req := rfl
@[simp] theorem registerCallback_resp (id : Byte) (cb : Callback) (s : State) :
    (registerCallback id cb s).resp = s.resp := rfl
@[simp] theorem registerCallback_mailbox (id : Byte) (cb : Callback) (s : State) :
    (registerCallback id cb s).mailbox = s.mailbox := rfl
@[simp] theorem registerCallback_registry (id : Byte) (cb : Callback) (s : State) :
    (registerCallback id cb s).registry = s.registry.setIfInBounds id.toNat (some cb) := rfl
@[simp] theorem registerCallback_cfg (id : Byte) (cb : Callback) (s : State) :
    (registerCallback id cb s).cfg = s.cfg := rfl
@[simp] theorem registerCallback_env (id : Byte) (cb : Callback) (s : State) :
    (registerCallback id cb s).env = s.env := rfl
@[simp] theorem registerCallback_resets (id : Byte) (cb : Callback) (s : State) :
    (registerCallback id cb s).resets = s.resets := rfl
@[simp] theorem registerCallback_inputs (id : Byte) (cb : Callback) (s : State) :
    (registerCallback id cb s).inputs = s.inputs := rfl

/-! ### `changeConfig` -/

@[simp] theorem changeConfig_tagState (new : LiveConfig) (s : State) :
    (changeConfig new s).tagState = s.tagState := rfl
@[simp] theorem changeConfig_cascadeLevel (new : LiveConfig) (s : State) :
    (changeConfig new s).cascadeLevel = s.cascadeLevel := rfl
@[simp] theorem changeConfig_frame (new : LiveConfig) (s : State) : (changeConfig new s).frame = s.frame := rfl
@[simp] theorem changeConfig_req (new : LiveConfig) (s : State) : (changeConfig new s).req = s.req := rfl
@[simp] theorem changeConfig_resp (new : LiveConfig) (s : State) : (changeConfig new s).resp = s.resp := rfl
@[simp] theorem changeConfig_mailbox (new : LiveConfig) (s : State) : (changeConfig new s).mailbox = s.mailbox := rfl
@[simp] theorem changeConfig_registry (new : LiveConfig) (s : State) :
    (changeConfig new s).registry = s.registry := rfl
@[simp] theorem changeConfig_cfg (new : LiveConfig) (s : State) :
    (changeConfig new s).cfg = { s.cfg with live := new } := rfl
@[simp] theorem changeConfig_env (new : LiveConfig) (s : State) : (changeConfig new s).env = s.env := rfl
@[simp] theorem changeConfig_resets (new : LiveConfig) (s : State) : (changeConfig new s).resets = s.resets := rfl
@[simp] theorem changeConfig_inputs (new : LiveConfig) (s : State) : (changeConfig new s).inputs = s.inputs := rfl

/-! ### `retire` -/

@[simp] theorem retire_tagState (s : State) : (retire s).tagState = s.tagState := rfl
@[simp] theorem retire_cascadeLevel (s : State) : (retire s).cascadeLevel = s.cascadeLevel := rfl
@[simp] theorem retire_frame (s : State) : (retire s).frame = none := rfl
@[simp] theorem retire_req (s : State) : (retire s).req = zeroRequest := rfl
@[simp] theorem retire_resp (s : State) : (retire s).resp = s.resp := rfl
@[simp] theorem retire_mailbox (s : State) : (retire s).mailbox = s.mailbox := rfl
@[simp] theorem retire_registry (s : State) : (retire s).registry = s.registry := rfl
@[simp] theorem retire_cfg (s : State) : (retire s).cfg = s.cfg := rfl
@[simp] theorem retire_env (s : State) : (retire s).env = s.env := rfl
@[simp] theorem retire_resets (s : State) : (retire s).resets = s.resets := rfl
@[simp] theorem retire_inputs (s : State) : (retire s).inputs = s.inputs := rfl

/-! ### `receive` -/

@[simp] theorem receive_tagState (rx : List Bool) (s : State) : (receive rx s).tagState = s.tagState := rfl
@[simp] theorem receive_cascadeLevel (rx : List Bool) (s : State) :
    (receive rx s).cascadeLevel = s.cascadeLevel := rfl
@[simp] theorem receive_frame (rx : List Bool) (s : State) :
    (receive rx s).frame = some (classify s.cfg.rxMaxBits rx) := rfl
@[simp] theorem receive_req (rx : List Bool) (s : State) :
    (receive rx s).req = (classify s.cfg.rxMaxBits rx).request.getD s.req := rfl
@[simp] theorem receive_resp (rx : List Bool) (s : State) : (receive rx s).resp = freshResponse := rfl
@[simp] theorem receive_mailbox (rx : List Bool) (s : State) : (receive rx s).mailbox = s.mailbox := rfl
@[simp] theorem receive_registry (rx : List Bool) (s : State) : (receive rx s).registry = s.registry := rfl
@[simp] theorem receive_cfg (rx : List Bool) (s : State) : (receive rx s).cfg = s.cfg := rfl
@[simp] theorem receive_env (rx : List Bool) (s : State) : (receive rx s).env = s.env := rfl
@[simp] theorem receive_resets (rx : List Bool) (s : State) : (receive rx s).resets = s.resets := rfl
@[simp] theorem receive_inputs (rx : List Bool) (s : State) : (receive rx s).inputs = s.inputs := rfl

/-! ### `fieldLost` -/

@[simp] theorem fieldLost_tagState (s : State) : (fieldLost s).tagState = .idle := rfl
@[simp] theorem fieldLost_cascadeLevel (s : State) : (fieldLost s).cascadeLevel = 0 := rfl
@[simp] theorem fieldLost_frame (s : State) : (fieldLost s).frame = none := rfl
@[simp] theorem fieldLost_req (s : State) : (fieldLost s).req = zeroRequest := rfl
@[simp] theorem fieldLost_resp (s : State) : (fieldLost s).resp = freshResponse := rfl
@[simp] theorem fieldLost_mailbox (s : State) : (fieldLost s).mailbox = s.mailbox := rfl
@[simp] theorem fieldLost_registry (s : State) : (fieldLost s).registry = s.registry := rfl
@[simp] theorem fieldLost_cfg (s : State) : (fieldLost s).cfg = s.cfg := rfl
@[simp] theorem fieldLost_env (s : State) : (fieldLost s).env = s.env := rfl
@[simp] theorem fieldLost_resets (s : State) : (fieldLost s).resets = s.resets := rfl
@[simp] theorem fieldLost_inputs (s : State) : (fieldLost s).inputs = s.inputs := rfl

/-! ### `resetBlock` -/

@[simp] theorem resetBlock_tagState (s : State) : (resetBlock s).tagState = .idle := rfl
@[simp] theorem resetBlock_cascadeLevel (s : State) : (resetBlock s).cascadeLevel = 0 := rfl
@[simp] theorem resetBlock_frame (s : State) : (resetBlock s).frame = none := rfl
@[simp] theorem resetBlock_req (s : State) : (resetBlock s).req = zeroRequest := rfl
@[simp] theorem resetBlock_resp (s : State) : (resetBlock s).resp = freshResponse := rfl
@[simp] theorem resetBlock_mailbox (s : State) : (resetBlock s).mailbox = drawnMailbox (s.resets + 1) := rfl
@[simp] theorem resetBlock_registry (s : State) : (resetBlock s).registry = emptyRegistry := rfl
@[simp] theorem resetBlock_cfg (s : State) : (resetBlock s).cfg = s.cfg := rfl
@[simp] theorem resetBlock_env (s : State) : (resetBlock s).env = s.env := rfl
@[simp] theorem resetBlock_resets (s : State) : (resetBlock s).resets = s.resets + 1 := rfl
@[simp] theorem resetBlock_inputs (s : State) : (resetBlock s).inputs = s.inputs := rfl

/-! ### `enqueueFrame` -/

@[simp] theorem enqueueFrame_tagState (rx : List Bool) (s : State) : (enqueueFrame rx s).tagState = s.tagState := rfl
@[simp] theorem enqueueFrame_cascadeLevel (rx : List Bool) (s : State) :
    (enqueueFrame rx s).cascadeLevel = s.cascadeLevel := rfl
@[simp] theorem enqueueFrame_frame (rx : List Bool) (s : State) : (enqueueFrame rx s).frame = s.frame := rfl
@[simp] theorem enqueueFrame_req (rx : List Bool) (s : State) : (enqueueFrame rx s).req = s.req := rfl
@[simp] theorem enqueueFrame_resp (rx : List Bool) (s : State) : (enqueueFrame rx s).resp = s.resp := rfl
@[simp] theorem enqueueFrame_mailbox (rx : List Bool) (s : State) : (enqueueFrame rx s).mailbox = s.mailbox := rfl
@[simp] theorem enqueueFrame_registry (rx : List Bool) (s : State) : (enqueueFrame rx s).registry = s.registry := rfl
@[simp] theorem enqueueFrame_cfg (rx : List Bool) (s : State) : (enqueueFrame rx s).cfg = s.cfg := rfl
@[simp] theorem enqueueFrame_env (rx : List Bool) (s : State) : (enqueueFrame rx s).env = s.env := rfl
@[simp] theorem enqueueFrame_resets (rx : List Bool) (s : State) : (enqueueFrame rx s).resets = s.resets := rfl
@[simp] theorem enqueueFrame_inputs (rx : List Bool) (s : State) :
    (enqueueFrame rx s).inputs = .frameReceived rx :: s.inputs := rfl

/-! ### The answers to frames that carry no instruction -/

/-- Such an answer writes `resp` only. -/
theorem rejectFrame_eq (r : Reject) (s : State) : rejectFrame r s = { s with resp := (rejectFrame r s).resp } := by
  cases r <;> rfl

/-- A handler's reply writes `resp` only. -/
theorem replyOf_eq (r : Reply) (s : State) : replyOf r s = { s with resp := (replyOf r s).resp } := by
  cases r <;> rfl

/-- The trace numbers of the protocol states are different (10_state.md R21). -/
theorem tagStateCode_injective (x y : TagState) (h : tagStateCode x = tagStateCode y) : x = y := by
  revert h; cases x <;> cases y <;> decide

/-- Bit 0 of the privilege nibble permits reads, bit 1 writes (10_state.md R38). -/
theorem privilegeNibble_permits (st : AccessState) :
    permits st .read = (privilegeNibble st).getLsbD 0 ∧ permits st .write = (privilegeNibble st).getLsbD 1 := by
  cases st <;> decide

end Sys2Proof.Machine
end

