-- ==== Sys2Proof/Laws/Ops.lean ====
section
/-! SUPPORT. For each shared operation, once, everything it can do. Proofs cite these and unfold no operation. -/

namespace Sys2Proof.Machine

/-! ### Replies -/

theorem freshResponse_wf : responseWf freshResponse := by
  refine ⟨by decide, by decide, fun _ => rfl⟩

/-- `reply Bytes` of 1 to 48 bytes. -/
theorem responseOfBytes_of_le (bs : List Byte) (crc : Bool) (h1 : 1 ≤ bs.length) (h48 : bs.length ≤ 48) :
    responseOfBytes bs crc = ⟨8 * bs.length, true, crc, padBytes 48 bs⟩ := by
  have hne : bs.isEmpty = false := by cases bs <;> simp at *
  simp [responseOfBytes, hne, Nat.min_eq_right h48]

@[simp] theorem responseOfBytes_nil (crc : Bool) : responseOfBytes [] crc = freshResponse := rfl

@[simp] theorem responseOfBytes_singleton (c : Byte) (crc : Bool) :
    responseOfBytes [c] crc = ⟨8, true, crc, padBytes 48 [c]⟩ := rfl

/-- `reply Bits` of 1 to 384 bits. -/
theorem responseOfBits_of_le (bits : List Bool) (h1 : 1 ≤ bits.length) (h : bits.length ≤ 384) :
    responseOfBits bits = ⟨bits.length, true, false, padBytes 48 (packBits bits)⟩ := by
  have hne : bits.isEmpty = false := by cases bits <;> simp at *
  have ht : bits.take (8 * bufCap) = bits := List.take_of_length_le h
  simp [responseOfBits, hne, ht]

theorem responseOfBytes_wf (bs : List Byte) (crc : Bool) : responseWf (responseOfBytes bs crc) := by
  cases bs with
  | nil => exact freshResponse_wf
  | cons b bs =>
    refine ⟨?_, fun _ => ?_, fun h => ?_⟩
    · simp [responseOfBytes]; omega
    · simp [responseOfBytes]
    · simp [responseOfBytes] at h

theorem responseOfBits_wf (bits : List Bool) : responseWf (responseOfBits bits) := by
  cases bits with
  | nil => exact freshResponse_wf
  | cons b bits =>
    refine ⟨?_, fun h => ?_, fun h => ?_⟩
    · simp only [responseOfBits, List.isEmpty_cons, List.length_take]
      exact Nat.min_le_left _ _
    · simp [responseOfBits] at h
    · simp [responseOfBits] at h

theorem replyOf_responseWf (r : Reply) (s : State) : responseWf (replyOf r s).resp := by
  cases r with
  | noResponse => exact freshResponse_wf
  | bytes bs crc => exact responseOfBytes_wf bs crc
  | bits bs => exact responseOfBits_wf bs

theorem rejectFrame_responseWf (r : Reject) (s : State) : responseWf (rejectFrame r s).resp := by
  cases r <;> first | exact freshResponse_wf | exact responseOfBytes_wf _ _

/-- A status reply is the one-byte reply of its code (60_exceptions.md R286). -/
theorem isStatusReply_responseOfBytes (c : Byte) : isStatusReply c (responseOfBytes [c] true) :=
  ⟨rfl, rfl, rfl, padBytes_toList_of_le 48 [c] (by simp)⟩

/-! ### Packed bits (30_encoding.md R123) -/

/-- Packing `8 * n` bits of bytes gives the bytes. -/
theorem packBits_bitsOfBytes (bs : List Byte) (tail : List Bool) (h : tail.length ≤ 7) :
    packBits (bitsOfBytes bs ++ tail) = bs ++ if tail = [] then [] else [byteOfBits tail] := by
  induction bs with
  | nil =>
    rw [bitsOfBytes_nil, List.nil_append, List.nil_append]
    unfold packBits
    split
    · simp at h; omega
    · rfl
    · rename_i h2; rw [if_neg fun hh => h2 hh]
  | cons b bs ih =>
    have hb : byteOfBits [b.getLsbD 0, b.getLsbD 1, b.getLsbD 2, b.getLsbD 3, b.getLsbD 4, b.getLsbD 5,
        b.getLsbD 6, b.getLsbD 7] = b := byteOfBits_bitsOfByte b
    rw [bitsOfBytes_cons]
    simp only [bitsOfByte, List.cons_append, List.nil_append, packBits, hb, ih]

/-! ### The link state machine -/

theorem wake_eq (t : TagState) (s : State) :
    wake t s = { s with
      tagState := if isSleeping s.tagState then t else s.tagState
      cascadeLevel := if isSleeping s.tagState then 0 else s.cascadeLevel
      resp := responseOfBytes (if isSleeping s.tagState then [s.cfg.atqa0, s.cfg.atqa1] else [errUnknownCmd])
        (!isSleeping s.tagState) } := by
  unfold wake
  cases isSleeping s.tagState <;> rfl

/-- `AUX_HANDLER` sets the link state and the reply. -/
theorem auxApply_eq (f : Frame) (s : State) :
    auxApply f s = { s with
      tagState := (Config.auxHandler s.tagState f).tagState
      cascadeLevel := if (Config.auxHandler s.tagState f).tagState = s.tagState then s.cascadeLevel else 0
      resp := (replyOf (Config.auxHandler s.tagState f).reply s).resp } := by
  unfold auxApply
  rw [replyOf_eq]
  cases (Config.auxHandler s.tagState f).reply <;> rfl

/-! ### The anticollision engine -/

/-- What `Anticollision` can do: the catch-all, not addressed, or the rest of the UID's bits. -/
theorem anticollision_cases (lvl : Nat) (nvb : Byte) (u : List Bool) (s : State) :
    anticollision lvl nvb u s = unknownCommand s ∨
      (isReady s.tagState = true ∧ nvbAgrees nvb (16 + u.length) = true ∧
        (anticollision lvl nvb u s = notAddressed s ∨
          levelAddressed lvl s = true ∧
            (u40 (uidCl s.cfg.ct s.cfg.uid lvl)).take u.length = u ∧
            anticollision lvl nvb u s = replyBits ((u40 (uidCl s.cfg.ct s.cfg.uid lvl)).drop u.length) s)) := by
  by_cases h1 : isReady s.tagState = false
  · exact .inl (by simp [anticollision, h1])
  · by_cases h2 : nvbAgrees nvb (16 + u.length) = false
    · exact .inl (by simp [anticollision, h2])
    · refine .inr ⟨by simpa using h1, by simpa using h2, ?_⟩
      by_cases h3 : levelAddressed lvl s = false
      · exact .inl (by simp [anticollision, h1, h2, h3])
      · by_cases h4 : (u40 (uidCl s.cfg.ct s.cfg.uid lvl)).take u.length = u
        · exact .inr ⟨by simpa using h3, h4, by simp [anticollision, acCompare, h1, h2, h3, h4]⟩
        · exact .inl (by simp [anticollision, acCompare, h1, h2, h3, h4])

/-- What `Select` can do: the catch-all, not addressed, the next level, or the promotion. -/
theorem select_cases (lvl : Nat) (link : List Byte) (s : State) :
    select lvl link s = unknownCommand s ∨
      (isReady s.tagState = true ∧
        (select lvl link s = notAddressed s ∨
          levelAddressed lvl s = true ∧
            ((lvl < nLevels s.cfg.uid ∧
                select lvl link s = replyBytes [s.cfg.sakCascade] true { s with cascadeLevel := lvl }) ∨
              (lvl = nLevels s.cfg.uid ∧ select lvl link s = promote s)))) := by
  by_cases h1 : isReady s.tagState = false
  · exact .inl (by simp [select, h1])
  · unfold select
    rw [if_neg h1]
    split
    · split_ifs with h2 h3
      · exact .inl rfl
      · exact .inr ⟨by simpa using h1, .inl rfl⟩
      · refine .inr ⟨by simpa using h1, ?_⟩
        unfold selectCompare
        dsimp only
        split_ifs with h4 h5
        · exact .inr ⟨by simpa using h3, .inl ⟨h5, rfl⟩⟩
        · refine .inr ⟨by simpa using h3, .inr ⟨?_, rfl⟩⟩
          simp only [levelAddressed, Bool.and_eq_false_iff, not_or, Bool.not_eq_false, decide_eq_true_eq] at h3
          omega
        · exact .inl rfl
    · exact .inl rfl

/-- `Anticollision` and `Select` touch the link state and `resp` only. -/
theorem anticollision_frame (lvl : Nat) (nvb : Byte) (u : List Bool) (s : State) :
    anticollision lvl nvb u s = { s with
      tagState := (anticollision lvl nvb u s).tagState
      cascadeLevel := (anticollision lvl nvb u s).cascadeLevel
      resp := (anticollision lvl nvb u s).resp } := by
  rcases anticollision_cases lvl nvb u s with h | ⟨-, -, h | ⟨-, -, h⟩⟩ <;> rw [h] <;> rfl

theorem select_frame (lvl : Nat) (link : List Byte) (s : State) :
    select lvl link s = { s with
      tagState := (select lvl link s).tagState
      cascadeLevel := (select lvl link s).cascadeLevel
      resp := (select lvl link s).resp } := by
  rcases select_cases lvl link s with h | ⟨-, h | ⟨-, ⟨-, h⟩ | ⟨-, h⟩⟩⟩ <;> rw [h] <;> rfl

/-! ### Callbacks -/

/-- An invocation changes `mailbox` and `env` only, and keeps plain memory canonical. -/
theorem invoke_frame (cb : Callback) (s : State) :
    (invoke cb s).2 = { s with mailbox := (invoke cb s).2.mailbox, env := (invoke cb s).2.env } ∧
      (Memory.wf s.env.mem → Memory.wf (invoke cb s).2.env.mem) := by
  cases cb with
  | mailboxAddr => exact ⟨rfl, id⟩
  | mailboxSize => exact ⟨rfl, id⟩
  | testAdd => exact ⟨rfl, id⟩
  | platform k => exact ⟨rfl, applyWrites_wf _ _⟩

/-! ### The Dandelion commands -/

/-- What a Dandelion procedure may change: `mailbox`, `env`, `resp`; it always answers, with a checksum. -/
structure DandOk (s t : State) : Prop where
  frame : t = { s with mailbox := t.mailbox, env := t.env, resp := t.resp }
  memory : Memory.wf s.env.mem → Memory.wf t.env.mem
  reply : ∃ b bs, bs.length ≤ 47 ∧ t.resp = responseOfBytes (b :: bs) true

/-- A procedure that stores nothing answers with a byte string. -/
theorem dandOk_reply (b : Byte) (bs : List Byte) (h : bs.length ≤ 47) (s : State) :
    DandOk s (replyBytes (b :: bs) true s) :=
  ⟨rfl, id, b, bs, h, rfl⟩

theorem dandOk_status (c : Byte) (s : State) : DandOk s (replyStatus c s) := dandOk_reply c [] (by simp) s

theorem dandOk_unknown (s : State) : DandOk s (unknownCommand s) := dandOk_status _ s

/-- What `Read` can do: an error reply, or the access and its reply. -/
theorem dandRead_cases (w : Width) (ack : Byte) (s : State) :
    (∃ c ∈ [errUnknownCmd, errMisAligned, errReadProtected], dandRead w ack s = replyStatus c s) ∨
      s.req.plen = 4 ∧ check s.cfg (addrOperand s.req) w .read = .allowed ∧
        dandRead w ack s =
          replyBytes (ack :: beBytes (memRead s (addrOperand s.req) w).1 (widthBytes w)) true
            (memRead s (addrOperand s.req) w).2 := by
  unfold dandRead
  split_ifs with h
  · exact .inl ⟨errUnknownCmd, by simp, rfl⟩
  · split
    · exact .inl ⟨errMisAligned, by simp, rfl⟩
    · exact .inl ⟨errReadProtected, by simp, rfl⟩
    · rename_i hc
      exact .inr ⟨not_not.1 h, hc, rfl⟩

/-- What `Write` can do: an error reply, or the access and its reply. -/
theorem dandWrite_cases (w : Width) (ack : Byte) (s : State) :
    (∃ c ∈ [errUnknownCmd, errMisAligned, errWriteProtected], dandWrite w ack s = replyStatus c s) ∨
      s.req.plen = 4 + widthBytes w ∧ check s.cfg (addrOperand s.req) w .write = .allowed ∧
        dandWrite w ack s =
          replyBytes [ack] true (memWrite s (addrOperand s.req) w (dataOperand s.req (widthBytes w))) := by
  unfold dandWrite
  split_ifs with h
  · exact .inl ⟨errUnknownCmd, by simp, rfl⟩
  · split
    · exact .inl ⟨errMisAligned, by simp, rfl⟩
    · exact .inl ⟨errWriteProtected, by simp, rfl⟩
    · rename_i hc
      exact .inr ⟨not_not.1 h, hc, rfl⟩

/-- What `CallCommon` can do: an error reply, or the invocation and its reply. -/
theorem callCommon_cases (enabled : Bool) (ack : Byte) (s : State) :
    (∃ c ∈ [errMsgCallDisabled, errUnknownCmd], callCommon enabled ack s = replyStatus c s) ∨
      enabled = true ∧ s.req.plen = 1 ∧ ∃ cb, registered s (idOperand s.req) = some cb ∧
        callCommon enabled ack s =
          replyBytes (ack :: beBytes (invoke cb s).1 4) true (invoke cb s).2 := by
  unfold callCommon
  split_ifs with h1 h2
  · exact .inl ⟨errMsgCallDisabled, by simp, rfl⟩
  · exact .inl ⟨errUnknownCmd, by simp, rfl⟩
  · split
    · exact .inl ⟨errUnknownCmd, by simp, rfl⟩
    · rename_i cb hcb
      exact .inr ⟨by simpa using h1, not_not.1 h2, cb, hcb, rfl⟩

/-- What loopback can do: the error reply or the echo. -/
theorem dandLoopback_cases (s : State) :
    (47 < s.req.plen ∧ dandLoopback s = unknownCommand s) ∨
      s.req.plen ≤ 47 ∧
        dandLoopback s = replyBytes (rloopback :: payloadSlice s.req 0 s.req.plen) true s := by
  unfold dandLoopback
  split_ifs with h
  · exact .inl ⟨h, rfl⟩
  · exact .inr ⟨by omega, rfl⟩

theorem dandRead_ok (w : Width) (ack : Byte) (s : State) : DandOk s (dandRead w ack s) := by
  rcases dandRead_cases w ack s with ⟨c, -, h⟩ | ⟨-, -, h⟩
  · rw [h]; exact dandOk_status c s
  · obtain ⟨hf, hm⟩ := memRead_frame s (addrOperand s.req) w
    rw [h]
    refine ⟨?_, fun hw => by simpa [hm] using hw, ack, _, ?_, rfl⟩
    · rw [replyBytes, hf]
    · have := widthBytes_le w
      rw [beBytes_length]; omega

theorem dandWrite_ok (w : Width) (ack : Byte) (s : State) : DandOk s (dandWrite w ack s) := by
  rcases dandWrite_cases w ack s with ⟨c, -, h⟩ | ⟨-, -, h⟩
  · rw [h]; exact dandOk_status c s
  · obtain ⟨hf, hm⟩ := memWrite_frame s (addrOperand s.req) (dataOperand s.req (widthBytes w)) w
    rw [h]
    refine ⟨?_, hm, ack, [], by simp, rfl⟩
    rw [replyBytes, hf]

theorem callCommon_ok (enabled : Bool) (ack : Byte) (s : State) : DandOk s (callCommon enabled ack s) := by
  rcases callCommon_cases enabled ack s with ⟨c, -, h⟩ | ⟨-, -, cb, -, h⟩
  · rw [h]; exact dandOk_status c s
  · obtain ⟨hf, hm⟩ := invoke_frame cb s
    rw [h]
    refine ⟨?_, hm, ack, _, ?_, rfl⟩
    · rw [replyBytes, hf]
    · rw [beBytes_length]; omega

theorem dandLoopback_ok (s : State) : DandOk s (dandLoopback s) := by
  rcases dandLoopback_cases s with ⟨-, h⟩ | ⟨hp, h⟩
  · rw [h]; exact dandOk_unknown s
  · rw [h]
    refine dandOk_reply _ _ ?_ s
    simp only [payloadSlice, List.drop_zero, List.length_take]
    omega

theorem dispatch_ok (s : State) : DandOk s (dispatch s) := by
  unfold dispatch
  split_ifs <;>
    first
      | exact dandRead_ok _ _ s
      | exact dandWrite_ok _ _ s
      | exact callCommon_ok _ _ s
      | exact dandLoopback_ok s
      | exact dandOk_unknown s

theorem mkRequest_of_le (code : Byte) (p : List Byte) (h : p.length ≤ 48) :
    mkRequest code p = some (requestOfPayload code p) := by
  simp [mkRequest, requestOfPayload, h]

theorem mkRequest_of_lt (code : Byte) (p : List Byte) (h : 48 < p.length) : mkRequest code p = none := by
  simp [mkRequest]; omega

/-- What a Dandelion row can do: the catch-all, or its procedure on the written request. -/
theorem withRequest_cases (code : Byte) (p : List Byte) (k : State → State) (s : State) :
    (withRequest code p k s = unknownCommand s ∧ (s.tagState = .protDand → 48 < p.length)) ∨
      s.tagState = .protDand ∧ p.length ≤ 48 ∧
        withRequest code p k s = k { s with req := requestOfPayload code p } := by
  unfold withRequest
  split_ifs with h
  · by_cases hp : p.length ≤ 48
    · exact .inr ⟨h, hp, by rw [mkRequest_of_le code p hp]⟩
    · exact .inl ⟨by rw [mkRequest_of_lt code p (by omega)], fun _ => by omega⟩
  · exact .inl ⟨rfl, fun h' => absurd h' h⟩

/-- The request's operands, from the payload (30_encoding.md R112 to R114). -/
theorem payloadSlice_requestOfPayload (code : Byte) (p : List Byte) (i j : Nat) (hj : j ≤ p.length)
    (h48 : p.length ≤ 48) : payloadSlice (requestOfPayload code p) i j = (p.take j).drop i := by
  unfold payloadSlice requestOfPayload
  rw [padBytes_toList_of_le 48 p h48, List.take_append_of_le_length hj]

@[simp] theorem requestOfPayload_plen (code : Byte) (p : List Byte) : (requestOfPayload code p).plen = p.length := rfl

@[simp] theorem requestOfPayload_command (code : Byte) (p : List Byte) :
    (requestOfPayload code p).command = code := rfl

/-! ### The registry -/

theorem registered_emptyRegistry (s : State) (id : Byte) (h : s.registry = emptyRegistry) : registered s id = none := by
  have hid : id.toNat < 256 := id.isLt
  rw [registered, h, emptyRegistry, Vector.getElem?_replicate, if_pos hid]
  rfl

theorem registered_registerCallback (id other : Byte) (cb : Callback) (s : State) :
    registered (registerCallback id cb s) other = if other = id then some cb else registered s other := by
  have hid : id.toNat < 256 := id.isLt
  by_cases h : other = id
  · subst h
    simp [registered, hid]
  · have hne : id.toNat ≠ other.toNat := fun hh => h (BitVec.eq_of_toNat_eq hh.symm)
    simp [registered, h, hne]

end Sys2Proof.Machine
end

