-- ==== Sys2Proof/Laws/PerInstr.lean ====
section
/-! SUPPORT. The per-instruction family `EncodeLength`: an instruction's encoding has the raw length that WellFormed.lean
gives it (30_encoding.md R91 to R93). -/

namespace Sys2Proof.Laws.EncodeLength

/-- The encoding of the instruction has its raw length. -/
def Statement (i : Instr) : Prop := (encode i).length = i.rawBits

theorem reqa : Statement .reqa := rfl
theorem wupa : Statement .wupa := rfl
theorem timeslot : Statement .timeslot := rfl
theorem hlta (link : List Byte) : Statement (.hlta link) := encodeStandard_length _
theorem ratsDand (link : List Byte) : Statement (.ratsDand link) := encodeStandard_length _
theorem deselectDand (link : List Byte) : Statement (.deselectDand link) := encodeStandard_length _
theorem t2tRead (link : List Byte) : Statement (.t2tRead link) := encodeStandard_length _
theorem dandCmd (link : List Byte) : Statement (.dandCmd link) := encodeStandard_length _
theorem sel1Ac (nvb : Byte) (u : List Bool) : Statement (.sel1Ac nvb u) := encodeAc_length _ nvb u
theorem sel1Select (link : List Byte) : Statement (.sel1Select link) := encodeStandard_length _
theorem sel2Ac (nvb : Byte) (u : List Bool) : Statement (.sel2Ac nvb u) := encodeAc_length _ nvb u
theorem sel2Select (link : List Byte) : Statement (.sel2Select link) := encodeStandard_length _
theorem sel3Ac (nvb : Byte) (u : List Bool) : Statement (.sel3Ac nvb u) := encodeAc_length _ nvb u
theorem sel3Select (link : List Byte) : Statement (.sel3Select link) := encodeStandard_length _
theorem readWord (p : List Byte) : Statement (.readWord p) := encodeStandard_length _
theorem readHalfword (p : List Byte) : Statement (.readHalfword p) := encodeStandard_length _
theorem readByte (p : List Byte) : Statement (.readByte p) := encodeStandard_length _
theorem writeWord (p : List Byte) : Statement (.writeWord p) := encodeStandard_length _
theorem writeHalfword (p : List Byte) : Statement (.writeHalfword p) := encodeStandard_length _
theorem writeByte (p : List Byte) : Statement (.writeByte p) := encodeStandard_length _
theorem call (p : List Byte) : Statement (.call p) := encodeStandard_length _
theorem sendMessage (p : List Byte) : Statement (.sendMessage p) := encodeStandard_length _
theorem loopback (p : List Byte) : Statement (.loopback p) := encodeStandard_length _

end Sys2Proof.Laws.EncodeLength
end

