-- ==== Sys2Proof/Tests/Slice0.lean ====
section
/-! SUPPORT. The model's own tests: the WellFormed smoke, a frame of every row written out from its encoding, one or two
steps per command with the results 95_test_vectors.md gives (V0 to V10, P1 to P4), and a witness for the hypotheses
of each statement. The checksums of the frames written out are 95_test_vectors.md's, or computed from R102 outside the model. -/

namespace Sys2Proof.Tests

open Sys2Proof.Machine

set_option maxRecDepth 4000

/-! ## Helpers -/

/-- Raw bits of groups of nine, first received bit leftmost (V0's notation). -/
def groups (gs : List (BitVec 9)) : List Bool :=
  gs.flatMap fun g =>
    [g.getLsbD 8, g.getLsbD 7, g.getLsbD 6, g.getLsbD 5, g.getLsbD 4, g.getLsbD 3, g.getLsbD 2, g.getLsbD 1,
      g.getLsbD 0]

/-- A session of test configuration T1 (95_test_vectors.md L2): mailbox zero, T1's plain memory and registry. -/
def inState (t : TagState) : State :=
  registerCallback 0x10 .testAdd <| registerCallback 0x02 .mailboxSize <| registerCallback 0x01 .mailboxAddr
    { State.reset with
      tagState := t
      mailbox := Vector.replicate 64 0
      env := ⟨[(0x100, 0x5A), (0x20000010, 0x44), (0x20000011, 0x33), (0x20000012, 0x22), (0x20000013, 0x11)], 0⟩ }

/-- Test configuration T2, with a double-size UID, at a cascade level. -/
def inState2 (t : TagState) (l : Nat) : State :=
  let s := inState t
  { s with
    cascadeLevel := l
    cfg := { s.cfg with uid := .double #v[0x04, 0x11, 0x22, 0x33, 0x44, 0x55, 0x66], atqa0 := 0x44 } }

/-- The state with one event coming. -/
def next (e : Event) (s : State) : State := { s with inputs := [e] }

/-- The state with a frame of these raw bits coming. -/
def coming (rx : List Bool) (s : State) : State := next (.frameReceived rx) s

/-- What the transmitter puts on the wire for a reply of whole bytes (V6's notation). -/
def wireBytes (r : Response) : List Byte :=
  let d := r.payload.toList.take (r.bitLength / 8)
  if r.sendReply = false then [] else if r.appendChecksum then d ++ crcBytes d else d

/-- The reply to an event (bytes on the wire), `tag_state` and `cascade_level` after it. -/
def answer (e : Event) (s : State) : Option (List Byte × TagState × Nat) :=
  match step (next e s) with
  | .next t => some (wireBytes t.resp, t.tagState, t.cascadeLevel)
  | .fault _ => none
  | .refused _ => none

/-- The reply to a frame of these bytes. -/
def answerBytes (bs : List Byte) (s : State) : Option (List Byte × TagState × Nat) :=
  answer (.frameReceived (encodeBytes bs)) s

/-- The bits of the reply to a frame. -/
def answerBits (rx : List Bool) (s : State) : Option (List Bool) :=
  match step (coming rx s) with
  | .next t => some ((bitsOfBytes t.resp.payload.toList).take t.resp.bitLength)
  | .fault _ => none
  | .refused _ => none

/-- The state after an event. -/
def after (e : Event) (s : State) : State :=
  match step (next e s) with
  | .next t => t
  | .fault _ => s
  | .refused _ => s

/-! ## Well-formedness: an ill-formed term for each check -/

theorem test_wf_ac_too_many_bits : (Instr.sel1Ac 0x20 (List.replicate 33 false)).wf = false := by decide
theorem test_wf_ac_select_marker : (Instr.sel2Ac 0x70 (List.replicate 8 false)).wf = false := by decide
theorem test_wf_select_is_ac_form : (Instr.sel3Select [0x20, 0x04]).wf = false := by decide
theorem test_wf_dandCmd_known_code : (Instr.dandCmd [0x80, 0x00]).wf = false := by decide
theorem test_wf_payload_too_long : (Instr.loopback (List.replicate 49 0)).wf = false := by decide
theorem test_fits_longest : (Instr.loopback (List.replicate 48 0)).fits 468 = true := by decide
theorem test_fits_too_long : (Instr.hlta (List.replicate 50 0)).fits 468 = false := by decide
theorem test_config_reset_is_wf : configWf State.reset.cfg = true := by decide
theorem test_config_overlap :
    configWf { Cfg.testT1 with region := { Cfg.testT1.region with rom2 := ⟨0x3FFC, 0x18000, .plainLittle⟩ } } = false := by
  decide
theorem test_config_region_alignment :
    configWf { Cfg.testT1 with region := { Cfg.testT1.region with rom1 := ⟨0, 0x3FFE, .plainLittle⟩ } } = false := by
  decide
theorem test_config_page_table_length :
    configWf { Cfg.testT1 with live := { Cfg.testT1.live with pageAccess := [.readWrite] } } = false := by decide
theorem test_config_window_in_nvm : configWf { Cfg.testT1 with mailboxBase := 0x00010100 } = false := by decide
theorem test_config_reply_too_long : configWf { Cfg.testT1 with ratsReply := List.replicate 49 0 } = false := by decide

/-! ## Decoding: one frame of each row, bit by bit (V0, V4, V5, V7, V8, V9) -/

theorem test_decode_reqa : decode 468 [false, true, true, false, false, true, false] = .instr .reqa := by decide
theorem test_decode_wupa : decode 468 [false, true, false, false, true, false, true] = .instr .wupa := by decide
theorem test_decode_timeslot : decode 468 [true, false, true, false, true, true, false] = .instr .timeslot := by decide

/-- V0 `A: 93 35 04 +b10000`. -/
theorem test_decode_sel1Ac_bits :
    decode 468 (groups [0b110010011, 0b101011001, 0b001000000] ++ [true, false, false, false, false]) =
      .instr (.sel1Ac 0x35
        [false, false, true, false, false, false, false, false, true, false, false, false, false]) := by
  decide

/-- V0 `A: 95 34 33 +b0010`. -/
theorem test_decode_sel2Ac_bits :
    decode 468 (groups [0b101010011, 0b001011000, 0b110011001] ++ [false, false, true, false]) =
      .instr (.sel2Ac 0x34
        [true, true, false, false, true, true, false, false, false, false, true, false]) := by
  decide

theorem test_decode_hlta :
    decode 468
        (groups
          [0b000010101, 0b000000001, 0b111010100, 0b101100110]) =
      .instr (.hlta [0x00]) := by
  decide

theorem test_decode_ratsDand :
    decode 468
        (groups
          [0b111000101, 0b101000100, 0b111001100]) =
      .instr (.ratsDand []) := by
  decide

theorem test_decode_deselectDand :
    decode 468
        (groups
          [0b000100101, 0b010011011, 0b111110011]) =
      .instr (.deselectDand []) := by
  decide

theorem test_decode_t2tRead :
    decode 468
        (groups
          [0b000011001, 0b001000000, 0b011001000, 0b011101111]) =
      .instr (.t2tRead [0x04]) := by
  decide

theorem test_decode_dandCmd_noCode :
    decode 468
        (groups
          [0b100000000, 0b111011101, 0b000000100]) =
      .instr (.dandCmd []) := by
  decide

theorem test_decode_dandCmd_unknownCode :
    decode 468
        (groups
          [0b100000000, 0b110000010, 0b000000001, 0b000000001, 0b000000001, 0b000000001, 0b100000000, 0b001001010]) =
      .instr (.dandCmd [0x83, 0x00, 0x00, 0x00, 0x00]) := by
  decide

theorem test_decode_sel1Ac_aligned :
    decode 468
        (groups
          [0b110010011, 0b000001000]) =
      .instr (.sel1Ac 0x20 []) := by
  decide

theorem test_decode_sel1Select :
    decode 468
        (groups
          [0b110010011, 0b000011100, 0b001000000, 0b100001010, 0b010011011, 0b110000111, 0b001010111, 0b110110010,
            0b101000001]) =
      .instr (.sel1Select [0x70, 0x04, 0xA1, 0xB2, 0xC3, 0xD4]) := by
  decide

theorem test_decode_sel2Select :
    decode 468
        (groups
          [0b101010011, 0b000011100, 0b110011001, 0b001000101, 0b101010101, 0b011001101, 0b001000101, 0b001101110,
            0b110001011]) =
      .instr (.sel2Select [0x70, 0x33, 0x44, 0x55, 0x66, 0x44]) := by
  decide

theorem test_decode_sel3Ac_aligned :
    decode 468
        (groups
          [0b111010010, 0b000011001, 0b001000000]) =
      .instr (.sel3Ac 0x30 [false, false, true, false, false, false, false, false]) := by
  decide

theorem test_decode_sel3Select :
    decode 468
        (groups
          [0b111010010, 0b000011100, 0b110011001, 0b001000101, 0b101010101, 0b011001101, 0b001000101, 0b111010100,
            0b001010010]) =
      .instr (.sel3Select [0x70, 0x33, 0x44, 0x55, 0x66, 0x44]) := by
  decide

theorem test_decode_readWord :
    decode 468
        (groups
          [0b100000000, 0b000000010, 0b000001000, 0b000000001, 0b000000001, 0b000010000, 0b111110000, 0b011001000]) =
      .instr (.readWord [0x20, 0x00, 0x00, 0x10]) := by
  decide

theorem test_decode_readHalfword :
    decode 468
        (groups
          [0b100000000, 0b100000011, 0b000001000, 0b000000001, 0b000000001, 0b010010001, 0b100100100, 0b011100000]) =
      .instr (.readHalfword [0x20, 0x00, 0x00, 0x12]) := by
  decide

theorem test_decode_readByte :
    decode 468
        (groups
          [0b100000000, 0b010000011, 0b000001000, 0b000000001, 0b000000001, 0b110010000, 0b001100001, 0b010000000]) =
      .instr (.readByte [0x20, 0x00, 0x00, 0x13]) := by
  decide

theorem test_decode_writeWord :
    decode 468
        (groups
          [0b100000000, 0b000011100, 0b000001000, 0b000000001, 0b000000001, 0b000010000, 0b010100111, 0b011111110,
            0b010111010, 0b011111011, 0b000010000, 0b011101100]) =
      .instr (.writeWord [0x20, 0x00, 0x00, 0x10, 0xCA, 0xFE, 0xBA, 0xBE]) := by
  decide

theorem test_decode_writeHalfword :
    decode 468
        (groups
          [0b100000000, 0b100011101, 0b000001000, 0b000000001, 0b000000001, 0b010010001, 0b011111011, 0b111101110,
            0b011010110, 0b000010101]) =
      .instr (.writeHalfword [0x20, 0x00, 0x00, 0x12, 0xBE, 0xEF]) := by
  decide

theorem test_decode_writeByte :
    decode 468
        (groups
          [0b100000000, 0b010011101, 0b000000100, 0b100000000, 0b000000001, 0b000000001, 0b100000000, 0b101011010,
            0b100110000]) =
      .instr (.writeByte [0x40, 0x01, 0x00, 0x00, 0x01]) := by
  decide

theorem test_decode_call :
    decode 468
        (groups
          [0b100000000, 0b000010011, 0b111111111, 0b101101111, 0b100101110]) =
      .instr (.call [0xFF]) := by
  decide

theorem test_decode_sendMessage :
    decode 468
        (groups
          [0b100000000, 0b000001101, 0b101000001, 0b000011001, 0b101100110]) =
      .instr (.sendMessage [0x05]) := by
  decide

theorem test_decode_loopback :
    decode 468
        (groups
          [0b100000000, 0b111111111, 0b011110111, 0b101101010, 0b011111011, 0b111101110, 0b111010111, 0b111110110]) =
      .instr (.loopback [0xDE, 0xAD, 0xBE, 0xEF]) := by
  decide

/-- V5 row 7: `NVB` 0x60 with 9 bytes is neither in AC form nor in SELECT form. -/
theorem test_decode_malformed_select :
    decode 468 (encodeBytes [0x93, 0x60, 0x04, 0xA1, 0xB2, 0xC3, 0xD4, 0x2B, 0x47]) =
      .instr (.sel1Select [0x60, 0x04, 0xA1, 0xB2, 0xC3, 0xD4]) := by
  decide

/-- V3 rows 1, 2, 9, 10 and 13, V4 row 17: what carries no instruction. -/
theorem test_decode_rejects :
    decode 468 (encodeBytes [0x01, 0xFF, 0xDE, 0xAD, 0xBE, 0xEF, 0xD7, 0x20]) = .rejected .checksum ∧
      decode 468 (groups [0b110010010, 0b000001000]) = .rejected .parity ∧
      decode 468 (encodeBytes [0x50, 0x00]) = .rejected .checksum ∧
      decode 468 (encodeBytes [0x93, 0x70, 0x04]) = .rejected .checksum ∧
      decode 468 (List.replicate 17 false) = .rejected .badLength ∧
      decode 468 (groups [0b011001000, 0b101011001, 0b001000000] ++ [true, false, false, false, false]) =
        .rejected .unknownAc ∧
      decode 468 (encodeStandard [0x26]) = .rejected .unknownStandard := by
  decide

/-- V1: the types of the frames by their length. -/
theorem test_frame_types :
    [0, 6, 8, 10, 17, 26, 53, 55, 62, 469, 477].map (frameTypeOf 468) = List.replicate 11 .error ∧
      [9, 18, 27, 54, 81, 468].map (frameTypeOf 468) = List.replicate 6 .standard ∧
      [19, 25, 32, 46, 52].map (frameTypeOf 468) = List.replicate 5 .anticollision ∧ frameTypeOf 468 7 = .short := by
  decide

/-- V0: the check values of CRC_A. -/
theorem test_crc :
    crcA [] = 0x6363 ∧ crcA [0x00, 0x00] = 0x1EA0 ∧ crcA [0x12, 0x34] = 0xCF26 ∧ crcBytes [0x50, 0x00] = [0x57, 0xCD] ∧
      crcA [0x50, 0x00, 0x57] = 0x00CD := by
  decide

/-- V0: raw images of HLTA and of an anticollision frame. -/
theorem test_encode_images :
    encode (.hlta [0x00]) = groups [0b000010101, 0b000000001, 0b111010100, 0b101100110] ∧
      encode (.sel1Ac 0x21 [false]) = groups [0b110010011, 0b100001001] ++ [false] := by
  decide

/-- Table words: `B[0]` is the most significant byte of a two-byte selector (30_encoding.md R103). -/
theorem test_table_words :
    decodeTableWord 7 0x26 = some .reqa ∧ decodeTableWord 8 0x50 = some (.hlta []) ∧
      decodeTableWord 16 0x9300 = some (.sel1Ac 0x00 []) ∧
      decodeTableWord 16 0x9770 = some (.sel3Select [0x70, 0x00, 0x00, 0x00, 0x00, 0x00]) ∧
      decodeTableWord 16 0x0171 = some (.writeHalfword [0x00, 0x00, 0x00, 0x00, 0x00, 0x00]) ∧
      decodeTableWord 16 0x01FF = some (.loopback []) := by
  decide

theorem test_fetch_runs_the_word :
    step (State.reset.withFetchWord 8 0x52) =
      .next
        { State.reset with
          tagState := .ready1, resp := ⟨16, true, false, padBytes 48 [0x04, 0x00]⟩ } := by
  rfl

/-! ## Effects (V2 to V10, P1 to P4) -/

theorem test_reqa : answer (.frameReceived (encode .reqa)) (inState .halt) = some ([0x04, 0x00], .ready0, 0) := by decide
theorem test_reqa_ready :
    answer (.frameReceived (encode .reqa)) (inState .ready0) = some ([0xAF, 0x03, 0x0C], .ready0, 0) := by decide
theorem test_wupa : answer (.frameReceived (encode .wupa)) (inState .idle) = some ([0x04, 0x00], .ready1, 0) := by decide
theorem test_hlta : answerBytes [0x50, 0x00, 0x57, 0xCD] (inState .protDand) = some ([], .halt, 0) := by decide
theorem test_hlta_any_payload : answerBytes [0x50, 0xFF, 0x2F, 0xC2] (inState .active0) = some ([], .halt, 0) := by decide
theorem test_ratsDand :
    answerBytes [0x47, 0x45, 0x67] (inState .active1) = some ([0x47, 0x45, 0x67], .protDand, 0) := by decide
theorem test_ratsDand_ready :
    answerBytes [0x47, 0x45, 0x67] (inState .ready1) = some ([0xAF, 0x03, 0x0C], .ready1, 0) := by decide
theorem test_deselectDand :
    answerBytes [0x48, 0xB2, 0x9F] (inState .protDand) = some ([0x48, 0xB2, 0x9F], .halt, 0) := by decide
theorem test_timeslot_refused : answer (.frameReceived (encode .timeslot)) (inState .idle) = none := by decide
theorem test_t2tRead_refused : answer (.frameReceived (encode (.t2tRead []))) (inState .idle) = none := by decide

/-- V4 row 8. -/
theorem test_sel1Ac :
    answerBits (encode (.sel1Ac 0x35 [false, false, true, false, false, false, false, false, true, false, false, false,
        false])) (inState .ready0) =
      some [true, false, true, false, true, false, false, true, true, false, true, true, true, false, false, false, false,
        true, true, false, false, true, false, true, false, true, true] := by
  decide

/-- V4 rows 7 and 11. -/
theorem test_sel1Ac_mismatch :
    answer (.frameReceived (encode (.sel1Ac 0x21 [true]))) (inState .ready1) = some ([], .halt, 0) ∧
      answer (.frameReceived (encode (.sel1Ac 0x25 (bitsOfByte 0x04 ++ [true, false, false, false, false]))))
          (inState .ready1) = some ([0xAF, 0x03, 0x0C], .ready1, 0) := by
  decide

/-- V5 rows 1 and 3. -/
theorem test_sel1Select :
    answerBytes [0x93, 0x70, 0x04, 0xA1, 0xB2, 0xC3, 0xD4, 0x9B, 0x05] (inState .ready0) =
        some ([0x00, 0xFE, 0x51], .active0, 0) ∧
      answerBytes [0x93, 0x70, 0x04, 0xA1, 0xB2, 0xC3, 0xD5, 0x12, 0x14] (inState .ready1) = some ([], .halt, 0) := by
  decide

/-- P3 steps 3 and 6. -/
theorem test_sel1Select_cascade :
    answerBytes [0x93, 0x70, 0x88, 0x04, 0x11, 0x22, 0xBF, 0xB3, 0xF9] (inState2 .ready1 0) =
      some ([0x04, 0xDA, 0x17], .ready1, 1) := by
  decide
theorem test_sel2Select :
    answerBytes [0x95, 0x70, 0x33, 0x44, 0x55, 0x66, 0x44, 0xEC, 0xA3] (inState2 .ready1 1) =
      some ([0x00, 0xFE, 0x51], .active1, 0) := by
  decide

/-- P3 step 5. -/
theorem test_sel2Ac :
    answerBits (encode (.sel2Ac 0x34 (bitsOfByte 0x33 ++ [false, false, true, false]))) (inState2 .ready1 1) =
      some [false, false, true, false, true, false, true, false, true, false, true, false, false, true, true, false, false,
        true, true, false, false, false, true, false, false, false, true, false] := by
  decide

/-- P3's side branches: level 3 of a UID of two levels. -/
theorem test_sel3Select :
    answerBytes [0x97, 0x70, 0x33, 0x44, 0x55, 0x66, 0x44, 0x57, 0x94] (inState2 .ready1 1) = some ([], .halt, 0) := by
  decide
theorem test_sel3Ac : answerBytes [0x97, 0x20] (inState2 .ready0 1) = some ([], .idle, 0) := by decide

/-- V7 rows 1 and 6. -/
theorem test_readWord :
    answerBytes [0x01, 0x80, 0x20, 0x00, 0x00, 0x10, 0x1F, 0x26] (inState .protDand) =
      some ([0x80, 0x11, 0x22, 0x33, 0x44, 0x70, 0x7B], .protDand, 0) := by
  decide
theorem test_readWord_misaligned :
    answerBytes [0x01, 0x80, 0x20, 0x00, 0x00, 0x12, 0x0D, 0x05] (inState .protDand) =
      some ([0xDD, 0x96, 0x5C], .protDand, 0) := by
  decide

/-- V7 rows 4 and 5. -/
theorem test_readHalfword :
    answerBytes [0x01, 0x81, 0x20, 0x00, 0x00, 0x12, 0x49, 0x0E] (inState .protDand) =
      some ([0x81, 0x11, 0x22, 0x7D, 0x7D], .protDand, 0) := by
  decide
theorem test_readHalfword_misaligned :
    answerBytes [0x01, 0x81, 0x20, 0x00, 0x00, 0x11, 0xD2, 0x3C] (inState .protDand) =
      some ([0xDD, 0x96, 0x5C], .protDand, 0) := by
  decide

/-- V7 rows 13 and 35. -/
theorem test_readByte :
    answerBytes [0x01, 0x82, 0x00, 0x00, 0x01, 0x00, 0x9D, 0xB6] (inState .protDand) =
      some ([0x82, 0x5A, 0x03, 0x5C], .protDand, 0) := by
  decide
theorem test_readByte_page_noAccess :
    answerBytes [0x01, 0x82, 0x00, 0x01, 0x01, 0x80, 0x49, 0x68] (inState .protDand) =
      some ([0xC0, 0xF2, 0x97], .protDand, 0) := by
  decide

/-- V7 rows 16 and 23. -/
theorem test_writeWord :
    (after (.frameReceived (encodeBytes [0x01, 0x70, 0x20, 0x00, 0x00, 0x10, 0xCA, 0xFE, 0xBA, 0xBE, 0x10, 0x6E]))
        (inState .protDand)).env.mem =
      [(0x100, 0x5A), (0x20000010, 0xBE), (0x20000011, 0xBA), (0x20000012, 0xFE), (0x20000013, 0xCA)] := by
  decide
theorem test_writeWord_protected :
    answerBytes [0x01, 0x70, 0x00, 0x00, 0x3F, 0xFC, 0x01, 0x02, 0x03, 0x04, 0x93, 0x5B] (inState .protDand) =
      some ([0xD0, 0x73, 0x87], .protDand, 0) := by
  decide

/-- P2 step 9, and V7 row 21. -/
theorem test_writeHalfword :
    (after (.frameReceived (encodeBytes [0x01, 0x71, 0x20, 0x00, 0x3F, 0xFE, 0x12, 0x34, 0xDE, 0x6C]))
        (inState .protDand)).mailbox[63] = 0x12340000 := by
  decide
theorem test_writeHalfword_misaligned :
    answerBytes [0x01, 0x71, 0x20, 0x00, 0x00, 0x13, 0xBE, 0xEF, 0x0A, 0x0A] (inState .protDand) =
      some ([0xDD, 0x96, 0x5C], .protDand, 0) := by
  decide

/-- V7 rows 12 and 42. -/
theorem test_writeByte :
    answerBytes [0x01, 0x72, 0x40, 0x01, 0x00, 0x00, 0x01, 0xB5, 0x19] (inState .protDand) =
      some ([0x72, 0x6B, 0x01], .protDand, 0) := by
  decide
theorem test_writeByte_length :
    answerBytes [0x01, 0x72, 0x20, 0x00, 0x00, 0x10, 0x01, 0x02, 0x4D, 0xC8] (inState .protDand) =
      some ([0xAF, 0x03, 0x0C], .protDand, 0) := by
  decide

/-- V8 row 1, P2 step 3. -/
theorem test_call :
    answerBytes [0x01, 0x90, 0x01, 0x1C, 0xF7] (inState .protDand) =
      some ([0x90, 0x20, 0x00, 0x3F, 0x00, 0x7A, 0x84], .protDand, 0) := by
  decide
theorem test_call_add :
    (after (.frameReceived (encodeBytes [0x01, 0x90, 0x10, 0x14, 0xF6]))
        { inState .protDand with mailbox := ((Vector.replicate 64 0).set 0 5).set 1 7 }).mailbox[2] = 12 := by
  decide

/-- V8 rows 7 and 9. -/
theorem test_sendMessage_absent :
    answerBytes [0x01, 0x60, 0x05, 0x30, 0xCD] (inState .protDand) = some ([0xAF, 0x03, 0x0C], .protDand, 0) := by decide
theorem test_sendMessage_disabled :
    answerBytes [0x01, 0x60, 0x05, 0x30, 0xCD]
        (changeConfig { Cfg.testT1.live with messageEnable := false } (inState .protDand)) =
      some ([0xED, 0x15, 0x6D], .protDand, 0) := by
  decide

/-- V9 row 2, V10 row 6. -/
theorem test_loopback :
    answerBytes [0x01, 0xFF, 0xDE, 0xAD, 0xBE, 0xEF, 0xD7, 0xDF] (inState .protDand) =
      some ([0xFF, 0xDE, 0xAD, 0xBE, 0xEF, 0x19, 0xEC], .protDand, 0) := by
  decide
theorem test_loopback_outside_session :
    answerBytes [0x01, 0xFF, 0xDE, 0xAD, 0xBE, 0xEF, 0xD7, 0xDF] (inState .idle) =
      some ([0xAF, 0x03, 0x0C], .idle, 0) := by
  decide

/-- V7 rows 43 and 45. -/
theorem test_dandCmd :
    answerBytes [0x01, 0x77, 0x40] (inState .protDand) = some ([0xAF, 0x03, 0x0C], .protDand, 0) ∧
      answerBytes [0x01, 0x83, 0x00, 0x00, 0x00, 0x00, 0x01, 0xA4] (inState .protDand) =
        some ([0xAF, 0x03, 0x0C], .protDand, 0) := by
  decide

/-- V3 rows 1 to 3. -/
theorem test_transport_errors :
    answerBytes [0x01, 0xFF, 0xDE, 0xAD, 0xBE, 0xEF, 0xD7, 0x20] (inState .protDand) =
        some ([0xAA, 0xAE, 0x5B], .protDand, 0) ∧
      answer (.frameReceived (groups [0b100000000, 0b111111111, 0b011110110])) (inState .protDand) =
        some ([0xA5, 0x59, 0xA3], .protDand, 0) := by
  decide

/-- V10 rows 1 and 5. -/
theorem test_field_lost : answer .fieldLost (inState2 .ready1 1) = some ([], .idle, 0) := by decide
theorem test_reset : answer .reset (inState .protDand) = some ([], .idle, 0) := by decide
theorem test_reset_registry : registered (after .reset (inState .protDand)) 0x10 = none := by decide

/-! ## Witnesses: for each statement with hypotheses, states and operands that meet them, clause by clause -/

/-- Every session below has a well-formed configuration. -/
theorem wit_config (t : TagState) : configWf (inState t).cfg = true := by cases t <;> decide

theorem witness_StepRunsDecodedInstruction :
    (∃ (s : State) (rx : List Bool) (rest : List Event) (i : Instr) (r t : State),
      configWf s.cfg = true ∧ s.inputs = .frameReceived rx :: rest ∧ decode s.cfg.rxMaxBits rx = .instr i ∧
        r = { s with
              inputs := rest, resp := freshResponse, frame := some (classify s.cfg.rxMaxBits rx)
              req := (classify s.cfg.rxMaxBits rx).request.getD s.req } ∧
        exec i r = .next t) ∧
      ∃ (s : State) (rx : List Bool) (rest : List Event) (i : Instr) (r : State) (e : Refusal),
        configWf s.cfg = true ∧ s.inputs = .frameReceived rx :: rest ∧ decode s.cfg.rxMaxBits rx = .instr i ∧
          r = { s with
                inputs := rest, resp := freshResponse, frame := some (classify s.cfg.rxMaxBits rx)
                req := (classify s.cfg.rxMaxBits rx).request.getD s.req } ∧
          exec i r = .refused e :=
  ⟨⟨coming (encode .reqa) (inState .idle), encode .reqa, [], .reqa, _, _, by decide, rfl, by decide, rfl, rfl⟩,
    coming (encode .timeslot) (inState .idle), encode .timeslot, [], .timeslot, _, _, by decide, rfl, by decide, rfl,
    rfl⟩

theorem witness_ErrorFrameIsDropped :
    (∃ rx rest, (coming (List.replicate 469 false) (inState .active1)).inputs = .frameReceived rx :: rest ∧
        configWf (coming (List.replicate 469 false) (inState .active1)).cfg = true ∧
        frameTypeOf (coming (List.replicate 469 false) (inState .active1)).cfg.rxMaxBits rx.length = .error) ∧
      frameTypeOf 468 0 = .error ∧ frameTypeOf 468 8 = .error ∧ frameTypeOf 468 469 = .error :=
  ⟨⟨_, _, rfl, by decide, by decide⟩, by decide, by decide, by decide⟩

/-- Every frame, in every protocol state, meets the first three hypotheses of the statements about received frames. -/
theorem wit_frame (t : TagState) (rx : List Bool) :
    configWf (coming rx (inState t)).cfg = true ∧ (coming rx (inState t)).inputs = .frameReceived rx :: [] ∧
      classify 468 rx = classify (coming rx (inState t)).cfg.rxMaxBits rx :=
  ⟨wit_config t, rfl, rfl⟩

/-- A wrong parity bit in a standard and in an anticollision frame; frames of one and two bytes, too short for a
checksum; a wrong checksum. With `wit_frame` each meets all hypotheses. -/
theorem witness_TransportErrorsAreAnswered :
    (let f := classify 468 (groups [0b110010010, 0b000001000]);
      f.frameType = .standard ∧ f.parityOk = false) ∧
      (let f := classify 468 (groups [0b110010010, 0b100001001] ++ [false]);
        f.frameType = .anticollision ∧ f.parityOk = false) ∧
      (let f := classify 468 (encodeBytes [0x50]);
        f.frameType = .standard ∧ f.parityOk = true ∧ isAcForm f = false ∧ f.bytes.length < 3) ∧
      (let f := classify 468 (encodeBytes [0x50, 0x00]);
        f.frameType = .standard ∧ f.parityOk = true ∧ isAcForm f = false ∧ f.bytes.length < 3) ∧
      let f := classify 468 (encodeBytes [0x50, 0x00, 0x57, 0x32]);
      f.frameType = .standard ∧ f.parityOk = true ∧ isAcForm f = false ∧ f.bytes = [0x50, 0x00] ++ [0x57, 0x32] ∧
        (crcA [0x50, 0x00]).toNat ≠ (0x57 : Byte).toNat + 256 * (0x32 : Byte).toNat := by
  decide

/-- One frame for each of the three cases. With `wit_frame` each meets all hypotheses. -/
theorem witness_UnknownLinkCodesAreAnswered :
    (let f := classify 468 (encodeShort 0x7F);
      f.frameType = .short ∧ f.command ∉ ([0x26, 0x52, 0x35] : List Byte)) ∧
      (let f := classify 468 (encodeAc 0x26 0x21 [true]);
        f.frameType = .anticollision ∧ f.parityOk = true ∧ f.command ∉ ([0x93, 0x95, 0x97] : List Byte)) ∧
      let f := classify 468 (encodeStandard [0x26]);
      f.frameType = .standard ∧ f.parityOk = true ∧ crcOk f.bytes = true ∧
        f.command ∉ ([0x50, 0x93, 0x95, 0x97, 0x47, 0x48, 0x01, 0x30] : List Byte) := by
  decide

theorem witness_WaitingChangesNothing : configWf State.reset.cfg = true ∧ State.reset.inputs = [] := by decide

/-- The new configuration values that would be ill formed: a page table of the wrong length. -/
def badLive : LiveConfig := { Cfg.testT1.live with pageAccess := [] }

theorem witness_OnlyRefusals :
    (∃ s e, configWf s.cfg = true ∧ step s = .refused e ∧ e = .timeslotWithoutHandler) ∧
      (∃ s e, configWf s.cfg = true ∧ step s = .refused e ∧ e = .t2tReadWithoutHandler) ∧
      ∃ s e, configWf s.cfg = true ∧ step s = .refused e ∧ e = .illFormedConfig :=
  ⟨⟨coming (encode .timeslot) (inState .idle), _, by decide, rfl, rfl⟩,
    ⟨coming (encode (.t2tRead [])) (inState .idle), _, by decide, rfl, rfl⟩,
    next (.configChange badLive) (inState .idle), _, by decide, rfl, rfl⟩

theorem witness_ResetEventLeaves :
    configWf (next .reset (inState .protDand)).cfg = true ∧ (next .reset (inState .protDand)).inputs = .reset :: [] :=
  ⟨by decide, rfl⟩

theorem witness_FieldLossForcesIdle :
    configWf (next .fieldLost (inState2 .ready1 1)).cfg = true ∧
      (next .fieldLost (inState2 .ready1 1)).inputs = .fieldLost :: [] :=
  ⟨by decide, rfl⟩

/-- The frame of 95_test_vectors.md V10 row 3. -/
def cutRx : List Bool := encode (.writeWord [0x20, 0x00, 0x00, 0x10, 0xCA, 0xFE, 0xBA, 0xBE])

theorem witness_CutFrameIsAllOrNothing :
    (∀ cut done, configWf (next (.frameCut cutRx cut done) (inState .protDand)).cfg = true ∧
      (next (.frameCut cutRx cut done) (inState .protDand)).inputs = .frameCut cutRx cut done :: []) ∧
      (∃ u, step (coming cutRx (inState .protDand)) = .next u) ∧
      ∃ e, step (coming (encode .timeslot) (inState .protDand)) = .refused e :=
  ⟨fun _ _ => ⟨wit_config .protDand, rfl⟩, ⟨_, rfl⟩, ⟨_, rfl⟩⟩

theorem witness_RegisterStoresOneCallback :
    configWf (next (.register 0xFF .testAdd) (inState .idle)).cfg = true ∧
      (next (.register 0xFF .testAdd) (inState .idle)).inputs = .register 0xFF .testAdd :: [] ∧
      (0x01 : Byte) ≠ 0xFF :=
  ⟨by decide, rfl, by decide⟩

theorem witness_InitialisationRegistersAll :
    configWf ({ State.reset with inputs := initialisation State.reset.cfg } : State).cfg = true ∧
      ({ State.reset with inputs := initialisation State.reset.cfg } : State).inputs =
        initialisation State.reset.cfg :=
  ⟨by decide, rfl⟩

theorem witness_ConfigChangeReplacesItsInputs :
    configWf (next (.configChange badLive) (inState .idle)).cfg = true ∧
      (next (.configChange badLive) (inState .idle)).inputs = .configChange badLive :: [] ∧
      configWf { (inState .idle).cfg with live := badLive } = false ∧
      configWf { (inState .idle).cfg with live := { Cfg.testT1.live with callEnable := false } } = true :=
  ⟨by decide, rfl, by decide, by decide⟩

/-- One configuration for each of the seven ways to be ill formed. -/
theorem witness_IllFormedConfigIsRefused :
    (∃ r t : Owner, r ≠ t ∧
        let c := { Cfg.testT1 with region := { Cfg.testT1.region with rom2 := ⟨0x3FFC, 0x18000, .plainLittle⟩ } };
        (ofOwner c.region r).start ≤ 0x3FFF ∧ 0x3FFF < (ofOwner c.region r).stop ∧
          (ofOwner c.region t).start ≤ 0x3FFF ∧ 0x3FFF < (ofOwner c.region t).stop) ∧
      (let c := { Cfg.testT1 with mailboxBase := 0x0000FF04 };
        c.mailboxBase ≤ 0x00010000 ∧ 0x00010000 < c.mailboxBase + 256 ∧ c.nvmStart ≤ 0x00010000 ∧ 0x00010000 < c.nvmStop) ∧
      (⟨0, 0x3FFE, .plainLittle⟩ : Region).stop % 4 ≠ 0 ∧ (⟨2, 0x4000, .plainLittle⟩ : Region).start % 4 ≠ 0 ∧
      ({ Cfg.testT1 with nvmStart := 0x00010001 } : Cfg).nvmStart % 4 ≠ 0 ∧
      ({ Cfg.testT1 with nvmStop := 0x00010202 } : Cfg).nvmStop % 4 ≠ 0 ∧
      ({ Cfg.testT1 with nvmPageSize := 127 } : Cfg).nvmPageSize % 4 ≠ 0 ∧
      ({ Cfg.testT1 with mailboxBase := 0x20003F03 } : Cfg).mailboxBase % 4 ≠ 0 :=
  ⟨⟨.rom1, .rom2, by decide⟩, by decide⟩

theorem witness_ConfigurationConstantsNeverChange :
    (∃ s t, step s = .next t ∧ ∀ new rest, s.inputs ≠ .configChange new :: rest) ∧
      ∃ s t, step s = .next t ∧ t.cfg.live.callEnable ≠ s.cfg.live.callEnable :=
  ⟨⟨next .reset (inState .idle), _, rfl, fun _ _ h => by simp [next] at h⟩,
    next (.configChange { Cfg.testT1.live with callEnable := false }) (inState .idle), _, rfl, by decide⟩

theorem witness_RegistryChangesOnlyByRegisterOrReset :
    (∃ s t, step s = .next t ∧ t.registry ≠ s.registry ∧ s.inputs = [.register 0xFF .testAdd]) ∧
      (∃ s t, step s = .next t ∧ t.registry ≠ s.registry ∧ s.inputs = [.reset]) ∧
      ∃ s t, step s = .next t ∧ t.registry ≠ s.registry ∧ s.inputs = [.frameCut cutRx .reset false] :=
  ⟨⟨next (.register 0xFF .testAdd) (inState .idle), _, rfl,
      fun h => absurd (congrArg (fun r : Vector (Option Callback) 256 => r[255]) h) (by decide), rfl⟩,
    ⟨next .reset (inState .idle), _, rfl,
      fun h => absurd (congrArg (fun r : Vector (Option Callback) 256 => r[1]) h) (by decide), rfl⟩,
    next (.frameCut cutRx .reset false) (inState .idle), _, rfl,
    fun h => absurd (congrArg (fun r : Vector (Option Callback) 256 => r[1]) h) (by decide), rfl⟩

/-- A state in the middle of a selection meets the invariant and steps. -/
theorem witness_EveryStepKeepsInvariant :
    (coming (encode .reqa) (inState2 .ready1 1)).Inv ∧ ∃ t, step (coming (encode .reqa) (inState2 .ready1 1)) = .next t :=
  ⟨⟨by decide, by decide, by decide, ⟨by decide, by decide, fun _ => rfl⟩, rfl, rfl⟩, _, rfl⟩

/-- The longest frame of each shape fits the default buffer exactly, and the longest AC form has 32 UID bits. -/
theorem witness_DecodeOfEncode :
    ((Instr.loopback (List.replicate 48 0)).wf = true ∧ (Instr.loopback (List.replicate 48 0)).fits 468 = true) ∧
      ((Instr.hlta (List.replicate 49 0)).wf = true ∧ (Instr.hlta (List.replicate 49 0)).fits 468 = true) ∧
      ((Instr.dandCmd []).wf = true ∧ (Instr.dandCmd []).fits 27 = true) ∧
      ((Instr.sel3Ac 0x60 (List.replicate 32 true)).wf = true ∧
        (Instr.sel3Ac 0x60 (List.replicate 32 true)).fits 54 = true) ∧
      (Instr.sel1Select [0x70]).wf = true ∧ (Instr.sel1Select [0x70]).fits 36 = true ∧
      Instr.reqa.wf = true ∧ Instr.reqa.fits 0 = true := by
  decide

theorem witness_EncodeOfDecode : decode 0 (encodeShort 0x26) = .instr .reqa := by decide

theorem witness_ErrorFrameLengths :
    (classify 468 []).frameType = .error ∧ (classify 468 (List.replicate 8 true)).frameType = .error ∧
      (classify 8 (List.replicate 9 true)).frameType = .error := by
  decide

theorem witness_ParityFlagIsExact :
    (let groups : List (Byte × Bool) := [(0x93, true), (0x20, true)];
      frameTypeOf 468 ((groups.flatMap fun g : Byte × Bool => bitsOfByte g.1 ++ [g.2]) ++ []).length = .standard) ∧
      let groups : List (Byte × Bool) := [(0x93, true), (0x21, true)];
      frameTypeOf 468 ((groups.flatMap fun g : Byte × Bool => bitsOfByte g.1 ++ [g.2]) ++ List.replicate 7 true).length =
        .anticollision := by
  decide

theorem witness_RequestIsExtracted :
    (classify 468 (encodeStandard (0x01 :: 0x80 :: List.replicate 48 0xFF))).frameType = .standard ∧
      (classify 468 (encodeStandard [0x01, 0x80])).bytes = 0x01 :: 0x80 :: [] ++ crcBytes [0x01, 0x80] ∧
      (classify 468 (encodeBytes [0x01, 0x77, 0x40])).bytes.length = 3 ∧
      (classify 468 (encodeStandard [0x50, 0x00])).bytes.head? ≠ some 0x01 ∧
      (classify 477 (encodeStandard (0x01 :: 0x80 :: List.replicate 49 0xFF))).frameType = .standard ∧
      (classify 477 (encodeStandard (0x01 :: 0x80 :: List.replicate 49 0xFF))).bytes.length = 53 ∧
      (classify 468 (encodeShort 0x01)).frameType ≠ .standard ∧
      (classify 468 (encodeAc 0x01 0x21 [true])).frameType ≠ .standard ∧ (classify 468 []).frameType ≠ .standard := by
  decide

theorem witness_ChecksumTestIsZeroRemainder :
    ([0x26, 0x00] : List Byte).length < 3 ∧ ([0x50, 0x00] : List Byte) ≠ [] ∧
      3 ≤ ([0x50, 0x57, 0xCD] : List Byte).length := by
  decide

theorem witness_WakeCommands :
    (inState .idle).tagState = .idle ∧ (inState .halt).tagState = .halt ∧ (inState .ready0).tagState ≠ .idle ∧
      (inState .ready0).tagState ≠ .halt := by
  decide

theorem witness_HltaHalts :
    (∀ t ∈ [TagState.active0, .active1, .protDand], (inState t).tagState ∈ [TagState.active0, .active1, .protDand]) ∧
      ∀ t ∈ [TagState.idle, .ready0, .halt, .ready1], (inState t).tagState ∉ [TagState.active0, .active1, .protDand] := by
  decide

theorem witness_RatsDandEntersProtocol :
    (inState .active0).cfg.ratsReply.length ≤ 48 ∧ (inState .active0).tagState = .active0 ∧
      (inState .active0).cfg.ratsReply ≠ [] ∧ (inState .active1).tagState = .active1 ∧
      (let s : State := { inState .active1 with cfg := { Cfg.testT1 with ratsReply := [] } };
        s.cfg.ratsReply.length ≤ 48 ∧ s.tagState = .active1 ∧ s.cfg.ratsReply = []) ∧
      (inState .protDand).tagState ≠ .active0 ∧ (inState .protDand).tagState ≠ .active1 := by
  decide

theorem witness_DeselectDandHalts :
    (inState .protDand).cfg.deselectReply.length ≤ 48 ∧ (inState .protDand).tagState = .protDand ∧
      (inState .protDand).cfg.deselectReply ≠ [] ∧
      (let s : State := { inState .protDand with cfg := { Cfg.testT1 with deselectReply := [] } };
        s.cfg.deselectReply.length ≤ 48 ∧ s.tagState = .protDand ∧ s.cfg.deselectReply = []) ∧
      (inState .active0).tagState ≠ .protDand := by
  decide

theorem witness_AuxCommands :
    ∃ s s' : State, ∃ f, s.frame = some f ∧ s.cfg.auxPresent = true ∧ s'.frame = some f ∧ s'.cfg.auxPresent = false :=
  ⟨{ inState .idle with
      frame := some (classify 468 (encode .timeslot)), cfg := { Cfg.testT1 with auxPresent := true } },
    { inState .idle with frame := some (classify 468 (encode .timeslot)) }, _, rfl, rfl, rfl, rfl⟩

theorem witness_LinkCommandsTouchOnlyLinkState :
    (∃ t, exec .reqa (inState .idle) = .next t) ∧ (∃ t, exec (.sel3Select []) (inState .ready0) = .next t) ∧
      ∃ s t, s.cfg.auxPresent = true ∧ exec .timeslot s = .next t :=
  ⟨⟨_, rfl⟩, ⟨_, rfl⟩, { inState .idle with cfg := { Cfg.testT1 with auxPresent := true } }, _, rfl, rfl⟩

theorem witness_ProtDandIsLeftOnlyBy :
    (∃ t, step (coming (encode (.hlta [])) (inState .protDand)) = .next t ∧ t.tagState ≠ .protDand) ∧
      (∃ t, step (coming (encode (.deselectDand [])) (inState .protDand)) = .next t ∧ t.tagState ≠ .protDand) ∧
      (∃ t, step (next .fieldLost (inState .protDand)) = .next t ∧ t.tagState ≠ .protDand) ∧
      (∃ t, step (next .reset (inState .protDand)) = .next t ∧ t.tagState ≠ .protDand) ∧
      (∃ t, step (next (.frameCut cutRx .fieldLost true) (inState .protDand)) = .next t ∧ t.tagState ≠ .protDand) ∧
      (inState .protDand).tagState = .protDand ∧ (inState .protDand).cfg.auxPresent = false :=
  ⟨⟨_, rfl, by decide⟩, ⟨_, rfl, by decide⟩, ⟨_, rfl, by decide⟩, ⟨_, rfl, by decide⟩, ⟨_, rfl, by decide⟩, rfl, rfl⟩

/-- One state and operands for each branch: outside the Ready states, malformed, wrong level, mismatch, match with no bits
and with 32. -/
theorem witness_SelAcForm :
    ¬((inState .halt).tagState = .ready0 ∨ (inState .halt).tagState = .ready1) ∧
      ((inState .ready0).tagState = .ready0 ∧ ¬(2 ≤ (0x10 : Byte).toNat / 16)) ∧
      (2 ≤ (0x20 : Byte).toNat / 16 ∧ (2 : Nat) ≠ (inState .ready0).cascadeLevel + 1) ∧
      ¬([true] <+: u40 (uidCl 0x88 (inState .ready0).cfg.uid 1)) ∧
      [] <+: u40 (uidCl 0x88 (inState .ready0).cfg.uid 1) ∧
      bitsOfBytes [0x04, 0xA1, 0xB2, 0xC3] <+: u40 (uidCl 0x88 (inState .ready0).cfg.uid 1) ∧
      8 * ((0x60 : Byte).toNat / 16) + (0x60 : Byte).toNat % 16 =
        16 + (bitsOfBytes [0x04, 0xA1, 0xB2, 0xC3]).length := by
  decide

theorem witness_SelSelectForm :
    (let cl := uidCl (inState2 .ready1 1).cfg.ct (inState2 .ready1 1).cfg.uid 2;
      (inState2 .ready1 1).tagState = .ready1 ∧ (0x70 :: cl ++ [bcc cl]).length = 6 ∧
        2 = (inState2 .ready1 1).cascadeLevel + 1 ∧ ¬(2 < nLevels (inState2 .ready1 1).cfg.uid)) ∧
      (let cl := uidCl (inState2 .ready0 0).cfg.ct (inState2 .ready0 0).cfg.uid 1;
        (0x70 :: cl ++ [bcc cl]).length = 6 ∧ 1 = (inState2 .ready0 0).cascadeLevel + 1 ∧
          1 < nLevels (inState2 .ready0 0).cfg.uid) ∧
      (3 : Nat) ≠ (inState2 .ready1 1).cascadeLevel + 1 := by
  decide

theorem witness_MatchingSelectsSelectTheTag :
    (inState .idle).tagState = .idle ∧ (inState2 .halt 0).tagState = .halt ∧ nLevels (inState .idle).cfg.uid = 1 ∧
      nLevels (inState2 .halt 0).cfg.uid = 2 ∧ nLevels (.triple (Vector.replicate 10 0)) = 3 ∧
      ∃ body : Nat → List Byte,
        ∀ n, body n = 0x70 :: uidCl (inState2 .halt 0).cfg.ct (inState2 .halt 0).cfg.uid n ++
          [bcc (uidCl (inState2 .halt 0).cfg.ct (inState2 .halt 0).cfg.uid n)] :=
  ⟨rfl, rfl, rfl, rfl, rfl, _, fun _ => rfl⟩

/-- A misaligned address, the first address past a region, the first address of a page, a region's last word. -/
theorem witness_CheckVerdict :
    configWf Cfg.testT1 = true ∧ 0x50000001 % widthBytes .word ≠ 0 ∧
      (0x00004000 % widthBytes .word = 0 ∧
        ∀ r ∈ owners, ¬((ofOwner Cfg.testT1.region r).start ≤ 0x00004000 ∧ 0x00004000 < (ofOwner Cfg.testT1.region r).stop)) ∧
      ((ofOwner Cfg.testT1.region .rom2).start ≤ 0x00010180 ∧ 0x00010180 < (ofOwner Cfg.testT1.region .rom2).stop ∧
        Cfg.testT1.live.pageAccess[(0x00010180 - Cfg.testT1.nvmStart) / Cfg.testT1.nvmPageSize]? = some .noAccess) ∧
      (ofOwner Cfg.testT1.region .rom1).start ≤ 0x00003FFC ∧ 0x00003FFC < (ofOwner Cfg.testT1.region .rom1).stop ∧
      ¬(Cfg.testT1.nvmStart ≤ 0x00003FFC ∧ 0x00003FFC < Cfg.testT1.nvmStop) := by
  decide

theorem witness_CheckLaws :
    (∀ r ∈ owners, ¬((ofOwner Cfg.testT1.region r).start ≤ 0xFFFFFFFC ∧ 0xFFFFFFFC < (ofOwner Cfg.testT1.region r).stop)) ∧
      0x20000011 % widthBytes .halfword ≠ 0 ∧ configWf Cfg.testT1 = true ∧
      ofOwner Cfg.testT1.live.priv .rom1 = .readOnly ∧ (ofOwner Cfg.testT1.region .rom1).start ≤ 0x100 ∧
      0x100 < (ofOwner Cfg.testT1.region .rom1).stop ∧ ¬(Cfg.testT1.nvmStart ≤ 0x100 ∧ 0x100 < Cfg.testT1.nvmStop) := by
  decide

theorem witness_AlignedAccessDoesNotStraddle :
    configWf Cfg.testT1 = true ∧ 0x00003FFC % widthBytes .word = 0 ∧ 3 < widthBytes .word ∧
      (ofOwner Cfg.testT1.region .rom1).start ≤ 0x00003FFC ∧ 0x00003FFC < (ofOwner Cfg.testT1.region .rom1).stop := by
  decide

theorem witness_MailboxWindow :
    63 < 64 ∧ 2 + widthBytes .halfword ≤ 4 ∧ 0 + widthBytes .word ≤ 4 ∧ 3 + widthBytes .byte ≤ 4 ∧
      0xFFFF < 2 ^ (8 * widthBytes .halfword) := by
  decide

/-- Each kind of backing. -/
theorem witness_PlainWriteChangesItsBytes :
    let c := { Cfg.testT1 with region :=
      { Cfg.testT1.region with hw1 := ⟨0x40000000, 0x40001000, .plainBig⟩, hw2 := ⟨0x40010000, 0x40011000, .device⟩ } };
    configWf c = true ∧ 0x20001FFC % widthBytes .word = 0 ∧ 0x20001FFC < 2 ^ 32 ∧ inWindow c 0x20001FFC = false ∧
      backingOf c 0x20001FFC = .plainLittle ∧ inWindow c 0x40000000 = false ∧ backingOf c 0x40000000 = .plainBig ∧
      inWindow c 0x40010000 = false ∧ backingOf c 0x40010000 = .device := by
  decide

theorem witness_ReadHasNoSideEffectOnMemory :
    inWindow Cfg.testT1 0x20003F00 = true ∧ backingOf Cfg.testT1 0x20000010 ≠ .device ∧
      let c := { Cfg.testT1 with region := { Cfg.testT1.region with hw1 := ⟨0x40000000, 0x40001000, .device⟩ } };
      inWindow c 0x40000FFC = false ∧ backingOf c 0x40000FFC = .device := by
  decide

theorem witness_PlainReadGivesItsBytes :
    let c := { Cfg.testT1 with region := { Cfg.testT1.region with hw1 := ⟨0x40000000, 0x40001000, .plainBig⟩ } };
    inWindow c 0x20003EFC = false ∧ backingOf c 0x20003EFC = .plainLittle ∧ inWindow c 0x40000FFC = false ∧
      backingOf c 0x40000FFC = .plainBig ∧ 3 < widthBytes .word ∧ 0 < widthBytes .byte := by
  decide

theorem witness_DandelionOutsideProtDand :
    (inState .active0).tagState ≠ .protDand ∧
      Instr.loopback [] ∈ [Instr.dandCmd [], .readWord [], .readHalfword [], .readByte [], .writeWord [],
        .writeHalfword [], .writeByte [], .call [], .sendMessage [], .loopback []] := by
  decide

theorem witness_DandCmdHandsRequestOver :
    (inState .protDand).tagState = .protDand ∧ (List.replicate 48 (0 : Byte)).length ≤ 48 ∧ (0x83 : Byte) ∉ dandCodes ∧
      48 < (List.replicate 49 (0 : Byte)).length ∧ (List.replicate 47 (0 : Byte)).length ≤ 47 := by
  decide

/-- The three verdicts of a read and of a write, a wrong length, and four address bytes. -/
theorem witness_DandelionReads :
    (inState .protDand).tagState = .protDand ∧ ([0x20, 0x00, 0x00] : List Byte).length ≠ 4 ∧
      (∃ a3 a2 a1 a0 : Byte, [0x20, 0x00, 0x00, 0x10] = [a3, a2, a1, a0] ∧ 0x20000010 = beNat [a3, a2, a1, a0]) ∧
      check (inState .protDand).cfg 0x20000010 .word .read = .allowed ∧
      check (inState .protDand).cfg 0x20000012 .word .read = .misaligned ∧
      check (inState .protDand).cfg 0x00004000 .word .read = .denied :=
  ⟨rfl, by decide, ⟨0x20, 0x00, 0x00, 0x10, rfl, by decide⟩, by decide, by decide, by decide⟩

theorem witness_DandelionWrites :
    (inState .protDand).tagState = .protDand ∧ ([0x20, 0x00, 0x00, 0x10, 0x55] : List Byte).length ≠ 4 + widthBytes .word ∧
      (∃ (a3 a2 a1 a0 : Byte) (data : List Byte),
        [0x20, 0x00, 0x00, 0x13, 0x55] = [a3, a2, a1, a0] ++ data ∧ data.length = widthBytes .byte ∧
          0x20000013 = beNat [a3, a2, a1, a0]) ∧
      check (inState .protDand).cfg 0x20000013 .byte .write = .allowed ∧
      check (inState .protDand).cfg 0x20000013 .halfword .write = .misaligned ∧
      check (inState .protDand).cfg 0x00003FFC .word .write = .denied :=
  ⟨rfl, by decide, ⟨0x20, 0x00, 0x00, 0x13, [0x55], rfl, rfl, by decide⟩, by decide, by decide, by decide⟩

theorem witness_CallsInvokeRegisteredFunctions :
    (inState .protDand).tagState = .protDand ∧ (inState .protDand).cfg.live.callEnable = true ∧
      (changeConfig { Cfg.testT1.live with callEnable := false } (inState .protDand)).cfg.live.callEnable = false ∧
      ([] : List Byte).length ≠ 1 ∧ registered (inState .protDand) 0xFF = none ∧
      registered (inState .protDand) 0x10 = some .testAdd := by
  decide

theorem witness_InvocationTouchesMailboxAndEnvOnly : Memory.wf (inState .protDand).env.mem := by decide

theorem witness_LoopbackEchoesItsPayload :
    (inState .protDand).tagState = .protDand ∧ (List.replicate 47 (0 : Byte)).length ≤ 47 ∧
      47 < (List.replicate 48 (0 : Byte)).length ∧ (List.replicate 48 (0 : Byte)).length ≤ 48 := by
  decide

/-- T1's acknowledge codes are no error codes, and an error reply exists. -/
theorem witness_DandelionInvariants :
    (∃ t, exec (.readWord []) (inState .protDand) = .next t ∧ t.resp.payload[0] ∈ errorCodes) ∧
      ∀ c ∈ [Cfg.testT1.ackReadWord, Cfg.testT1.ackReadHalfword, Cfg.testT1.ackReadByte, Cfg.testT1.ackWriteWord,
        Cfg.testT1.ackWriteHalfword, Cfg.testT1.ackWriteByte], c ∉ errorCodes :=
  ⟨⟨_, rfl, by decide⟩, by decide⟩

/-- In plain memory, and at the last word of the mailbox window. -/
theorem witness_WriteThenReadReturnsData :
    (∃ t u, exec (.writeWord ([0x20, 0x00, 0x00, 0x10] ++ [0xCA, 0xFE, 0xBA, 0xBE])) (inState .protDand) = .next t ∧
      exec (.readWord [0x20, 0x00, 0x00, 0x10]) t = .next u) ∧
      configWf (inState .protDand).cfg = true ∧ beNat [0x20, 0x00, 0x00, 0x10] = 0x20000010 ∧
      check (inState .protDand).cfg 0x20000010 .word .write = .allowed ∧
      check (inState .protDand).cfg 0x20000010 .word .read = .allowed ∧
      backingOf (inState .protDand).cfg 0x20000010 ≠ .device ∧
      check (inState .protDand).cfg 0x20003FFC .word .write = .allowed ∧
      check (inState .protDand).cfg 0x20003FFC .word .read = .allowed ∧
      inWindow (inState .protDand).cfg 0x20003FFC = true :=
  ⟨⟨_, _, rfl, rfl⟩, by decide⟩

theorem witness_ReadTwiceIsIdentical :
    (∃ t u, exec (.readWord [0x20, 0x00, 0x00, 0x10]) (inState .protDand) = .next t ∧
      exec (.readWord [0x20, 0x00, 0x00, 0x10]) t = .next u) ∧
      ([0x20, 0x00, 0x00, 0x10] : List Byte).length = 4 ∧ beNat [0x20, 0x00, 0x00, 0x10] = 0x20000010 ∧
      backingOf (inState .protDand).cfg 0x20000010 ≠ .device ∧ inWindow (inState .protDand).cfg 0x20003F00 = true :=
  ⟨⟨_, _, rfl, rfl⟩, by decide⟩

theorem witness_ReplyPrimitives :
    1 ≤ (List.replicate 48 (0 : Byte)).length ∧ (List.replicate 48 (0 : Byte)).length ≤ 48 ∧
      1 ≤ (List.replicate 40 true).length ∧ (List.replicate 40 true).length ≤ 40 := by
  decide

end Sys2Proof.Tests
end

section
/-! The step on a received frame (00_scope.md R9, 41_link_commands.md R160): reception, then `exec` of the decoded
instruction, then the end of the per-frame storage. -/

namespace Sys2Proof.Machine

/-! ### `mapNext` -/

@[simp] theorem mapNext_next (f : State → State) (s : State) : mapNext f (.next s) = .next (f s) := rfl
@[simp] theorem mapNext_refused (f : State → State) (e : Refusal) : mapNext f (.refused e) = .refused e := rfl

/-! ### `execDecoded` -/

@[simp] theorem execDecoded_instr (i : Instr) (s : State) : execDecoded (.instr i) s = exec i s := rfl
@[simp] theorem execDecoded_rejected (r : Reject) (s : State) :
    execDecoded (.rejected r) s = .next (rejectFrame r s) := rfl

/-! ### `step` -/

/-- With a well-formed configuration a step takes the next event and handles it (00_scope.md R9). -/
theorem step_of_inputs_cons {s : State} {e : Event} {rest : List Event} (hwf : configWf s.cfg = true)
    (hin : s.inputs = e :: rest) : step s = handleEvent e { s with inputs := rest } := by
  simp [step, nextEvent, hwf, hin]

/-- A step on a received frame, whatever the frame decodes to: receive, answer, drop the per-frame storage (log 10). -/
theorem step_of_frameReceived {s : State} {rx : List Bool} {rest : List Event} (hwf : configWf s.cfg = true)
    (hin : s.inputs = .frameReceived rx :: rest) :
    step s =
      mapNext retire (execDecoded (decode s.cfg.rxMaxBits rx) (receive rx { s with inputs := rest })) := by
  rw [step_of_inputs_cons hwf hin]
  rfl

/-- A step on a frame that carries an instruction runs that instruction. -/
theorem step_of_decode_instr {s : State} {rx : List Bool} {rest : List Event} {i : Instr}
    (hwf : configWf s.cfg = true) (hin : s.inputs = .frameReceived rx :: rest)
    (hdec : decode s.cfg.rxMaxBits rx = .instr i) :
    step s = mapNext retire (exec i (receive rx { s with inputs := rest })) := by
  rw [step_of_frameReceived hwf hin, hdec, execDecoded_instr]

/-- A step on a frame that carries no instruction answers it as its reject says. -/
theorem step_of_decode_rejected {s : State} {rx : List Bool} {rest : List Event} {r : Reject}
    (hwf : configWf s.cfg = true) (hin : s.inputs = .frameReceived rx :: rest)
    (hdec : decode s.cfg.rxMaxBits rx = .rejected r) :
    step s = .next (retire (rejectFrame r (receive rx { s with inputs := rest }))) := by
  rw [step_of_frameReceived hwf hin, hdec, execDecoded_rejected, mapNext_next]

/-- Settles O1: the state after reception is `receive`'s, and `mapNext retire` drops the per-frame storage of a next
state and passes a refusal on. -/
theorem stepRunsDecodedInstruction : Obligations.StepRunsDecodedInstruction := by
  intro s rx rest i hwf hin hdec r hr
  have hrecv : r = receive rx { s with inputs := rest } := hr
  have hstep : step s = mapNext retire (exec i r) := hrecv ▸ step_of_decode_instr hwf hin hdec
  refine ⟨fun t ht => ?next, fun e he => ?refused⟩
  case next => rw [hstep, ht, mapNext_next, retire]
  case refused => rw [hstep, he, mapNext_refused]

end Sys2Proof.Machine
end

section
/-! What one event can do. A frame's answer leaves the configuration and the registry alone, keeps the clauses of the
invariant and composes a well-formed `resp`; from this and the other events' equations follow the invariant and the
constancy of the configuration (10_state.md R20, R32, R43). -/

namespace Sys2Proof.Machine

/-! ### `handleEvent` and `step` -/

@[simp] theorem handleEvent_reset (s : State) : handleEvent .reset s = .next (resetBlock s) := rfl
@[simp] theorem handleEvent_register (id : Byte) (cb : Callback) (s : State) :
    handleEvent (.register id cb) s = .next (registerCallback id cb s) := rfl
@[simp] theorem handleEvent_frameReceived (rx : List Bool) (s : State) :
    handleEvent (.frameReceived rx) s = handleFrame rx s := rfl
@[simp] theorem handleEvent_fieldLost (s : State) : handleEvent .fieldLost s = .next (fieldLost s) := rfl
@[simp] theorem handleEvent_frameCut (rx : List Bool) (cut : Cut) (done : Bool) (s : State) :
    handleEvent (.frameCut rx cut done) s = .next (cutFrame rx cut done s) := rfl

theorem handleEvent_configChange_of_wf {new : LiveConfig} {s : State} (h : configWf { s.cfg with live := new } = true) :
    handleEvent (.configChange new) s = .next (changeConfig new s) := if_pos h

theorem handleEvent_configChange_of_not_wf {new : LiveConfig} {s : State}
    (h : configWf { s.cfg with live := new } = false) :
    handleEvent (.configChange new) s = .refused .illFormedConfig := if_neg (by simp [h])

/-- A `ConfigChange` that is answered made a well-formed configuration (70_reset_and_hazards.md R332). -/
theorem handleEvent_configChange_next {new : LiveConfig} {s t : State}
    (h : handleEvent (.configChange new) s = .next t) :
    configWf { s.cfg with live := new } = true ∧ t = changeConfig new s := by
  cases hwf : configWf { s.cfg with live := new } with
  | true => exact ⟨rfl, Host.Outcome.next.inj (h.symm.trans (handleEvent_configChange_of_wf hwf))⟩
  | false => simp [handleEvent_configChange_of_not_wf hwf] at h

/-- A step that answers has a well-formed configuration, and waits or handles the next event. -/
theorem step_next_cases {s t : State} (h : step s = .next t) :
    configWf s.cfg = true ∧
      ((s.inputs = [] ∧ t = s) ∨
        ∃ e rest, s.inputs = e :: rest ∧ handleEvent e { s with inputs := rest } = .next t) := by
  unfold step nextEvent at h
  split_ifs at h with hwf
  refine ⟨by simpa using hwf, ?_⟩
  split at h
  next hin => exact .inl ⟨hin, (Host.Outcome.next.inj h).symm⟩
  next e rest hin => exact .inr ⟨e, rest, hin, h⟩

/-! ### The answer to a frame -/

/-- What answering a received frame keeps, from the state the frame was received in: it may change the link state,
`req`, `resp`, the mailbox and `env`, and keeps what `State.Inv` says of them. -/
structure FrameAnswer (s t : State) : Prop where
  frame : t.frame = s.frame
  registry : t.registry = s.registry
  cfg : t.cfg = s.cfg
  resets : t.resets = s.resets
  inputs : t.inputs = s.inputs
  memory : Memory.wf s.env.mem → Memory.wf t.env.mem
  cascade : cascadeWf s → cascadeWf t
  response : responseWf t.resp

theorem nLevels_pos (u : Uid) : 0 < nLevels u := by cases u <;> exact Nat.succ_pos _

theorem isReady_of_isSelected {t : TagState} (h : isSelected t = true) : isReady t = false := by
  revert h; cases t <;> decide

theorem isSelected_of_isActive {t : TagState} (h : isActive t = true) : isSelected t = true := by
  revert h; cases t <;> decide

/-- With no level done, both clauses of R23 hold in every state. -/
theorem cascadeWf_of_level_zero {s : State} (h : s.cascadeLevel = 0) : cascadeWf s :=
  ⟨h ▸ nLevels_pos _, fun _ => h⟩

/-- An answer that writes `resp` only. -/
theorem frameAnswer_reply (s : State) {r : Response} (hr : responseWf r) : FrameAnswer s { s with resp := r } :=
  ⟨rfl, rfl, rfl, rfl, rfl, id, id, hr⟩

/-- An answer that enters any state with no level done (10_state.md R23). -/
theorem frameAnswer_level_zero (s : State) (t : TagState) {r : Response} (hr : responseWf r) :
    FrameAnswer s { s with tagState := t, cascadeLevel := 0, resp := r } :=
  ⟨rfl, rfl, rfl, rfl, rfl, id, fun _ => cascadeWf_of_level_zero rfl, hr⟩

/-- An answer that moves a selected tag elsewhere: no level was done, and none is. -/
theorem frameAnswer_of_selected {s : State} (hsel : isSelected s.tagState = true) (t : TagState) {r : Response}
    (hr : responseWf r) : FrameAnswer s { s with tagState := t, resp := r } :=
  ⟨rfl, rfl, rfl, rfl, rfl, id,
    fun ⟨_, hzero⟩ => cascadeWf_of_level_zero (hzero (isReady_of_isSelected hsel)), hr⟩

theorem frameAnswer_unknownCommand (s : State) : FrameAnswer s (unknownCommand s) :=
  frameAnswer_reply s (responseOfBytes_wf _ _)

theorem frameAnswer_notAddressed (s : State) : FrameAnswer s (notAddressed s) :=
  frameAnswer_level_zero s _ freshResponse_wf

theorem frameAnswer_promote (s : State) : FrameAnswer s (promote s) :=
  frameAnswer_level_zero s _ (responseOfBytes_wf _ _)

theorem frameAnswer_rejectFrame (r : Reject) (s : State) : FrameAnswer s (rejectFrame r s) := by
  rw [rejectFrame_eq]
  exact frameAnswer_reply s (rejectFrame_responseWf r s)

theorem frameAnswer_wake (t : TagState) (s : State) : FrameAnswer s (wake t s) := by
  unfold wake
  split_ifs
  · exact frameAnswer_level_zero s t (responseOfBytes_wf _ _)
  · exact frameAnswer_unknownCommand s

/-- The `AUX_HANDLER` keeps the level where it keeps the state, and clears it elsewhere (log 8). -/
theorem frameAnswer_auxApply (f : Frame) (s : State) : FrameAnswer s (auxApply f s) := by
  have hresp := replyOf_responseWf (Config.auxHandler s.tagState f).reply s
  rw [auxApply_eq]
  split_ifs with hsame
  · rw [hsame]
    exact frameAnswer_reply s hresp
  · exact frameAnswer_level_zero s _ hresp

theorem frameAnswer_anticollision (lvl : Nat) (nvb : Byte) (u : List Bool) (s : State) :
    FrameAnswer s (anticollision lvl nvb u s) := by
  rcases anticollision_cases lvl nvb u s with h | ⟨-, -, h | ⟨-, -, h⟩⟩ <;> rw [h]
  · exact frameAnswer_unknownCommand s
  · exact frameAnswer_notAddressed s
  · exact frameAnswer_reply s (responseOfBits_wf _)

/-- `Select` records a level only in a Ready state and only below the UID's number of levels
(42_anticollision.md R211). -/
theorem frameAnswer_select (lvl : Nat) (link : List Byte) (s : State) : FrameAnswer s (select lvl link s) := by
  rcases select_cases lvl link s with h | ⟨hready, h | ⟨-, ⟨hlvl, h⟩ | ⟨-, h⟩⟩⟩ <;> rw [h]
  · exact frameAnswer_unknownCommand s
  · exact frameAnswer_notAddressed s
  · have hcascade : cascadeWf { s with cascadeLevel := lvl } := ⟨hlvl, fun hnot => by simp [hready] at hnot⟩
    exact ⟨rfl, rfl, rfl, rfl, rfl, id, fun _ => hcascade, responseOfBytes_wf _ _⟩
  · exact frameAnswer_promote s

/-- A Dandelion procedure answers a frame, whatever request was written before it. -/
theorem DandOk.frameAnswer {s t : State} {r : Request} (h : DandOk { s with req := r } t) : FrameAnswer s t := by
  obtain ⟨hframe, hmem, b, bs, -, hresp⟩ := h
  have htag : t.tagState = s.tagState := (congrArg State.tagState hframe :)
  have hlvl : t.cascadeLevel = s.cascadeLevel := (congrArg State.cascadeLevel hframe :)
  have hcfg : t.cfg = s.cfg := (congrArg State.cfg hframe :)
  refine ⟨(congrArg State.frame hframe :), (congrArg State.registry hframe :), hcfg,
    (congrArg State.resets hframe :), (congrArg State.inputs hframe :), hmem, fun hs => ?cascade, ?response⟩
  case cascade => rwa [cascadeWf, htag, hlvl, hcfg]
  case response => exact hresp ▸ responseOfBytes_wf _ _

theorem frameAnswer_withRequest (code : Byte) (p : List Byte) (k : State → State) (hk : ∀ u, DandOk u (k u))
    (s : State) : FrameAnswer s (withRequest code p k s) := by
  rcases withRequest_cases code p k s with ⟨h, -⟩ | ⟨-, -, h⟩ <;> rw [h]
  · exact frameAnswer_unknownCommand s
  · exact (hk _).frameAnswer

/-! ### The meanings of the instructions -/

/-- Every next state of the outcome is an answer to the frame received in `s`. -/
def AnswersFrame (s : State) (o : Host.Outcome State Fault Refusal) : Prop := ∀ t, o = .next t → FrameAnswer s t

theorem FrameAnswer.answersFrame {s t : State} (h : FrameAnswer s t) : AnswersFrame s (.next t) := by
  intro u hu
  exact Host.Outcome.next.inj hu ▸ h

theorem answersFrame_refused (s : State) (e : Refusal) : AnswersFrame s (.refused e) :=
  fun _ h => nomatch h

theorem execTimeslot_answersFrame (s : State) : AnswersFrame s (execTimeslot s) := by
  unfold execTimeslot
  split_ifs
  · exact (frameAnswer_auxApply _ s).answersFrame
  · exact answersFrame_refused s _

theorem execT2tRead_answersFrame (link : List Byte) (s : State) : AnswersFrame s (execT2tRead link s) := by
  unfold execT2tRead
  split_ifs
  · exact (frameAnswer_auxApply _ s).answersFrame
  · exact answersFrame_refused s _

theorem execHlta_answersFrame (link : List Byte) (s : State) : AnswersFrame s (execHlta link s) := by
  refine FrameAnswer.answersFrame ?_
  split_ifs with hsel
  · exact frameAnswer_of_selected hsel .halt freshResponse_wf
  · exact frameAnswer_unknownCommand s

theorem execRatsDand_answersFrame (link : List Byte) (s : State) : AnswersFrame s (execRatsDand link s) := by
  refine FrameAnswer.answersFrame ?_
  split_ifs with hact
  · exact frameAnswer_of_selected (isSelected_of_isActive hact) .protDand (responseOfBytes_wf _ _)
  · exact frameAnswer_unknownCommand s

theorem execDeselectDand_answersFrame (link : List Byte) (s : State) : AnswersFrame s (execDeselectDand link s) := by
  refine FrameAnswer.answersFrame ?_
  split_ifs with hprot
  · have hsel : isSelected s.tagState = true := by rw [hprot]; rfl
    exact frameAnswer_of_selected hsel .halt (responseOfBytes_wf _ _)
  · exact frameAnswer_unknownCommand s

theorem execDandCmd_answersFrame (link : List Byte) (s : State) : AnswersFrame s (execDandCmd link s) := by
  cases link with
  | nil => exact (frameAnswer_unknownCommand s).answersFrame
  | cons code payload => exact (frameAnswer_withRequest code payload dispatch dispatch_ok s).answersFrame

/-- Every instruction's meaning answers the frame that carried it. -/
theorem exec_answersFrame (i : Instr) (s : State) : AnswersFrame s (exec i s) := by
  cases i with
  | reqa => exact (frameAnswer_wake .ready0 s).answersFrame
  | wupa => exact (frameAnswer_wake .ready1 s).answersFrame
  | timeslot => exact execTimeslot_answersFrame s
  | hlta link => exact execHlta_answersFrame link s
  | ratsDand link => exact execRatsDand_answersFrame link s
  | deselectDand link => exact execDeselectDand_answersFrame link s
  | t2tRead link => exact execT2tRead_answersFrame link s
  | dandCmd link => exact execDandCmd_answersFrame link s
  | sel1Ac nvb u => exact (frameAnswer_anticollision 1 nvb u s).answersFrame
  | sel2Ac nvb u => exact (frameAnswer_anticollision 2 nvb u s).answersFrame
  | sel3Ac nvb u => exact (frameAnswer_anticollision 3 nvb u s).answersFrame
  | sel1Select link => exact (frameAnswer_select 1 link s).answersFrame
  | sel2Select link => exact (frameAnswer_select 2 link s).answersFrame
  | sel3Select link => exact (frameAnswer_select 3 link s).answersFrame
  | readWord p => exact (frameAnswer_withRequest _ p _ (dandRead_ok _ _) s).answersFrame
  | readHalfword p => exact (frameAnswer_withRequest _ p _ (dandRead_ok _ _) s).answersFrame
  | readByte p => exact (frameAnswer_withRequest _ p _ (dandRead_ok _ _) s).answersFrame
  | writeWord p => exact (frameAnswer_withRequest _ p _ (dandWrite_ok _ _) s).answersFrame
  | writeHalfword p => exact (frameAnswer_withRequest _ p _ (dandWrite_ok _ _) s).answersFrame
  | writeByte p => exact (frameAnswer_withRequest _ p _ (dandWrite_ok _ _) s).answersFrame
  | call p => exact (frameAnswer_withRequest _ p _ (callCommon_ok _ _) s).answersFrame
  | sendMessage p => exact (frameAnswer_withRequest _ p _ (callCommon_ok _ _) s).answersFrame
  | loopback p => exact (frameAnswer_withRequest _ p _ dandLoopback_ok s).answersFrame

theorem execDecoded_answersFrame (d : Decoded) (s : State) : AnswersFrame s (execDecoded d s) := by
  cases d with
  | instr i => exact exec_answersFrame i s
  | rejected r => exact (frameAnswer_rejectFrame r s).answersFrame

theorem mapNext_next_inv {f : State → State} {o : Host.Outcome State Fault Refusal} {t : State}
    (h : mapNext f o = .next t) : ∃ u, o = .next u ∧ t = f u := by
  cases o with
  | next u => exact ⟨u, rfl, (Host.Outcome.next.inj h).symm⟩
  | fault e => cases e
  | refused e => cases h

/-- A handled frame is received, answered and retired. -/
theorem handleFrame_next {rx : List Bool} {s t : State} (h : handleFrame rx s = .next t) :
    ∃ u, FrameAnswer (receive rx s) u ∧ t = retire u := by
  obtain ⟨u, hu, rfl⟩ := mapNext_next_inv h
  exact ⟨u, execDecoded_answersFrame _ _ u hu, rfl⟩

/-! ### A frame cut short -/

/-- The side effect of a frame is in `mailbox` and `env` only, and keeps plain memory canonical. -/
theorem keepSideEffect_handleFrame (rx : List Bool) (s : State) :
    (keepSideEffect s (handleFrame rx s)).cfg = s.cfg ∧
      (Memory.wf s.env.mem → Memory.wf (keepSideEffect s (handleFrame rx s)).env.mem) := by
  cases h : handleFrame rx s with
  | next t =>
    obtain ⟨u, hu, rfl⟩ := handleFrame_next h
    exact ⟨rfl, hu.memory⟩
  | fault e => cases e
  | refused e => exact ⟨rfl, id⟩

/-- A cut frame is the field loss or the reset of a state with the same configuration and canonical memory. -/
theorem cutFrame_cases (rx : List Bool) (cut : Cut) (done : Bool) (s : State) :
    ∃ u : State, u.cfg = s.cfg ∧ (Memory.wf s.env.mem → Memory.wf u.env.mem) ∧
      (cutFrame rx cut done s = fieldLost u ∨ cutFrame rx cut done s = resetBlock u) := by
  obtain ⟨hcfg, hmem⟩ := keepSideEffect_handleFrame rx s
  refine ⟨if done then keepSideEffect s (handleFrame rx s) else s, ?config, ?memory, ?cut⟩
  case config => split_ifs; exacts [hcfg, rfl]
  case memory => split_ifs; exacts [hmem, id]
  case cut => cases cut; exacts [.inl rfl, .inr rfl]

/-! ### The invariant -/

theorem fieldLost_inv {s : State} (hcfg : configWf s.cfg = true) (hmem : Memory.wf s.env.mem) : (fieldLost s).Inv :=
  ⟨hcfg, hmem, cascadeWf_of_level_zero rfl, freshResponse_wf, rfl, rfl⟩

theorem resetBlock_inv {s : State} (hcfg : configWf s.cfg = true) (hmem : Memory.wf s.env.mem) : (resetBlock s).Inv :=
  ⟨hcfg, hmem, cascadeWf_of_level_zero rfl, freshResponse_wf, rfl, rfl⟩

/-- The script of coming events is no part of the invariant. -/
theorem State.Inv.withInputs {s : State} (h : s.Inv) (rest : List Event) : ({ s with inputs := rest } : State).Inv :=
  ⟨h.config, h.memory, h.cascade, h.response, h.noFrame, h.noRequest⟩

theorem State.Inv.registerCallback {s : State} (h : s.Inv) (id : Byte) (cb : Callback) :
    (registerCallback id cb s).Inv :=
  ⟨h.config, h.memory, h.cascade, h.response, h.noFrame, h.noRequest⟩

/-- The UID is no input of `ConfigChange`, so the bound on `cascade_level` stays. -/
theorem State.Inv.changeConfig {s : State} (h : s.Inv) {new : LiveConfig}
    (hwf : configWf { s.cfg with live := new } = true) : (changeConfig new s).Inv :=
  ⟨hwf, h.memory, h.cascade, h.response, h.noFrame, h.noRequest⟩

theorem State.Inv.handleFrame {s t : State} (h : s.Inv) {rx : List Bool} (ht : handleFrame rx s = .next t) : t.Inv := by
  obtain ⟨u, hu, rfl⟩ := handleFrame_next ht
  have hcfg : u.cfg = s.cfg := hu.cfg
  exact ⟨by rw [retire_cfg, hcfg, h.config], hu.memory h.memory, hu.cascade h.cascade, hu.response, rfl, rfl⟩

theorem State.Inv.cutFrame {s : State} (h : s.Inv) (rx : List Bool) (cut : Cut) (done : Bool) :
    (cutFrame rx cut done s).Inv := by
  obtain ⟨u, hcfg, hmem, hcut | hcut⟩ := cutFrame_cases rx cut done s <;> rw [hcut]
  · exact fieldLost_inv (hcfg ▸ h.config) (hmem h.memory)
  · exact resetBlock_inv (hcfg ▸ h.config) (hmem h.memory)

theorem State.Inv.handleEvent {s t : State} (h : s.Inv) {e : Event} (ht : handleEvent e s = .next t) : t.Inv := by
  cases e with
  | reset => exact Host.Outcome.next.inj ht ▸ resetBlock_inv h.config h.memory
  | register id cb => exact Host.Outcome.next.inj ht ▸ h.registerCallback id cb
  | configChange new =>
    obtain ⟨hwf, rfl⟩ := handleEvent_configChange_next ht
    exact h.changeConfig hwf
  | frameReceived rx => exact h.handleFrame ht
  | fieldLost => exact Host.Outcome.next.inj ht ▸ fieldLost_inv h.config h.memory
  | frameCut rx cut done => exact Host.Outcome.next.inj ht ▸ h.cutFrame rx cut done

/-- Settles O18: waiting keeps the state, and every event that is answered keeps the invariant. -/
theorem everyStepKeepsInvariant : Obligations.EveryStepKeepsInvariant := by
  intro s t hinv hstep
  obtain ⟨-, ⟨-, rfl⟩ | ⟨e, rest, -, hevent⟩⟩ := step_next_cases hstep
  case inl => exact hinv
  case inr => exact (hinv.withInputs rest).handleEvent hevent

/-! ### The configuration -/

/-- Only `ConfigChange` touches the configuration, and only its four inputs (10_state.md R43). -/
theorem handleEvent_cfg {e : Event} {s t : State} (h : handleEvent e s = .next t) :
    t.cfg = s.cfg ∨ ∃ new, e = .configChange new ∧ t.cfg = { s.cfg with live := new } := by
  cases e with
  | reset => exact .inl (Host.Outcome.next.inj h ▸ rfl)
  | register id cb => exact .inl (Host.Outcome.next.inj h ▸ rfl)
  | configChange new =>
    obtain ⟨-, rfl⟩ := handleEvent_configChange_next h
    exact .inr ⟨new, rfl, rfl⟩
  | frameReceived rx =>
    obtain ⟨u, hu, rfl⟩ := handleFrame_next h
    exact .inl hu.cfg
  | fieldLost => exact .inl (Host.Outcome.next.inj h ▸ rfl)
  | frameCut rx cut done =>
    obtain rfl := Host.Outcome.next.inj h
    obtain ⟨u, hcfg, -, hcut | hcut⟩ := cutFrame_cases rx cut done s <;> rw [hcut]
    · exact .inl hcfg
    · exact .inl hcfg

/-- Settles O15: by the event the step handled. -/
theorem configurationConstantsNeverChange : Obligations.ConfigurationConstantsNeverChange := by
  intro s t hstep
  obtain ⟨-, ⟨-, rfl⟩ | ⟨e, rest, hin, hevent⟩⟩ := step_next_cases hstep
  case inl => exact ⟨rfl, fun _ => rfl⟩
  case inr =>
    obtain hcfg | ⟨new, rfl, hcfg⟩ := handleEvent_cfg hevent
    · exact ⟨by rw [hcfg], fun _ => hcfg⟩
    · exact ⟨by rw [hcfg], fun hnot => absurd hin (hnot new rest)⟩

/-- Settles O13: the test of `ConfigChange` decides which clause applies. -/
theorem configChangeReplacesItsInputs : Obligations.ConfigChangeReplacesItsInputs := by
  intro s rest new hwf hin
  rw [step_of_inputs_cons hwf hin]
  refine ⟨fun hnew => ?accepted, fun hnew => ?refused⟩
  case accepted => exact handleEvent_configChange_of_wf hnew
  case refused => exact handleEvent_configChange_of_not_wf hnew

/-! ### Reset -/

/-- Settles O7: the fields of `resetBlock`. -/
theorem resetEventLeaves : Obligations.ResetEventLeaves := by
  intro s rest hwf hin
  refine ⟨resetBlock { s with inputs := rest }, ?step, rfl, rfl, rfl, rfl, rfl, Vector.toList_replicate, rfl, rfl,
    rfl, Vector.toList_replicate, ?registry, rfl, rfl, rfl⟩
  case step => rw [step_of_inputs_cons hwf hin, handleEvent_reset]
  case registry => exact fun id => registered_emptyRegistry _ id rfl

/-- Settles O8: the fields of `State.reset`, an empty registry among them. -/
theorem resetStateValues : Obligations.ResetStateValues :=
  ⟨rfl, rfl, rfl, rfl, rfl, Vector.toList_replicate, rfl, rfl, rfl, Vector.toList_replicate,
    fun id => registered_emptyRegistry _ id rfl⟩

/-- The configuration of log 2 is well formed. -/
theorem testT1_configWf : configWf Cfg.testT1 = true := by decide

/-- Settles O17: the configuration is checked by evaluation; nothing is listed in memory and no level is done. -/
theorem resetStateMeetsInvariant : Obligations.ResetStateMeetsInvariant :=
  ⟨testT1_configWf, ⟨List.Pairwise.nil, by simp [State.reset]⟩, cascadeWf_of_level_zero rfl, freshResponse_wf,
    rfl, rfl⟩

end Sys2Proof.Machine
end

section
/-! What leaves the registry alone, and what the link and SEL instructions leave alone: every event but `Register` and a
reset keeps the registry (20_memory.md R83, 44_mailbox_registry.md R272), and a link instruction writes the link state and
`resp` only (20_memory.md R60, 44_mailbox_registry.md R270). -/

namespace Sys2Proof.Machine

/-! ### The registry -/

@[simp] theorem keepSideEffect_registry (s : State) (o : Host.Outcome State Fault Refusal) :
    (keepSideEffect s o).registry = s.registry := by
  cases o <;> rfl

/-- A frame that field loss cut short keeps the registry, whether its side effect happened or not. -/
theorem cutFrame_fieldLost_registry (rx : List Bool) (done : Bool) (s : State) :
    (cutFrame rx .fieldLost done s).registry = s.registry := by
  cases done
  · rfl
  · exact keepSideEffect_registry s _

/-- Only `Register`, `Reset` and a frame that a reset cut short touch the registry. -/
theorem handleEvent_registry {e : Event} {s t : State} (h : handleEvent e s = .next t) :
    t.registry = s.registry ∨ (∃ id cb, e = .register id cb) ∨ e = .reset ∨ ∃ rx done, e = .frameCut rx .reset done := by
  cases e with
  | reset => exact .inr (.inr (.inl rfl))
  | register id cb => exact .inr (.inl ⟨id, cb, rfl⟩)
  | configChange new =>
    obtain ⟨-, rfl⟩ := handleEvent_configChange_next h
    exact .inl rfl
  | frameReceived rx =>
    obtain ⟨u, hu, rfl⟩ := handleFrame_next h
    exact .inl hu.registry
  | fieldLost => exact .inl (Host.Outcome.next.inj h ▸ rfl)
  | frameCut rx cut done =>
    cases cut with
    | fieldLost => exact .inl (Host.Outcome.next.inj h ▸ cutFrame_fieldLost_registry rx done s)
    | reset => exact .inr (.inr (.inr ⟨rx, done, rfl⟩))

/-- Settles O16: waiting keeps the state, and of the events only those named touch the registry. -/
theorem registryChangesOnlyByRegisterOrReset : Obligations.RegistryChangesOnlyByRegisterOrReset := by
  intro s t hstep hne
  obtain ⟨-, ⟨-, rfl⟩ | ⟨e, rest, hin, hevent⟩⟩ := step_next_cases hstep
  case inl => exact absurd rfl hne
  case inr =>
    obtain hkeep | ⟨id, cb, rfl⟩ | rfl | ⟨rx, done, rfl⟩ := handleEvent_registry hevent
    · exact absurd hkeep hne
    · exact .inl ⟨id, cb, rest, hin⟩
    · exact .inr (.inl ⟨rest, hin⟩)
    · exact .inr (.inr ⟨rx, done, rest, hin⟩)

/-! ### The link state -/

/-- `t` is `s` but for the link state and `resp`. -/
def LinkOnly (s t : State) : Prop :=
  t = { s with tagState := t.tagState, cascadeLevel := t.cascadeLevel, resp := t.resp }

theorem LinkOnly.sameButLink {s t : State} (h : LinkOnly s t) : sameButLink s t :=
  ⟨(congrArg State.mailbox h :), (congrArg State.registry h :), (congrArg State.cfg h :), (congrArg State.env h :),
    (congrArg State.resets h :), (congrArg State.inputs h :)⟩

theorem linkOnly_wake (t : TagState) (s : State) : LinkOnly s (wake t s) := by
  rw [wake_eq]
  rfl

theorem linkOnly_auxApply (f : Frame) (s : State) : LinkOnly s (auxApply f s) := by
  rw [auxApply_eq]
  rfl

/-- Every next state of the outcome is `s` but for the link state and `resp`. -/
def LeadsLinkOnly (s : State) (o : Host.Outcome State Fault Refusal) : Prop := ∀ t, o = .next t → LinkOnly s t

theorem LinkOnly.leadsLinkOnly {s t : State} (h : LinkOnly s t) : LeadsLinkOnly s (.next t) :=
  fun _ hu => Host.Outcome.next.inj hu ▸ h

theorem execTimeslot_linkOnly (s : State) : LeadsLinkOnly s (execTimeslot s) := by
  unfold execTimeslot
  split_ifs
  · exact (linkOnly_auxApply _ s).leadsLinkOnly
  · exact fun _ h => nomatch h

theorem execT2tRead_linkOnly (link : List Byte) (s : State) : LeadsLinkOnly s (execT2tRead link s) := by
  unfold execT2tRead
  split_ifs
  · exact (linkOnly_auxApply _ s).leadsLinkOnly
  · exact fun _ h => nomatch h

theorem execHlta_linkOnly (link : List Byte) (s : State) : LeadsLinkOnly s (execHlta link s) := by
  refine LinkOnly.leadsLinkOnly ?_
  split_ifs <;> rfl

theorem execRatsDand_linkOnly (link : List Byte) (s : State) : LeadsLinkOnly s (execRatsDand link s) := by
  refine LinkOnly.leadsLinkOnly ?_
  split_ifs <;> rfl

theorem execDeselectDand_linkOnly (link : List Byte) (s : State) : LeadsLinkOnly s (execDeselectDand link s) := by
  refine LinkOnly.leadsLinkOnly ?_
  split_ifs <;> rfl

/-- Settles O32: by the instruction; the engine's own frame lemmas serve the six SEL rows. -/
theorem linkCommandsTouchOnlyLinkState : Obligations.LinkCommandsTouchOnlyLinkState := by
  intro s t link nvb u i hi hexec
  have hlink : LeadsLinkOnly s (exec i s) := by
    simp only [List.mem_cons, List.not_mem_nil, or_false] at hi
    obtain rfl | rfl | rfl | rfl | rfl | rfl | rfl | rfl | rfl | rfl | rfl | rfl | rfl := hi
    · exact (linkOnly_wake .ready0 s).leadsLinkOnly
    · exact (linkOnly_wake .ready1 s).leadsLinkOnly
    · exact execTimeslot_linkOnly s
    · exact execHlta_linkOnly link s
    · exact execRatsDand_linkOnly link s
    · exact execDeselectDand_linkOnly link s
    · exact execT2tRead_linkOnly link s
    · exact LinkOnly.leadsLinkOnly (anticollision_frame 1 nvb u s)
    · exact LinkOnly.leadsLinkOnly (select_frame 1 link s)
    · exact LinkOnly.leadsLinkOnly (anticollision_frame 2 nvb u s)
    · exact LinkOnly.leadsLinkOnly (select_frame 2 link s)
    · exact LinkOnly.leadsLinkOnly (anticollision_frame 3 nvb u s)
    · exact LinkOnly.leadsLinkOnly (select_frame 3 link s)
  have hkeep := hlink t hexec
  exact ⟨hkeep.sameButLink, (congrArg State.frame hkeep :), (congrArg State.req hkeep :)⟩

end Sys2Proof.Machine
end

section
/-! The address check (20_memory.md R71 to R77): the verdict by alignment, region and governing AccessState, and why testing
the first byte of an aligned access is enough. -/

namespace Sys2Proof.Machine

/-! ### `permits` and `stateOf` -/

/-- What an AccessState permits (20_memory.md R76). -/
theorem permits_iff (st : AccessState) (i : Intent) :
    permits st i = true ↔
      i = .read ∧ (st = .readWrite ∨ st = .readOnly) ∨ i = .write ∧ (st = .readWrite ∨ st = .writeOnly) := by
  cases st <;> cases i <;> decide

theorem stateOf_of_inNvm {c : Cfg} {a : Nat} (r : Owner) (h : inNvm c a = true) :
    stateOf c r a = (c.live.pageAccess[(a - c.nvmStart) / c.nvmPageSize]?).getD .noAccess := if_pos h

theorem stateOf_of_not_inNvm {c : Cfg} {a : Nat} (r : Owner) (h : inNvm c a = false) :
    stateOf c r a = ofOwner c.live.priv r := if_neg (by simp [h])

/-! ### `check` -/

theorem check_of_misaligned {a : Nat} {w : Width} (c : Cfg) (i : Intent) (h : a % widthBytes w ≠ 0) :
    check c a w i = .misaligned := if_pos h

theorem check_of_regionOf_none {c : Cfg} {a : Nat} {w : Width} (i : Intent) (ha : a % widthBytes w = 0)
    (hr : regionOf c a = none) : check c a w i = .denied := by
  simp [check, ha, hr]

theorem check_of_regionOf_some {c : Cfg} {a : Nat} {w : Width} {r : Owner} (i : Intent) (ha : a % widthBytes w = 0)
    (hr : regionOf c a = some r) : check c a w i = if permits (stateOf c r a) i then .allowed else .denied := by
  simp [check, ha, hr]

/-- Only an aligned address of a region is allowed. -/
theorem aligned_of_check_allowed {c : Cfg} {a : Nat} {w : Width} {i : Intent} (h : check c a w i = .allowed) :
    a % widthBytes w = 0 := by
  by_contra hne
  simp [check_of_misaligned c i hne] at h

theorem check_of_aligned_ne_misaligned {a : Nat} {w : Width} (c : Cfg) (i : Intent) (ha : a % widthBytes w = 0) :
    check c a w i ≠ .misaligned := by
  cases hr : regionOf c a with
  | none => simp [check_of_regionOf_none i ha hr]
  | some r =>
    rw [check_of_regionOf_some i ha hr]
    split_ifs <;> decide

/-- An address that lies in no interval `[start, stop)` is in no region. -/
theorem regionOf_eq_none_of_outside {c : Cfg} {a : Nat}
    (h : ∀ r, ¬((ofOwner c.region r).start ≤ a ∧ a < (ofOwner c.region r).stop)) : regionOf c a = none :=
  (regionOf_eq_none_iff c a).2 fun r => Bool.eq_false_iff.2 fun hr => h r ((inRegion_iff c a r).1 hr)

/-- Settles O38: alignment is tested first, then the region, then the governing AccessState. -/
theorem checkVerdict : Obligations.CheckVerdict := by
  intro c a w i hwf
  refine ⟨check_of_misaligned c i, fun ha => ⟨fun hout => ?outside, fun r hlo hhi st hpage hpriv => ?inside⟩⟩
  case outside => exact check_of_regionOf_none i ha (regionOf_eq_none_of_outside hout)
  case inside =>
    have hregion : regionOf c a = some r := regionOf_eq_some c hwf a r ((inRegion_iff c a r).2 ⟨hlo, hhi⟩)
    have hstate : stateOf c r a = st := by
      cases hnvm : inNvm c a with
      | true => rw [stateOf_of_inNvm r hnvm, hpage ((inNvm_iff c a).1 hnvm), Option.getD_some]
      | false =>
        rw [stateOf_of_not_inNvm r hnvm, hpriv fun h => by simp [(inNvm_iff c a).2 h] at hnvm]
    simp only [check_of_regionOf_some i ha hregion, hstate, permits_iff]

/-- Settles O39: each law by the branch of the check it speaks of. -/
theorem checkLaws : Obligations.CheckLaws := by
  intro c a w i
  refine ⟨fun hout => ?outside, fun _ => check_of_misaligned c i, ?byte, fun hwf r hpriv hlo hhi hnvm => ?readOnly⟩
  case outside =>
    by_cases ha : a % widthBytes w = 0
    · exact .inl (check_of_regionOf_none i ha (regionOf_eq_none_of_outside hout))
    · exact .inr (check_of_misaligned c i ha)
  case byte => exact check_of_aligned_ne_misaligned c i (Nat.mod_one a)
  case readOnly =>
    intro hallowed
    have hregion : regionOf c a = some r := regionOf_eq_some c hwf a r ((inRegion_iff c a r).2 ⟨hlo, hhi⟩)
    have hstate : stateOf c r a = .readOnly := by
      rw [stateOf_of_not_inNvm r (Bool.eq_false_iff.2 fun h => hnvm ((inNvm_iff c a).1 h)), hpriv]
    rw [check_of_regionOf_some .write (aligned_of_check_allowed hallowed) hregion, hstate] at hallowed
    simp [permits] at hallowed

/-! ### An aligned access does not straddle (20_memory.md R77) -/

/-- An aligned access does not cross an edge of the NVM range. -/
theorem inNvm_aligned {c : Cfg} (hc : configWf c = true) {a k : Nat} {w : Width} (ha : a % widthBytes w = 0)
    (hk : k < widthBytes w) : inNvm c (a + k) = inNvm c a := by
  obtain ⟨-, -, -, hstart, hstop, -⟩ := configWf_nvm c hc
  have hbelow_start := aligned_below a k c.nvmStart w hstart ha hk
  have hbelow_stop := aligned_below a k c.nvmStop w hstop ha hk
  apply Bool.eq_iff_iff.2
  rw [inNvm_iff, inNvm_iff]
  omega

/-- An aligned access in the NVM range lies in one page: a page ends at a multiple of 4. -/
theorem nvmPage_aligned {c : Cfg} (hc : configWf c = true) {a k : Nat} {w : Width} (ha : a % widthBytes w = 0)
    (hk : k < widthBytes w) (hin : c.nvmStart ≤ a) :
    (a + k - c.nvmStart) / c.nvmPageSize = (a - c.nvmStart) / c.nvmPageSize := by
  obtain ⟨-, -, hpos, hstart, -, hpage, -, -⟩ := configWf_nvm c hc
  generalize hq : (a - c.nvmStart) / c.nvmPageSize = q
  have hlo : q * c.nvmPageSize ≤ a - c.nvmStart := hq ▸ Nat.div_mul_le_self _ _
  have hhi : a - c.nvmStart < (q + 1) * c.nvmPageSize := by
    rw [← hq, Nat.mul_comm]
    exact Nat.lt_mul_div_succ _ hpos
  have hend : (c.nvmStart + (q + 1) * c.nvmPageSize) % 4 = 0 := by
    rw [Nat.add_mod, hstart, Nat.mul_mod, hpage]
    rfl
  have hbelow := aligned_below a k _ w hend ha hk (by omega)
  exact Nat.div_eq_of_lt_le (by omega) (by omega)

/-- Every byte of an aligned access has the same governing AccessState. -/
theorem stateOf_aligned {c : Cfg} (hc : configWf c = true) {a k : Nat} {w : Width} (r : Owner)
    (ha : a % widthBytes w = 0) (hk : k < widthBytes w) : stateOf c r (a + k) = stateOf c r a := by
  have hsame := inNvm_aligned hc ha hk
  cases hnvm : inNvm c a with
  | true =>
    rw [stateOf_of_inNvm r (hsame.trans hnvm), stateOf_of_inNvm r hnvm,
      nvmPage_aligned hc ha hk ((inNvm_iff c a).1 hnvm).1]
  | false => rw [stateOf_of_not_inNvm r (hsame.trans hnvm), stateOf_of_not_inNvm r hnvm]

/-- Settles O40: every edge is a multiple of 4, which an aligned access does not cross. -/
theorem alignedAccessDoesNotStraddle : Obligations.AlignedAccessDoesNotStraddle := by
  intro c a k w r hwf ha hk hlo hhi
  obtain ⟨-, hspace, -, hstop⟩ := configWf_region c hwf r
  have hbelow := aligned_below a k _ w hstop ha hk hhi
  exact ⟨Nat.le_add_right_of_le hlo, hbelow, hbelow.trans_le hspace, inNvm_aligned hwf ha hk,
    stateOf_aligned hwf r ha hk, inWindow_aligned c hwf a k w ha hk⟩

end Sys2Proof.Machine
end

section
/-! One access (20_memory.md R61 to R74): byte orders, what a read gives and what a write changes in the mailbox window, in
plain memory and at a device. -/

namespace Sys2Proof.Machine

/-! ### Numbers and their bytes -/

theorem pow_256_eq (n : Nat) : 256 ^ n = 2 ^ (8 * n) := (pow_mul 2 8 n).symm

/-- Byte `k` of a number, least significant first. -/
theorem ofNat_leNat_div (bs : List Byte) (k : Nat) (hk : k < bs.length) :
    some (BitVec.ofNat 8 (leNat bs / 256 ^ k)) = bs[k]? := by
  conv_rhs => rw [← leBytes_leNat bs, leBytes_getElem?, if_pos hk]

/-- Byte `k` of a number, most significant first. -/
theorem ofNat_beNat_div (bs : List Byte) (k : Nat) (hk : k < bs.length) :
    some (BitVec.ofNat 8 (beNat bs / 256 ^ (bs.length - 1 - k))) = bs[k]? := by
  conv_rhs => rw [← beBytes_beNat bs, beBytes_getElem?, if_pos hk]

theorem leBytes_getD (v n k : Nat) (hk : k < n) : (leBytes v n).getD k 0 = BitVec.ofNat 8 (v / 256 ^ k) := by
  rw [List.getD_eq_getElem?_getD, leBytes_getElem?, if_pos hk, Option.getD_some]

theorem beBytes_getD (v n k : Nat) (hk : k < n) :
    (beBytes v n).getD k 0 = BitVec.ofNat 8 (v / 256 ^ (n - 1 - k)) := by
  rw [List.getD_eq_getElem?_getD, beBytes_getElem?, if_pos hk, Option.getD_some]

/-- Bit `i` of byte `k` of a number is its bit `8*k + i`. -/
theorem ofNat_div_getLsbD (v k i : Nat) (hi : i < 8) :
    (BitVec.ofNat 8 (v / 256 ^ k)).getLsbD i = v.testBit (8 * k + i) := by
  rw [pow_256_eq, BitVec.getLsbD_ofNat, Nat.testBit_div_two_pow, Nat.add_comm i]
  simp [hi]

/-- Settles O45: by the value of `be_bytes` and the bytes written out. -/
theorem wireOrderIsBigEndian : Obligations.WireOrderIsBigEndian := by
  refine ⟨beNat_four, fun b1 b0 => ?two, fun b0 => ?one, fun v n => ⟨beBytes_length v n, ?value⟩⟩
  case two =>
    simp only [beNat, List.reverse_cons, List.reverse_nil, List.nil_append, List.cons_append, leNat]
    omega
  case one => simp [beNat, leNat]
  case value => rw [beNat_beBytes, pow_256_eq]

/-! ### The bits of the mailbox (20_memory.md R63) -/

/-- A mailbox word's bits, from the bytes of the window. -/
theorem mailbox_getLsbD (mb : Mailbox) (j i : Nat) (hj : j < 64) (hi : i < 32) :
    mb[j].getLsbD i = (mailboxByte mb (4 * j + i / 8)).getLsbD (i % 8) := by
  have hword : (4 * j + i / 8) / 4 = j := by omega
  have hbyte : (4 * j + i / 8) % 4 = i / 8 := by omega
  have hbit : 8 * (i / 8) + i % 8 = i := by omega
  simp [mailboxByte, wordByte, hword, hbyte, hbit, hj, Nat.mod_lt]

theorem mailboxByte_eq_wordByte (mb : Mailbox) (j b : Nat) (hj : j < 64) (hb : b < 4) :
    mailboxByte mb (4 * j + b) = wordByte mb[j] b := by
  have hword : (4 * j + b) / 4 = j := by omega
  have hbyte : (4 * j + b) % 4 = b := by omega
  simp [mailboxByte, hword, hbyte, hj]

/-- Bytes stored within word `j` leave every other word as it was. -/
theorem setMailboxBytes_other (mb : Mailbox) (j b : Nat) (vs : List Byte) (hj : j < 64) (hb : b + vs.length ≤ 4)
    (k : Nat) (hk : k < 64) (hkj : k ≠ j) : (setMailboxBytes mb (4 * j + b) vs)[k] = mb[k] := by
  apply BitVec.eq_of_getLsbD_eq
  intro i hi
  rw [mailbox_getLsbD _ _ _ hk hi, mailbox_getLsbD _ _ _ hk hi, mailboxByte_setMailboxBytes _ _ _ _ (by omega),
    if_neg (by omega)]

/-- Bytes stored within word `j` replace the bits they cover and no other. -/
theorem setMailboxBytes_getLsbD (mb : Mailbox) (j b i : Nat) (vs : List Byte) (hj : j < 64) (hb : b + vs.length ≤ 4) :
    (setMailboxBytes mb (4 * j + b) vs)[j].getLsbD i =
      if 8 * b ≤ i ∧ i < 8 * (b + vs.length) then (vs.getD (i / 8 - b) 0).getLsbD (i % 8) else mb[j].getLsbD i := by
  by_cases hi : i < 32
  · rw [mailbox_getLsbD _ _ _ hj hi, mailboxByte_setMailboxBytes _ _ _ _ (by omega),
      show 4 * j + i / 8 - (4 * j + b) = i / 8 - b by omega]
    by_cases hin : 8 * b ≤ i ∧ i < 8 * (b + vs.length)
    · rw [if_pos hin, if_pos (by omega)]
    · rw [if_neg hin, if_neg (by omega), ← mailbox_getLsbD _ _ _ hj hi]
  · rw [if_neg (by omega), BitVec.getLsbD_of_ge _ _ (by omega), BitVec.getLsbD_of_ge _ _ (by omega)]

/-! ### What a read gives -/

theorem memRead_of_inWindow {s : State} {a : Nat} (w : Width) (h : inWindow s.cfg a = true) :
    memRead s a w = (leNat (bytesAt s a (widthBytes w)), s) := by
  simp [memRead, h]

theorem memRead_of_plainLittle {s : State} {a : Nat} (w : Width) (h : inWindow s.cfg a = false)
    (hb : backingOf s.cfg a = .plainLittle) : memRead s a w = (leNat (bytesAt s a (widthBytes w)), s) := by
  simp [memRead, h, hb]

theorem memRead_of_plainBig {s : State} {a : Nat} (w : Width) (h : inWindow s.cfg a = false)
    (hb : backingOf s.cfg a = .plainBig) : memRead s a w = (beNat (bytesAt s a (widthBytes w)), s) := by
  simp [memRead, h, hb]

theorem memRead_of_device {s : State} {a : Nat} (w : Width) (h : inWindow s.cfg a = false)
    (hb : backingOf s.cfg a = .device) :
    memRead s a w =
      ((Config.deviceRead s.env.dev a (widthBytes w)).1 % 2 ^ (8 * widthBytes w),
        { s with env := { s.env with dev := (Config.deviceRead s.env.dev a (widthBytes w)).2 } }) := by
  simp [memRead, h, hb]

theorem leNat_bytesAt_lt (s : State) (a n : Nat) : leNat (bytesAt s a n) < 2 ^ (8 * n) := by
  simpa [pow_256_eq] using leNat_lt (bytesAt s a n)

theorem beNat_bytesAt_lt (s : State) (a n : Nat) : beNat (bytesAt s a n) < 2 ^ (8 * n) := by
  simpa [pow_256_eq] using beNat_lt (bytesAt s a n)

theorem memRead_lt (s : State) (a : Nat) (w : Width) : (memRead s a w).1 < 2 ^ (8 * widthBytes w) := by
  obtain ⟨h, -⟩ | ⟨h, -⟩ | ⟨h, -⟩ := memRead_cases s a w <;> rw [h]
  · exact leNat_bytesAt_lt s a _
  · exact beNat_bytesAt_lt s a _
  · exact Nat.mod_lt _ (Nat.two_pow_pos _)

/-- Away from devices a read changes nothing. -/
theorem memRead_state {s : State} {a : Nat} (w : Width) (h : inWindow s.cfg a = true ∨ backingOf s.cfg a ≠ .device) :
    (memRead s a w).2 = s := by
  obtain ⟨hr, -⟩ | ⟨hr, -⟩ | ⟨-, hout, hdev⟩ := memRead_cases s a w
  · rw [hr]
  · rw [hr]
  · simp [hout, hdev] at h

/-- What consecutive addresses hold is a function of the configuration, the mailbox and `env`. -/
theorem bytesAt_congr {s t : State} (a n : Nat) (hcfg : t.cfg = s.cfg) (hmb : t.mailbox = s.mailbox)
    (henv : t.env = s.env) : bytesAt t a n = bytesAt s a n := by
  induction n generalizing a with
  | zero => rfl
  | succ n ih => rw [bytesAt, bytesAt, ih, byteAt, byteAt, hcfg, hmb, henv]

/-- And so is the value of a read. -/
theorem memRead_congr {s t : State} (a : Nat) (w : Width) (hcfg : t.cfg = s.cfg) (hmb : t.mailbox = s.mailbox)
    (henv : t.env = s.env) : (memRead t a w).1 = (memRead s a w).1 := by
  have hbytes := bytesAt_congr a (widthBytes w) hcfg hmb henv
  simp only [memRead, hcfg, henv, hbytes]
  split_ifs
  · rfl
  · cases backingOf s.cfg a <;> rfl

/-- Settles O44: by the three cases of a read. -/
theorem readHasNoSideEffectOnMemory : Obligations.ReadHasNoSideEffectOnMemory := by
  intro s a w
  refine ⟨memRead_lt s a w, ?frame, memRead_state w, fun hout hdev d hd => ?device⟩
  case frame => obtain ⟨h, -⟩ | ⟨h, -⟩ | ⟨h, -⟩ := memRead_cases s a w <;> rw [h]
  case device =>
    subst hd
    rw [memRead_of_device w hout hdev]
    exact ⟨rfl, rfl⟩

/-- Settles O57: the value is the number of the bytes there, in the order of the backing. -/
theorem plainReadGivesItsBytes : Obligations.PlainReadGivesItsBytes := by
  intro s a w hout hplain
  refine ⟨memRead_state w (.inr hplain), memRead_lt s a w, fun hb k hk => ?little, fun hb k hk => ?big⟩
  case little =>
    have hbyte := ofNat_leNat_div (bytesAt s a (widthBytes w)) k (by simpa using hk)
    rw [bytesAt_getElem? s a _ k hk] at hbyte
    rw [memRead_of_plainLittle w hout hb]
    exact Option.some.inj hbyte
  case big =>
    have hbyte := ofNat_beNat_div (bytesAt s a (widthBytes w)) k (by simpa using hk)
    rw [bytesAt_getElem? s a _ k hk, bytesAt_length] at hbyte
    rw [memRead_of_plainBig w hout hb]
    exact Option.some.inj hbyte

/-- The bytes of consecutive addresses, from what each address holds. -/
theorem bytesAt_eq {s : State} {a : Nat} {vs : List Byte}
    (h : ∀ k, k < vs.length → byteAt s (a + k) = vs.getD k 0) : bytesAt s a vs.length = vs := by
  refine List.ext_getElem? fun k => ?_
  by_cases hk : k < vs.length
  · rw [bytesAt_getElem? s a _ k hk, h k hk]
    simp [hk]
  · rw [List.getElem?_eq_none (by simpa using hk), List.getElem?_eq_none (by simpa using hk)]

/-! ### The mailbox window (20_memory.md R74) -/

theorem byteAt_of_inWindow {s : State} {a : Nat} (h : inWindow s.cfg a = true) :
    byteAt s a = mailboxByte s.mailbox (a - s.cfg.mailboxBase) := if_pos h

theorem byteAt_of_not_inWindow {s : State} {a : Nat} (h : inWindow s.cfg a = false) :
    byteAt s a = plainByte s.env.mem a := if_neg (by simp [h])

/-- Byte `b` of mailbox word `j` lies in the window. -/
theorem inWindow_mailboxWord (c : Cfg) (j b : Nat) (hj : j < 64) (hb : b < 4) :
    inWindow c (c.mailboxBase + 4 * j + b) = true :=
  (inWindow_iff c _).2 (by omega)

theorem byteAt_mailboxWord (s : State) (j b : Nat) (hj : j < 64) (hb : b < 4) :
    byteAt s (s.cfg.mailboxBase + 4 * j + b) = wordByte s.mailbox[j] b := by
  rw [byteAt_of_inWindow (inWindow_mailboxWord s.cfg j b hj hb),
    show s.cfg.mailboxBase + 4 * j + b - s.cfg.mailboxBase = 4 * j + b by omega,
    mailboxByte_eq_wordByte _ _ _ hj hb]

/-- Byte `k` of a slice of a word is byte `b + k` of the word. -/
theorem leBytes_extract_getD (x : Word) (b n k : Nat) (hk : k < n) :
    (leBytes (x.extractLsb' (8 * b) (8 * n)).toNat n).getD k 0 = wordByte x (b + k) := by
  rw [leBytes_getD _ _ _ hk]
  apply BitVec.eq_of_getLsbD_eq
  intro i hi
  rw [ofNat_div_getLsbD _ _ _ hi, BitVec.testBit_toNat, wordByte, BitVec.getLsbD_extractLsb',
    BitVec.getLsbD_extractLsb', show 8 * b + (8 * k + i) = 8 * (b + k) + i by omega]
  simp [hi, show 8 * k + i < 8 * n by omega]

/-- Settles O41: the bytes read are the bytes of the word's slice. -/
theorem mailboxWindowRead : Obligations.MailboxWindowRead := by
  intro s j b w hj hb
  have hpos := widthBytes_pos w
  rw [memRead_of_inWindow w (inWindow_mailboxWord s.cfg j b hj (by omega))]
  generalize hslice : (s.mailbox[j].extractLsb' (8 * b) (8 * widthBytes w)).toNat = v
  have hbytes :
      bytesAt s (s.cfg.mailboxBase + 4 * j + b) (leBytes v (widthBytes w)).length = leBytes v (widthBytes w) :=
    bytesAt_eq fun k hk => by
      rw [leBytes_length] at hk
      rw [Nat.add_assoc _ b k, byteAt_mailboxWord s j (b + k) hj (by omega), ← hslice,
        leBytes_extract_getD _ _ _ _ hk]
  have hlt : v < 256 ^ widthBytes w := by
    rw [pow_256_eq, ← hslice]
    exact BitVec.isLt _
  rw [leBytes_length] at hbytes
  rw [hbytes, leNat_leBytes, Nat.mod_eq_of_lt hlt]

/-! ### What a write changes -/

theorem memWrite_of_inWindow {s : State} {a : Nat} (w : Width) (v : Nat) (h : inWindow s.cfg a = true) :
    memWrite s a w v =
      { s with mailbox := setMailboxBytes s.mailbox (a - s.cfg.mailboxBase) (leBytes v (widthBytes w)) } := by
  simp [memWrite, h]

theorem memWrite_of_plainLittle {s : State} {a : Nat} (w : Width) (v : Nat) (h : inWindow s.cfg a = false)
    (hb : backingOf s.cfg a = .plainLittle) :
    memWrite s a w v =
      { s with env := { s.env with mem := memInsertMany s.env.mem a (leBytes v (widthBytes w)) } } := by
  simp [memWrite, h, hb]

theorem memWrite_of_plainBig {s : State} {a : Nat} (w : Width) (v : Nat) (h : inWindow s.cfg a = false)
    (hb : backingOf s.cfg a = .plainBig) :
    memWrite s a w v =
      { s with env := { s.env with mem := memInsertMany s.env.mem a (beBytes v (widthBytes w)) } } := by
  simp [memWrite, h, hb]

theorem memWrite_of_device {s : State} {a : Nat} (w : Width) (v : Nat) (h : inWindow s.cfg a = false)
    (hb : backingOf s.cfg a = .device) :
    memWrite s a w v =
      { s with env := { s.env with dev := Config.deviceWrite s.env.dev a (widthBytes w) v } } := by
  simp [memWrite, h, hb]

/-- Settles O42: the window's bytes are stored least significant first, within one word. -/
theorem mailboxWindowWrite : Obligations.MailboxWindowWrite := by
  intro s j b v w hj hb _
  have hpos := widthBytes_pos w
  have hlen : b + (leBytes v (widthBytes w)).length ≤ 4 := by rwa [leBytes_length]
  refine ⟨setMailboxBytes s.mailbox (4 * j + b) (leBytes v (widthBytes w)), ?write,
    setMailboxBytes_other _ _ _ _ hj hlen, fun i => ?bits⟩
  case write =>
    rw [memWrite_of_inWindow w v (inWindow_mailboxWord s.cfg j b hj (by omega)),
      show s.cfg.mailboxBase + 4 * j + b - s.cfg.mailboxBase = 4 * j + b by omega]
  case bits =>
    rw [setMailboxBytes_getLsbD _ _ _ _ _ hj hlen, leBytes_length]
    split_ifs with hin
    · rw [leBytes_getD _ _ _ (by omega), ofNat_div_getLsbD _ _ _ (by omega),
        show 8 * (i / 8 - b) + i % 8 = i - 8 * b by omega]
    · rfl

/-- Bytes stored in plain memory, as the address space shows them: the addresses they cover change, no other. -/
theorem byteAt_storePlain (s : State) (a b : Nat) (vs : List Byte) (hspace : a + vs.length ≤ 2 ^ 32)
    (hout : ∀ k, k < vs.length → inWindow s.cfg (a + k) = false) :
    byteAt { s with env := { s.env with mem := memInsertMany s.env.mem a vs } } b =
      if a ≤ b ∧ b < a + vs.length then vs.getD (b - a) 0 else byteAt s b := by
  cases hb : inWindow s.cfg b with
  | true =>
    have hne : ¬(a ≤ b ∧ b < a + vs.length) := fun ⟨hlo, hhi⟩ => by
      have := hout (b - a) (by omega)
      rw [Nat.add_sub_cancel' hlo, hb] at this
      cases this
    rw [if_neg hne]
    exact Eq.trans (byteAt_of_inWindow hb) (byteAt_of_inWindow hb).symm
  | false =>
    rw [byteAt_of_not_inWindow (s := s) hb, ← plainByte_memInsertMany _ _ _ _ hspace]
    exact byteAt_of_not_inWindow hb

/-- Bytes stored in the mailbox window, as the address space shows them. -/
theorem byteAt_storeMailbox (s : State) (a b : Nat) (vs : List Byte) (hlo : s.cfg.mailboxBase ≤ a)
    (hhi : a + vs.length ≤ s.cfg.mailboxBase + 256) :
    byteAt { s with mailbox := setMailboxBytes s.mailbox (a - s.cfg.mailboxBase) vs } b =
      if a ≤ b ∧ b < a + vs.length then vs.getD (b - a) 0 else byteAt s b := by
  cases hb : inWindow s.cfg b with
  | true =>
    obtain ⟨hb1, hb2⟩ := (inWindow_iff s.cfg b).1 hb
    refine Eq.trans (byteAt_of_inWindow hb) ?_
    dsimp only
    rw [byteAt_of_inWindow (s := s) hb, mailboxByte_setMailboxBytes _ _ _ _ (by omega),
      show b - s.cfg.mailboxBase - (a - s.cfg.mailboxBase) = b - a by omega]
    exact if_congr (by omega) rfl rfl
  | false =>
    have hne : ¬(a ≤ b ∧ b < a + vs.length) := fun hin => by
      rw [(inWindow_iff s.cfg b).2 (by omega)] at hb
      cases hb
    rw [if_neg hne]
    exact Eq.trans (byteAt_of_not_inWindow hb) (byteAt_of_not_inWindow hb).symm

/-- An aligned access ends within the 32-bit space. -/
theorem aligned_space {a : Nat} {w : Width} (ha : a % widthBytes w = 0) (hspace : a < 2 ^ 32) :
    a + widthBytes w ≤ 2 ^ 32 := by
  have hpos := widthBytes_pos w
  have := aligned_below a (widthBytes w - 1) (2 ^ 32) w (by norm_num) ha (by omega) hspace
  omega

/-- An aligned access in the mailbox window ends within it. -/
theorem aligned_window {c : Cfg} {a : Nat} {w : Width} (hwf : configWf c = true) (ha : a % widthBytes w = 0)
    (hin : inWindow c a = true) : c.mailboxBase ≤ a ∧ a + widthBytes w ≤ c.mailboxBase + 256 := by
  have hpos := widthBytes_pos w
  have hlast := inWindow_aligned c hwf a (widthBytes w - 1) w ha (by omega)
  rw [hin, inWindow_iff] at hlast
  rw [inWindow_iff] at hin
  omega

section

variable {s : State} {a : Nat} {w : Width} (hwf : configWf s.cfg = true) (ha : a % widthBytes w = 0)
include hwf ha

/-- An aligned write in the window, byte by byte. -/
theorem byteAt_memWrite_of_inWindow (hin : inWindow s.cfg a = true) (v b : Nat) :
    byteAt (memWrite s a w v) b =
      if a ≤ b ∧ b < a + widthBytes w then (leBytes v (widthBytes w)).getD (b - a) 0 else byteAt s b := by
  obtain ⟨hlo, hhi⟩ := aligned_window hwf ha hin
  rw [memWrite_of_inWindow w v hin, byteAt_storeMailbox s a b _ hlo (by rwa [leBytes_length]), leBytes_length]

variable (hspace : a < 2 ^ 32) (hout : inWindow s.cfg a = false)
include hspace hout

/-- An aligned write in little-endian plain memory, byte by byte. -/
theorem byteAt_memWrite_of_plainLittle (hb : backingOf s.cfg a = .plainLittle) (v b : Nat) :
    byteAt (memWrite s a w v) b =
      if a ≤ b ∧ b < a + widthBytes w then (leBytes v (widthBytes w)).getD (b - a) 0 else byteAt s b := by
  rw [memWrite_of_plainLittle w v hout hb, byteAt_storePlain s a b _ ?space ?outside, leBytes_length]
  case space => rw [leBytes_length]; exact aligned_space ha hspace
  case outside => rw [leBytes_length]; exact fun k hk => (inWindow_aligned s.cfg hwf a k w ha hk).trans hout

/-- An aligned write in big-endian plain memory, byte by byte. -/
theorem byteAt_memWrite_of_plainBig (hb : backingOf s.cfg a = .plainBig) (v b : Nat) :
    byteAt (memWrite s a w v) b =
      if a ≤ b ∧ b < a + widthBytes w then (beBytes v (widthBytes w)).getD (b - a) 0 else byteAt s b := by
  rw [memWrite_of_plainBig w v hout hb, byteAt_storePlain s a b _ ?space ?outside, beBytes_length]
  case space => rw [beBytes_length]; exact aligned_space ha hspace
  case outside => rw [beBytes_length]; exact fun k hk => (inWindow_aligned s.cfg hwf a k w ha hk).trans hout

end

/-- Settles O43: by the backing; an aligned write stays outside the window and within the address space. -/
theorem plainWriteChangesItsBytes : Obligations.PlainWriteChangesItsBytes := by
  rintro s t a v w hwf ha hspace hout rfl
  refine ⟨?frame, fun hb => ⟨?littleDev, fun b => ?little⟩, fun hb => ⟨?bigDev, fun b => ?big⟩, fun hb => ?device⟩
  case frame =>
    obtain ⟨hin, -⟩ | ⟨-, -, h⟩ | ⟨-, -, h⟩ | ⟨-, -, h⟩ := memWrite_cases s a v w
    · simp [hin] at hout
    all_goals rw [h]
  case littleDev => rw [memWrite_of_plainLittle w v hout hb]
  case little =>
    rw [byteAt_memWrite_of_plainLittle hwf ha hspace hout hb]
    split_ifs with hin
    · exact leBytes_getD _ _ _ (by omega)
    · rfl
  case bigDev => rw [memWrite_of_plainBig w v hout hb]
  case big =>
    rw [byteAt_memWrite_of_plainBig hwf ha hspace hout hb]
    split_ifs with hin
    · exact beBytes_getD _ _ _ (by omega)
    · rfl
  case device =>
    rw [memWrite_of_device w v hout hb]
    exact ⟨rfl, rfl⟩

end Sys2Proof.Machine
end

section
/-! The read and write commands against memory that holds bytes (20_memory.md R68, R80): a read gives back what a write of
the same width stored, and repeating a read changes nothing. -/

namespace Sys2Proof.Machine

/-! ### A read after a write -/

@[simp] theorem memWrite_cfg (s : State) (a v : Nat) (w : Width) : (memWrite s a w v).cfg = s.cfg :=
  (congrArg State.cfg (memWrite_frame s a v w).1 :)

@[simp] theorem memWrite_tagState (s : State) (a v : Nat) (w : Width) :
    (memWrite s a w v).tagState = s.tagState :=
  (congrArg State.tagState (memWrite_frame s a v w).1 :)

/-- Stored bytes are the bytes then found at the addresses they cover. -/
theorem bytesAt_of_stored {t : State} {a : Nat} {vs : List Byte} {old : Nat → Byte}
    (h : ∀ b, byteAt t b = if a ≤ b ∧ b < a + vs.length then vs.getD (b - a) 0 else old b) :
    bytesAt t a vs.length = vs :=
  bytesAt_eq fun k hk => by rw [h, if_pos (by omega), Nat.add_sub_cancel_left]

/-- A number of as many bytes as the access is wide is read back from where it was written, in the mailbox window and in
plain memory. -/
theorem memRead_memWrite {s : State} {a v : Nat} {w : Width} (hwf : configWf s.cfg = true)
    (ha : a % widthBytes w = 0) (hspace : a < 2 ^ 32)
    (hplain : inWindow s.cfg a = true ∨ backingOf s.cfg a ≠ .device) (hv : v < 256 ^ widthBytes w) :
    (memRead (memWrite s a w v) a w).1 = v := by
  have hlittle := bytesAt_of_stored (t := memWrite s a w v) (a := a) (vs := leBytes v (widthBytes w)) (old := byteAt s)
  have hbig := bytesAt_of_stored (t := memWrite s a w v) (a := a) (vs := beBytes v (widthBytes w)) (old := byteAt s)
  simp only [leBytes_length, beBytes_length] at hlittle hbig
  obtain ⟨hin, -⟩ | ⟨hout, hb, -⟩ | ⟨hout, hb, -⟩ | ⟨hout, hb, -⟩ := memWrite_cases s a v w
  · rw [memRead_of_inWindow w (by rwa [memWrite_cfg]), hlittle (byteAt_memWrite_of_inWindow hwf ha hin v),
      leNat_leBytes, Nat.mod_eq_of_lt hv]
  · rw [memRead_of_plainLittle w (by rwa [memWrite_cfg]) (by rwa [memWrite_cfg]),
      hlittle (byteAt_memWrite_of_plainLittle hwf ha hspace hout hb v), leNat_leBytes, Nat.mod_eq_of_lt hv]
  · rw [memRead_of_plainBig w (by rwa [memWrite_cfg]) (by rwa [memWrite_cfg]),
      hbig (byteAt_memWrite_of_plainBig hwf ha hspace hout hb v), beNat_beBytes, Nat.mod_eq_of_lt hv]
  · simp [hout, hb] at hplain

/-! ### The rows of the read and write commands (43_dandelion_commands.md R232 to R237) -/

/-- The read command of a width. -/
def readInstr (w : Width) (p : List Byte) : Instr :=
  match w with
  | .word => .readWord p
  | .halfword => .readHalfword p
  | .byte => .readByte p

/-- Its Dandelion code (30_encoding.md R100). -/
def readCode : Width → Byte
  | .word => dcReadWord
  | .halfword => dcReadHalfword
  | .byte => dcReadByte

/-- Its acknowledge code (00_scope.md R6). -/
def readAck (c : Cfg) : Width → Byte
  | .word => c.ackReadWord
  | .halfword => c.ackReadHalfword
  | .byte => c.ackReadByte

/-- The write command of a width. -/
def writeInstr (w : Width) (p : List Byte) : Instr :=
  match w with
  | .word => .writeWord p
  | .halfword => .writeHalfword p
  | .byte => .writeByte p

/-- Its Dandelion code (30_encoding.md R100). -/
def writeCode : Width → Byte
  | .word => dcWriteWord
  | .halfword => dcWriteHalfword
  | .byte => dcWriteByte

/-- Its acknowledge code (00_scope.md R6). -/
def writeAck (c : Cfg) : Width → Byte
  | .word => c.ackWriteWord
  | .halfword => c.ackWriteHalfword
  | .byte => c.ackWriteByte

/-- What `exec` makes of the read command of a width. -/
def readRow (w : Width) (p : List Byte) (s : State) : State :=
  withRequest (readCode w) p (dandRead w (readAck s.cfg w)) s

/-- What `exec` makes of the write command of a width. -/
def writeRow (w : Width) (p : List Byte) (s : State) : State :=
  withRequest (writeCode w) p (dandWrite w (writeAck s.cfg w)) s

theorem exec_readInstr (w : Width) (p : List Byte) (s : State) :
    exec (readInstr w p) s = .next (readRow w p s) := by
  cases w <;> rfl

theorem exec_writeInstr (w : Width) (p : List Byte) (s : State) :
    exec (writeInstr w p) s = .next (writeRow w p s) := by
  cases w <;> rfl

/-- In `ProtDand` a row runs its procedure on the written request. -/
theorem withRequest_of_protDand {s : State} (code : Byte) {p : List Byte} (k : State → State)
    (htag : s.tagState = .protDand) (hp : p.length ≤ 48) :
    withRequest code p k s = k { s with req := requestOfPayload code p } := by
  rw [withRequest, if_pos htag, mkRequest_of_le code p hp]

theorem addrOperand_requestOfPayload (code : Byte) (addr data : List Byte) (haddr : addr.length = 4)
    (hlen : (addr ++ data).length ≤ 48) : addrOperand (requestOfPayload code (addr ++ data)) = beNat addr := by
  rw [addrOperand, payloadSlice_requestOfPayload _ _ _ _ (by simp; omega) hlen, List.take_left' haddr, List.drop_zero]

theorem dataOperand_requestOfPayload (code : Byte) (addr data : List Byte) (haddr : addr.length = 4)
    (hlen : (addr ++ data).length ≤ 48) :
    dataOperand (requestOfPayload code (addr ++ data)) data.length = beNat data := by
  rw [dataOperand, payloadSlice_requestOfPayload _ _ _ _ (by simp; omega) hlen, List.take_of_length_le (by simp; omega),
    List.drop_left' haddr]

theorem dandRead_of_allowed {s : State} {w : Width} (ack : Byte) (hlen : s.req.plen = 4)
    (hcheck : check s.cfg (addrOperand s.req) w .read = .allowed) :
    dandRead w ack s =
      replyBytes (ack :: beBytes (memRead s (addrOperand s.req) w).1 (widthBytes w)) true
        (memRead s (addrOperand s.req) w).2 := by
  simp [dandRead, hlen, hcheck]

theorem dandWrite_of_allowed {s : State} {w : Width} (ack : Byte) (hlen : s.req.plen = 4 + widthBytes w)
    (hcheck : check s.cfg (addrOperand s.req) w .write = .allowed) :
    dandWrite w ack s =
      replyBytes [ack] true (memWrite s (addrOperand s.req) w (dataOperand s.req (widthBytes w))) := by
  simp [dandWrite, hlen, hcheck]

/-- An allowed write command stores its data, most significant byte first, and acknowledges. -/
theorem writeRow_of_allowed {s : State} {w : Width} {addr data : List Byte} (htag : s.tagState = .protDand)
    (haddr : addr.length = 4) (hdata : data.length = widthBytes w)
    (hcheck : check s.cfg (beNat addr) w .write = .allowed) :
    writeRow w (addr ++ data) s =
      replyBytes [writeAck s.cfg w] true
        (memWrite { s with req := requestOfPayload (writeCode w) (addr ++ data) } (beNat addr) w (beNat data)) := by
  have hn := widthBytes_le w
  have hlen : (addr ++ data).length = 4 + widthBytes w := by rw [List.length_append, haddr, hdata]
  have haddrOp := addrOperand_requestOfPayload (writeCode w) addr data haddr (by omega)
  have hdataOp := dataOperand_requestOfPayload (writeCode w) addr data haddr (by omega)
  rw [hdata] at hdataOp
  rw [writeRow, withRequest_of_protDand _ _ htag (by omega), dandWrite_of_allowed _ hlen (by rwa [haddrOp])]
  rw [haddrOp, hdataOp]

/-- The reply to an allowed read command: the acknowledge and the value read, most significant byte first. -/
theorem readRow_resp_of_allowed {s : State} {w : Width} {addr : List Byte} (htag : s.tagState = .protDand)
    (haddr : addr.length = 4) (hcheck : check s.cfg (beNat addr) w .read = .allowed) :
    (readRow w addr s).resp =
      responseOfBytes (readAck s.cfg w :: beBytes (memRead s (beNat addr) w).1 (widthBytes w)) true := by
  have haddrOp := addrOperand_requestOfPayload (readCode w) addr [] haddr (by simp [haddr])
  rw [List.append_nil] at haddrOp
  rw [readRow, withRequest_of_protDand _ _ htag (by omega), dandRead_of_allowed _ haddr (by rwa [haddrOp]), haddrOp,
    replyBytes_resp, 
    memRead_congr (s := s) (t := { s with req := requestOfPayload (readCode w) addr }) (beNat addr) w rfl rfl rfl]

/-- What a reply of a status byte and data holds. -/
theorem responseOfBytes_cons (b : Byte) (bs : List Byte) (crc : Bool) (h : bs.length ≤ 47) :
    (responseOfBytes (b :: bs) crc).bitLength = 8 * (1 + bs.length) ∧
      ((responseOfBytes (b :: bs) crc).payload.toList.drop 1).take bs.length = bs := by
  have hlen : (b :: bs).length ≤ 48 := by rw [List.length_cons]; omega
  rw [responseOfBytes_of_le _ _ (by simp) hlen, padBytes_toList_of_le 48 _ hlen]
  refine ⟨?bits, ?payload⟩
  case bits => rw [List.length_cons, Nat.add_comm]
  case payload => simp

/-- The reply to a read command that follows the write command of the same width and address: the data written. -/
theorem readRow_writeRow_resp {s : State} {w : Width} {addr data : List Byte} (hwf : configWf s.cfg = true)
    (htag : s.tagState = .protDand) (haddr : addr.length = 4) (hdata : data.length = widthBytes w)
    (hwrite : check s.cfg (beNat addr) w .write = .allowed) (hread : check s.cfg (beNat addr) w .read = .allowed)
    (hplain : inWindow s.cfg (beNat addr) = true ∨ backingOf s.cfg (beNat addr) ≠ .device) :
    (readRow w addr (writeRow w (addr ++ data) s)).resp = responseOfBytes (readAck s.cfg w :: data) true := by
  have hspace : beNat addr < 2 ^ 32 := by simpa [haddr] using beNat_lt addr
  have hvalue : beNat data < 256 ^ widthBytes w := hdata ▸ beNat_lt data
  have hstored := memRead_memWrite (s := { s with req := requestOfPayload (writeCode w) (addr ++ data) }) hwf
    (aligned_of_check_allowed hread) hspace hplain hvalue
  have hback : beBytes (beNat data) (widthBytes w) = data := hdata ▸ beBytes_beNat data
  rw [writeRow_of_allowed htag haddr hdata hwrite,
    readRow_resp_of_allowed (by simpa using htag) haddr (by simpa using hread),
    memRead_congr (s := memWrite _ _ w (beNat data)) _ w (replyBytes_cfg _ _ _) (replyBytes_mailbox _ _ _)
      (replyBytes_env _ _ _), hstored, hback, replyBytes_cfg, memWrite_cfg]

/-- Settles O54: the write command stores the data's number at the address, and the read command answers the number
that is read back there, in the same byte order. -/
theorem writeThenReadReturnsData : Obligations.WriteThenReadReturnsData := by
  rintro s t u addr data a w wr rd hrows hwf htag haddr hdata rfl hwrite hread hplain ht hu
  obtain ⟨rfl, rfl⟩ : wr = writeInstr w (addr ++ data) ∧ rd = readInstr w addr := by
    obtain ⟨rfl, hrow⟩ | ⟨rfl, hrow⟩ | ⟨rfl, hrow⟩ := hrows <;> exact hrow
  rw [exec_writeInstr] at ht
  rw [exec_readInstr] at hu
  obtain rfl := Host.Outcome.next.inj ht
  obtain rfl := Host.Outcome.next.inj hu
  have hn := widthBytes_le w
  rw [readRow_writeRow_resp hwf htag haddr hdata hwrite hread hplain, ← hdata]
  exact responseOfBytes_cons _ data true (by omega)

/-! ### A repeated read -/

/-- The reply of `Read` is a function of the request, the configuration, the mailbox and `env`. -/
theorem dandRead_resp_congr {s t : State} (w : Width) (ack : Byte) (hreq : t.req = s.req) (hcfg : t.cfg = s.cfg)
    (hmb : t.mailbox = s.mailbox) (henv : t.env = s.env) : (dandRead w ack t).resp = (dandRead w ack s).resp := by
  unfold dandRead
  rw [hreq, hcfg]
  split_ifs
  · rfl
  · cases check s.cfg (addrOperand s.req) w .read with
    | misaligned => rfl
    | denied => rfl
    | allowed => simp only [replyBytes_resp, memRead_congr _ w hcfg hmb henv]

/-- Away from devices `Read` writes `resp` only. -/
theorem dandRead_state {s : State} (w : Width) (ack : Byte)
    (h : inWindow s.cfg (addrOperand s.req) = true ∨ backingOf s.cfg (addrOperand s.req) ≠ .device) :
    ∃ r, dandRead w ack s = { s with resp := r } := by
  obtain ⟨c, -, hread⟩ | ⟨-, -, hread⟩ := dandRead_cases w ack s
  · exact ⟨_, hread⟩
  · rw [memRead_state w h] at hread
    exact ⟨_, hread⟩

/-- Away from devices a read command writes `req` and `resp` only. -/
theorem readRow_state {s : State} {addr : List Byte} (w : Width) (haddr : addr.length = 4)
    (h : inWindow s.cfg (beNat addr) = true ∨ backingOf s.cfg (beNat addr) ≠ .device) :
    ∃ q r, readRow w addr s = { s with req := q, resp := r } := by
  obtain ⟨hrow, -⟩ | ⟨-, -, hrow⟩ := withRequest_cases (readCode w) addr (dandRead w (readAck s.cfg w)) s
  · exact ⟨_, _, hrow⟩
  · have haddrOp := addrOperand_requestOfPayload (readCode w) addr [] haddr (by simp [haddr])
    rw [List.append_nil] at haddrOp
    obtain ⟨r, hread⟩ := dandRead_state (s := { s with req := requestOfPayload (readCode w) addr }) w
      (readAck s.cfg w) (by rwa [haddrOp])
    exact ⟨_, _, hrow.trans hread⟩

/-- What `req` and `resp` held before a read command does not show in its reply. -/
theorem readRow_resp_withReqResp (s : State) (w : Width) (p : List Byte) (q : Request) (r : Response) :
    (readRow w p { s with req := q, resp := r }).resp = (readRow w p s).resp := by
  unfold readRow withRequest
  split_ifs
  · cases mkRequest (readCode w) p with
    | none => rfl
    | some req => exact dandRead_resp_congr w _ rfl rfl rfl rfl
  · rfl

/-- Settles O55: the first read leaves a state that differs in `req` and `resp` only, on which the second reply does
not depend. -/
theorem readTwiceIsIdentical : Obligations.ReadTwiceIsIdentical := by
  rintro s t u addr a w rd hrows haddr rfl hplain ht hu
  obtain rfl : rd = readInstr w addr := by
    obtain ⟨rfl, hrd⟩ | ⟨rfl, hrd⟩ | ⟨rfl, hrd⟩ := hrows <;> exact hrd
  rw [exec_readInstr] at ht hu
  obtain ⟨q, r, hfirst⟩ := readRow_state w haddr hplain
  obtain rfl : { s with req := q, resp := r } = t := hfirst.symm.trans (Host.Outcome.next.inj ht)
  obtain ⟨q', r', hsecond⟩ := readRow_state (s := { s with req := q, resp := r }) w haddr hplain
  obtain rfl := Host.Outcome.next.inj hu
  refine ⟨?resp, ?env, ?mailbox⟩
  case resp => rw [readRow_resp_withReqResp, hfirst]
  case env => rw [hsecond]
  case mailbox => rw [hsecond]

end Sys2Proof.Machine
end

section
/-! The decoder undoes the encoder and the encoder the decoder (30_encoding.md R91 to R93, R103, R109). A frame that
carries an instruction has one of three layouts: a short frame, a SEL frame in AC form, a standard frame with a
checksum. On the bits of a layout the decoder reads the layout's parts; every bit sequence that decodes to an instruction
is the bits of a layout; and the parts of a layout and the instruction they select determine each other. -/

namespace Sys2Proof

/-! ### The three layouts of a frame that carries an instruction -/

/-- `decodeAc` of the parts it reads: the SEL code, `NVB` and the UID bits. -/
def decodeSelAc (sel nvb : Byte) (u : List Bool) : Decoded :=
  if sel = cmdSel1 then .instr (.sel1Ac nvb u)
  else if sel = cmdSel2 then .instr (.sel2Ac nvb u)
  else if sel = cmdSel3 then .instr (.sel3Ac nvb u)
  else .rejected .unknownAc

theorem decodeAc_eq (f : Frame) :
    decodeAc f = decodeSelAc f.command ((f.bytes.drop 1).headD 0) (f.dataBits.drop 16) := rfl

/-- What a frame carries beside its parity bits and checksum. -/
inductive Layout
  | short (code : Byte)
  | ac (sel nvb : Byte) (u : List Bool)
  | standard (command : Byte) (link : List Byte)

namespace Layout

/-- The raw bits of the layout, by the encoder's functions. -/
def bits : Layout → List Bool
  | .short code => encodeShort code
  | .ac sel nvb u => encodeAc sel nvb u
  | .standard command link => encodeStandard (command :: link)

/-- What the layout's parts select, by the decoder's functions. -/
def decoded : Layout → Decoded
  | .short code => decodeShort code
  | .ac sel nvb u => decodeSelAc sel nvb u
  | .standard command link => decodeStandard command link

/-- The layout can be read back from its bits: a short code has seven bits, and a SEL frame is in AC form or not as
30_encoding.md R109 says. -/
def ok : Layout → Prop
  | .short code => code.toNat < 128
  | .ac sel nvb u => isSelCode sel = true ∧ wfAc nvb u = true
  | .standard command link => isSelCode command = true → wfSelect link = true

/-- The layout's frame is short or not longer than the receive buffer (30_encoding.md R128). -/
def fits (rxMax : Nat) (b : Layout) : Prop := b.bits.length = 7 ∨ b.bits.length ≤ rxMax

end Layout

/-- The layout of an instruction's frame (30_encoding.md R104 to R116). -/
def Instr.layout : Instr → Layout
  | .reqa => .short cmdReqa
  | .wupa => .short cmdWupa
  | .timeslot => .short cmdTimeslot
  | .hlta link => .standard cmdHlta link
  | .ratsDand link => .standard cmdRatsDand link
  | .deselectDand link => .standard cmdDeselectDand link
  | .t2tRead link => .standard cmdT2tRead link
  | .dandCmd link => .standard cmdDand link
  | .sel1Ac nvb u => .ac cmdSel1 nvb u
  | .sel1Select link => .standard cmdSel1 link
  | .sel2Ac nvb u => .ac cmdSel2 nvb u
  | .sel2Select link => .standard cmdSel2 link
  | .sel3Ac nvb u => .ac cmdSel3 nvb u
  | .sel3Select link => .standard cmdSel3 link
  | .readWord p => .standard cmdDand (dcReadWord :: p)
  | .readHalfword p => .standard cmdDand (dcReadHalfword :: p)
  | .readByte p => .standard cmdDand (dcReadByte :: p)
  | .writeWord p => .standard cmdDand (dcWriteWord :: p)
  | .writeHalfword p => .standard cmdDand (dcWriteHalfword :: p)
  | .writeByte p => .standard cmdDand (dcWriteByte :: p)
  | .call p => .standard cmdDand (dcCall :: p)
  | .sendMessage p => .standard cmdDand (dcSendMessage :: p)
  | .loopback p => .standard cmdDand (dcLoopback :: p)

theorem encode_eq_bits (i : Instr) : encode i = i.layout.bits := by
  cases i <;> rfl

/-- The raw length that WellFormed.lean gives is the length of the encoding. -/
theorem encode_length : ∀ i : Instr, (encode i).length = i.rawBits
  | .reqa => Laws.EncodeLength.reqa
  | .wupa => Laws.EncodeLength.wupa
  | .timeslot => Laws.EncodeLength.timeslot
  | .hlta link => Laws.EncodeLength.hlta link
  | .ratsDand link => Laws.EncodeLength.ratsDand link
  | .deselectDand link => Laws.EncodeLength.deselectDand link
  | .t2tRead link => Laws.EncodeLength.t2tRead link
  | .dandCmd link => Laws.EncodeLength.dandCmd link
  | .sel1Ac nvb u => Laws.EncodeLength.sel1Ac nvb u
  | .sel1Select link => Laws.EncodeLength.sel1Select link
  | .sel2Ac nvb u => Laws.EncodeLength.sel2Ac nvb u
  | .sel2Select link => Laws.EncodeLength.sel2Select link
  | .sel3Ac nvb u => Laws.EncodeLength.sel3Ac nvb u
  | .sel3Select link => Laws.EncodeLength.sel3Select link
  | .readWord p => Laws.EncodeLength.readWord p
  | .readHalfword p => Laws.EncodeLength.readHalfword p
  | .readByte p => Laws.EncodeLength.readByte p
  | .writeWord p => Laws.EncodeLength.writeWord p
  | .writeHalfword p => Laws.EncodeLength.writeHalfword p
  | .writeByte p => Laws.EncodeLength.writeByte p
  | .call p => Laws.EncodeLength.call p
  | .sendMessage p => Laws.EncodeLength.sendMessage p
  | .loopback p => Laws.EncodeLength.loopback p

theorem fits_iff_layout_fits (rxMax : Nat) (i : Instr) : i.fits rxMax = true ↔ i.layout.fits rxMax := by
  rw [Layout.fits, ← encode_eq_bits, encode_length]
  simp [Instr.fits]

/-! ### The parts of a layout and the instruction they select -/

/-- A Dandelion row selected by its code carries the payload, which its own layout puts back after the code. -/
theorem dandelionInstr_eq_some {code : Byte} {p : List Byte} {i : Instr} (h : dandelionInstr code p = some i) :
    i.layout = .standard cmdDand (code :: p) ∧ i.wf = wfPayload p := by
  unfold dandelionInstr at h
  split_ifs at h <;> cases h <;> subst code <;> exact ⟨rfl, rfl⟩

theorem dandelionInstr_eq_none_iff (code : Byte) (p : List Byte) :
    dandelionInstr code p = none ↔ dandCodes.contains code = false := by
  unfold dandelionInstr dandCodes
  split_ifs <;> simp [*]

theorem decodeDand_of_eq_some {code : Byte} {p : List Byte} {i : Instr} (hp : wfPayload p = true)
    (h : dandelionInstr code p = some i) : decodeDand (code :: p) = i := by
  rw [decodeDand, if_pos (of_decide_eq_true hp), h, Option.getD_some]

theorem decodeDand_of_wfDandCmd {link : List Byte} (h : wfDandCmd link = true) : decodeDand link = .dandCmd link := by
  cases link with
  | nil => rfl
  | cons code p =>
    rw [decodeDand]
    split_ifs with hp
    · have hcode : dandCodes.contains code = false := by simpa [wfDandCmd, Nat.not_lt.mpr hp] using h
      rw [(dandelionInstr_eq_none_iff code p).mpr hcode, Option.getD_none]
    · rfl

theorem decodeDand_layout_wf (link : List Byte) :
    (decodeDand link).layout = .standard cmdDand link ∧ (decodeDand link).wf = true := by
  cases link with
  | nil => exact ⟨rfl, rfl⟩
  | cons code p =>
    rw [decodeDand]
    split_ifs with hp
    · cases hrow : dandelionInstr code p with
      | none =>
        have hcode := (dandelionInstr_eq_none_iff code p).mp hrow
        exact ⟨rfl, by simp only [Option.getD_none, Instr.wf, wfDandCmd, hcode]; rfl⟩
      | some i =>
        obtain ⟨hlayout, hwf⟩ := dandelionInstr_eq_some hrow
        exact ⟨hlayout, hwf.trans (decide_eq_true hp)⟩
    · have hlong : bufCap < p.length := Nat.lt_of_not_le hp
      exact ⟨rfl, by simp [Instr.wf, wfDandCmd, hlong]⟩

theorem decodeShort_eq_instr {code : Byte} {i : Instr} (h : decodeShort code = .instr i) :
    i.layout = .short code ∧ i.wf = true := by
  unfold decodeShort at h
  split_ifs at h <;> cases h <;> subst code <;> exact ⟨rfl, rfl⟩

theorem decodeSelAc_eq_instr {sel nvb : Byte} {u : List Bool} {i : Instr} (h : decodeSelAc sel nvb u = .instr i) :
    i.layout = .ac sel nvb u ∧ isSelCode sel = true ∧ i.wf = wfAc nvb u := by
  unfold decodeSelAc at h
  split_ifs at h <;> cases h <;> subst sel <;> exact ⟨rfl, rfl, rfl⟩

theorem decodeStandard_eq_instr {command : Byte} {link : List Byte} {i : Instr}
    (h : decodeStandard command link = .instr i) :
    i.layout = .standard command link ∧ ((isSelCode command = true → wfSelect link = true) → i.wf = true) := by
  unfold decodeStandard at h
  split_ifs at h <;> cases h <;> subst command
  · exact ⟨rfl, fun _ => rfl⟩
  · exact ⟨rfl, fun hsel => hsel rfl⟩
  · exact ⟨rfl, fun hsel => hsel rfl⟩
  · exact ⟨rfl, fun hsel => hsel rfl⟩
  · exact ⟨rfl, fun _ => rfl⟩
  · exact ⟨rfl, fun _ => rfl⟩
  · obtain ⟨hlayout, hwf⟩ := decodeDand_layout_wf link
    exact ⟨hlayout, fun _ => hwf⟩
  · exact ⟨rfl, fun _ => rfl⟩

/-- The parts of a layout determine the instruction they select, and it is well formed. -/
theorem Layout.layout_of_decoded {b : Layout} {i : Instr} (hok : b.ok) (h : b.decoded = .instr i) :
    i.layout = b ∧ i.wf = true := by
  cases b with
  | short code => exact decodeShort_eq_instr h
  | ac sel nvb u =>
    obtain ⟨hlayout, -, hwf⟩ := decodeSelAc_eq_instr h
    exact ⟨hlayout, hwf.trans hok.2⟩
  | standard command link =>
    obtain ⟨hlayout, hwf⟩ := decodeStandard_eq_instr h
    exact ⟨hlayout, hwf hok⟩

/-- The layout of a well-formed instruction can be read back. -/
theorem Instr.layout_ok {i : Instr} (h : i.wf = true) : i.layout.ok := by
  cases i with
  | reqa | wupa | timeslot => simp [Instr.layout, Layout.ok, cmdReqa, cmdWupa, cmdTimeslot]
  | sel1Ac | sel2Ac | sel3Ac => exact ⟨rfl, h⟩
  | sel1Select | sel2Select | sel3Select => exact fun _ => h
  | _ => exact fun hsel => absurd hsel (by decide)

/-- The parts of a well-formed instruction's layout select the instruction. -/
theorem Instr.layout_decoded {i : Instr} (h : i.wf = true) : i.layout.decoded = .instr i := by
  cases i with
  | dandCmd link => exact congrArg Decoded.instr (decodeDand_of_wfDandCmd h)
  | readWord | readHalfword | readByte | writeWord | writeHalfword | writeByte | call | sendMessage | loopback =>
    exact congrArg Decoded.instr (decodeDand_of_eq_some h rfl)
  | _ => rfl

/-! ### What the decoder reads from the bits of a layout -/

/-- The seven bits of a short frame and its code (30_encoding.md R91). -/
theorem byteOfBits_encodeShort : ∀ code : Byte, code.toNat < 128 → byteOfBits (encodeShort code) = code := by
  decide

theorem encodeShort_byteOfBits {rx : List Bool} (h : rx.length = 7) :
    encodeShort (byteOfBits rx) = rx ∧ (byteOfBits rx).toNat < 128 := by
  have hbits : ∀ b0 b1 b2 b3 b4 b5 b6 : Bool,
      encodeShort (byteOfBits [b0, b1, b2, b3, b4, b5, b6]) = [b0, b1, b2, b3, b4, b5, b6] ∧
        (byteOfBits [b0, b1, b2, b3, b4, b5, b6]).toNat < 128 := by decide
  match rx, h with
  | [b0, b1, b2, b3, b4, b5, b6], _ => exact hbits b0 b1 b2 b3 b4 b5 b6

theorem decode_of_length_seven {rxMax : Nat} {rx : List Bool} (h : rx.length = 7) :
    decode rxMax rx = decodeShort (byteOfBits rx) := by
  have htype : frameTypeOf rxMax rx.length = .short := (frameTypeOf_short_iff rxMax _).mpr h
  unfold decode classify
  rw [htype]
  rfl

theorem decode_of_error {rxMax : Nat} {rx : List Bool} (h : frameTypeOf rxMax rx.length = .error) :
    decode rxMax rx = .rejected .badLength := by
  unfold decode classify
  rw [h]
  rfl

/-! ### Standard frames -/

/-- What the classifier makes of whole bytes with right parity bits (40_frame_classifier.md R144). -/
def standardFrame (bs : List Byte) : Frame :=
  ⟨9 * bs.length, .standard, bs.headD 0, true, bitsOfBytes bs, bs, requestOf bs⟩

theorem classify_encodeBytes {rxMax : Nat} {bs : List Byte} (h1 : 1 ≤ bs.length) (hl : 9 * bs.length ≤ rxMax) :
    classify rxMax (encodeBytes bs) = standardFrame bs := by
  rw [encodeBytes_eq, classify_standard rxMax _ (by simpa using h1) (by simpa using hl)]
  simp [standardFrame, Function.comp_def, List.all_eq_true]

/-- Right parity leaves the tests of 41_link_commands.md R160 from the AC form on. -/
theorem decodeFrame_standardFrame (bs : List Byte) :
    decodeFrame (standardFrame bs) =
      if isAcForm (standardFrame bs) then decodeAc (standardFrame bs)
      else if crcOk bs = false then .rejected .checksum
      else decodeStandard (bs.headD 0) (linkPayload bs) := rfl

/-- A standard frame of at least 2 bytes is in AC form when it has at most 6, a SEL code first and no `0x70` second
(30_encoding.md R109). -/
theorem isAcForm_cons_cons_iff (sel nvb : Byte) (us : List Byte) :
    isAcForm (standardFrame (sel :: nvb :: us)) = true ↔
      us.length ≤ 4 ∧ isSelCode sel = true ∧ nvb ≠ nvbSelect := by
  have hlen : us.length + 1 < 6 ↔ us.length ≤ 4 := by omega
  simp [isAcForm, standardFrame, and_assoc, hlen]

theorem eq_cons_cons_of_isAcForm {bs : List Byte} (h : isAcForm (standardFrame bs) = true) :
    ∃ sel nvb us, bs = sel :: nvb :: us := by
  match bs with
  | [] | [_] => simp [isAcForm, standardFrame] at h
  | sel :: nvb :: us => exact ⟨sel, nvb, us, rfl⟩

theorem wfSelect_cons_iff (nvb : Byte) (us : List Byte) :
    wfSelect (nvb :: us) = true ↔ 3 ≤ us.length ∨ nvb = nvbSelect := by
  simp [wfSelect]

/-- No SEL code alone has a checksum that begins with `0x70`. -/
theorem crcA_selCode_ne {sel : Byte} (h : isSelCode sel = true) : (crcA [sel]).setWidth 8 ≠ nvbSelect := by
  simp only [isSelCode, Bool.or_eq_true, beq_iff_eq, or_assoc] at h
  obtain rfl | rfl | rfl := h <;> decide

/-- A standard frame with its checksum is in AC form unless its parts are those of a standard layout. With no link
payload the second byte is the checksum's first. -/
theorem isAcForm_eq_false_iff_ok (command : Byte) (link : List Byte) :
    isAcForm (standardFrame (command :: link ++ crcBytes (command :: link))) = false ↔
      (Layout.standard command link).ok := by
  rw [← Bool.not_eq_true, Layout.ok]
  cases link with
  | nil =>
    have hcrc := crcA_selCode_ne (sel := command)
    rw [crcBytes, List.singleton_append, isAcForm_cons_cons_iff]
    constructor
    · intro hnot hsel
      exact absurd ⟨by simp, hsel, hcrc hsel⟩ hnot
    · rintro hok ⟨-, hsel, -⟩
      exact absurd (hok hsel) (by decide)
  | cons nvb us =>
    have hlen : (us ++ crcBytes (command :: nvb :: us)).length ≤ 4 ↔ ¬ 3 ≤ us.length := by simp; omega
    rw [List.cons_append, List.cons_append, isAcForm_cons_cons_iff, wfSelect_cons_iff, hlen]
    tauto

theorem linkPayload_append_crcBytes (command : Byte) (link : List Byte) :
    linkPayload (command :: link ++ crcBytes (command :: link)) = link := by
  simp [linkPayload]

/-- The decoder reads first byte and link payload of a standard frame with its checksum. -/
theorem decode_encodeStandard {rxMax : Nat} {command : Byte} {link : List Byte}
    (hok : (Layout.standard command link).ok) (hl : 9 * (link.length + 3) ≤ rxMax) :
    decode rxMax (encodeStandard (command :: link)) = decodeStandard command link := by
  have hclass := classify_encodeBytes (rxMax := rxMax) (bs := command :: link ++ crcBytes (command :: link))
    (by simp) (by simpa using hl)
  rw [decode, encodeStandard, hclass, decodeFrame_standardFrame, (isAcForm_eq_false_iff_ok command link).mpr hok,
    crcOk_append_crcBytes _ (by simp), linkPayload_append_crcBytes]
  rfl

/-! ### Frames in AC form -/

theorem encodeAc_bytes (sel nvb : Byte) (us : List Byte) :
    encodeAc sel nvb (bitsOfBytes us) = encodeBytes (sel :: nvb :: us) := by
  simp [encodeAc, encodeBytes]

/-- A byte-aligned frame in AC form: the bytes after `NVB` are the UID bits. -/
theorem decodeAc_standardFrame (sel nvb : Byte) (us : List Byte) :
    decodeAc (standardFrame (sel :: nvb :: us)) = decodeSelAc sel nvb (bitsOfBytes us) := rfl

/-- A frame that ends in a fragment carries whatever its first byte selects in AC form. -/
theorem decode_encodeAc_fragment {rxMax : Nat} (sel nvb : Byte) {us : List Byte} {tail : List Bool}
    (h3 : us.length ≤ 3) (h1 : 1 ≤ tail.length) (h7 : tail.length ≤ 7)
    (hl : 9 * (us.length + 2) + tail.length ≤ rxMax) :
    decode rxMax (encodeAc sel nvb (bitsOfBytes us ++ tail)) = decodeSelAc sel nvb (bitsOfBytes us ++ tail) := by
  have hraw := addParity_bitsOfBytes (sel :: nvb :: us) tail h7
  have hclass := classify_anticollision rxMax ((sel :: nvb :: us).map fun b => (b, parityBit b)) tail
    (by simp) (by simp; omega) h1 h7 (by simpa using hl)
  have hbits : bitsOfBytes [sel, nvb] ++ (bitsOfBytes us ++ tail) = bitsOfBytes (sel :: nvb :: us) ++ tail := by simp
  rw [decode, encodeAc, hbits, hraw, hclass]
  simp [decodeFrame, isAcForm, decodeAc_eq, bitsOfByte, Function.comp_def]

/-- The decoder reads SEL code, `NVB` and UID bits of a frame in AC form, byte-aligned or not. -/
theorem decode_encodeAc {rxMax : Nat} {sel nvb : Byte} {u : List Bool} (hok : (Layout.ac sel nvb u).ok)
    (hl : rawAc u.length ≤ rxMax) : decode rxMax (encodeAc sel nvb u) = decodeSelAc sel nvb u := by
  obtain ⟨hsel, hwf⟩ := hok
  simp only [wfAc, Bool.and_eq_true, decide_eq_true_eq, Bool.or_eq_true, bne_iff_ne] at hwf
  obtain ⟨h32, hnvb⟩ := hwf
  obtain ⟨us, tail, rfl, h7⟩ := exists_bytes_tail u
  simp only [rawAc, List.length_append, bitsOfBytes_length] at h32 hnvb hl
  cases tail with
  | nil =>
    have hac : isAcForm (standardFrame (sel :: nvb :: us)) = true :=
      (isAcForm_cons_cons_iff sel nvb us).mpr ⟨by simp at h32; omega, hsel, hnvb.resolve_left (by simp)⟩
    rw [List.append_nil, encodeAc_bytes, decode, classify_encodeBytes (by simp) (by simp at hl ⊢; omega),
      decodeFrame_standardFrame, if_pos hac, decodeAc_standardFrame]
  | cons b rest =>
    simp only [List.length_cons] at h32 h7 hl
    exact decode_encodeAc_fragment sel nvb (by omega) (by simp) (by simpa using h7) (by simp; omega)

/-! ### The two directions -/

/-- On the bits of a layout the decoder reads the layout's parts. -/
theorem Layout.decode_bits {rxMax : Nat} {b : Layout} (hok : b.ok) (hfits : b.fits rxMax) :
    decode rxMax b.bits = b.decoded := by
  cases b with
  | short code =>
    have hcode : byteOfBits (encodeShort code) = code := byteOfBits_encodeShort code hok
    rw [Layout.bits, decode_of_length_seven rfl, hcode, Layout.decoded]
  | ac sel nvb u =>
    rw [Layout.fits, Layout.bits, encodeAc_length] at hfits
    exact decode_encodeAc hok (hfits.resolve_left (by simp only [rawAc]; omega))
  | standard command link =>
    rw [Layout.fits, Layout.bits, encodeStandard_length] at hfits
    exact decode_encodeStandard hok (hfits.resolve_left (by omega))

/-- Settles O19: an instruction's frame is the bits of its layout, whose parts select it. -/
theorem decodeOfEncode : Obligations.DecodeOfEncode := by
  intro rxMax i hwf hfits
  rw [encode_eq_bits, Layout.decode_bits (Instr.layout_ok hwf) ((fits_iff_layout_fits rxMax i).mp hfits),
    Instr.layout_decoded hwf]

theorem parityOk_of_decodeFrame {f : Frame} {i : Instr} (hshort : f.frameType ≠ .short)
    (h : decodeFrame f = .instr i) : f.parityOk = true := by
  unfold decodeFrame at h
  cases htype : f.frameType with
  | short => exact absurd htype hshort
  | error => simp [htype] at h
  | standard | anticollision =>
    by_contra hparity
    simp [htype, Bool.eq_false_of_not_eq_true hparity] at h

/-- A frame longer than seven bits that carries an instruction is bytes and a fragment with right parity bits. -/
theorem exists_addParity_of_decode {rxMax : Nat} {rx : List Bool} {i : Instr}
    (htype : frameTypeOf rxMax rx.length = .standard ∨ frameTypeOf rxMax rx.length = .anticollision)
    (h : decode rxMax rx = .instr i) :
    ∃ bs tail, tail.length ≤ 7 ∧ rx = addParity (bitsOfBytes bs ++ tail) ∧
      rx.length = 9 * bs.length + tail.length := by
  have hparity : (rawGroups rx).all Prod.snd = true := by
    have hclass := parityOk_of_decodeFrame (by rw [classify_frameType]; obtain ht | ht := htype <;> simp [ht]) h
    unfold classify at hclass
    obtain ht | ht := htype <;> rwa [ht] at hclass
  obtain ⟨gs, tail, rfl, h8⟩ := exists_groups_tail rx.length rx le_rfl
  have h7 : tail.length ≤ 7 := by
    rw [frameTypeOf_standard_iff, frameTypeOf_anticollision_iff, List.length_append, rawOfGroups_length] at htype
    omega
  have hgs : (gs.map Prod.fst).map (fun b => (b, parityBit b)) = gs := by
    rw [rawGroups_rawOfGroups gs tail h8] at hparity
    simp only [List.all_map, List.all_eq_true, Function.comp_apply, beq_iff_eq] at hparity
    have hid : ∀ g ∈ gs, (g.1, parityBit g.1) = id g := fun g hg => Prod.ext rfl (hparity g hg).symm
    rw [List.map_map]
    exact (List.map_congr_left hid).trans (List.map_id gs)
  refine ⟨gs.map Prod.fst, tail, h7, ?_, by simp⟩
  rw [addParity_bitsOfBytes _ tail h7, hgs]

/-- A standard frame that carries an instruction is the bits of a layout. -/
theorem exists_layout_of_standard {rxMax : Nat} {rx : List Bool} {i : Instr}
    (htype : frameTypeOf rxMax rx.length = .standard) (h : decode rxMax rx = .instr i) :
    ∃ b : Layout, b.bits = rx ∧ b.ok ∧ b.decoded = .instr i := by
  obtain ⟨bs, tail, h7, hrx, hlen⟩ := exists_addParity_of_decode (.inl htype) h
  obtain ⟨hl, hmod, hpos⟩ := (frameTypeOf_standard_iff _ _).mp htype
  obtain rfl : tail = [] := List.eq_nil_of_length_eq_zero (by omega)
  rw [List.length_nil, Nat.add_zero] at hlen
  obtain rfl : rx = encodeBytes bs := by rw [hrx, List.append_nil, encodeBytes]
  rw [decode, classify_encodeBytes (by omega) (by omega), decodeFrame_standardFrame] at h
  split_ifs at h with hac hcrc
  · obtain ⟨sel, nvb, us, rfl⟩ := eq_cons_cons_of_isAcForm hac
    obtain ⟨h4, hsel, hnvb⟩ := (isAcForm_cons_cons_iff sel nvb us).mp hac
    refine ⟨.ac sel nvb (bitsOfBytes us), encodeAc_bytes sel nvb us, ⟨hsel, ?_⟩, h⟩
    have h32 : 8 * us.length ≤ 32 := by omega
    simp [wfAc, h32, hnvb]
  · obtain ⟨h3, hsplit⟩ := eq_append_crcBytes_of_crcOk bs (by simpa using hcrc)
    obtain ⟨command, link, hbody⟩ := List.exists_cons_of_length_pos
      (l := bs.take (bs.length - 2)) (by rw [List.length_take]; omega)
    rw [hbody] at hsplit
    subst hsplit
    rw [linkPayload_append_crcBytes] at h
    exact ⟨.standard command link, rfl, (isAcForm_eq_false_iff_ok command link).mp (by simpa using hac), h⟩

/-- An anticollision frame that carries an instruction is the bits of a layout in AC form. -/
theorem exists_layout_of_anticollision {rxMax : Nat} {rx : List Bool} {i : Instr}
    (htype : frameTypeOf rxMax rx.length = .anticollision) (h : decode rxMax rx = .instr i) :
    ∃ b : Layout, b.bits = rx ∧ b.ok ∧ b.decoded = .instr i := by
  obtain ⟨bs, tail, h7, hrx, hlen⟩ := exists_addParity_of_decode (.inr htype) h
  obtain ⟨hl, h1, -, h2, h5⟩ := (frameTypeOf_anticollision_iff _ _).mp htype
  match bs, hrx, hlen with
  | [], _, hlen => simp only [List.length_nil] at hlen; omega
  | [_], _, hlen => simp only [List.length_cons, List.length_nil] at hlen; omega
  | sel :: nvb :: us, hrx, hlen =>
    simp only [List.length_cons] at hlen
    obtain rfl : encodeAc sel nvb (bitsOfBytes us ++ tail) = rx := by simp [hrx, encodeAc]
    rw [decode_encodeAc_fragment sel nvb (by omega) (by omega) h7 (by omega)] at h
    obtain ⟨-, hsel, -⟩ := decodeSelAc_eq_instr h
    refine ⟨.ac sel nvb (bitsOfBytes us ++ tail), rfl, ⟨hsel, ?_⟩, h⟩
    have h32 : 8 * us.length + tail.length ≤ 32 := by omega
    have hfragment : tail.length % 8 ≠ 0 := by omega
    simp [wfAc, h32, hfragment]

/-- Every bit sequence that carries an instruction is the bits of a layout whose parts select it. -/
theorem exists_layout_of_decode {rxMax : Nat} {rx : List Bool} {i : Instr} (h : decode rxMax rx = .instr i) :
    ∃ b : Layout, b.bits = rx ∧ b.ok ∧ b.decoded = .instr i := by
  cases htype : frameTypeOf rxMax rx.length with
  | short =>
    have h7 := (frameTypeOf_short_iff rxMax _).mp htype
    obtain ⟨hbits, hok⟩ := encodeShort_byteOfBits h7
    exact ⟨.short (byteOfBits rx), hbits, hok, (decode_of_length_seven h7).symm.trans h⟩
  | standard => exact exists_layout_of_standard htype h
  | anticollision => exact exists_layout_of_anticollision htype h
  | error =>
    rw [decode_of_error htype] at h
    cases h

/-- A frame that carries an instruction is short or not longer than the receive buffer. -/
theorem length_of_decode {rxMax : Nat} {rx : List Bool} {i : Instr} (h : decode rxMax rx = .instr i) :
    rx.length = 7 ∨ rx.length ≤ rxMax := by
  cases htype : frameTypeOf rxMax rx.length with
  | short => exact .inl ((frameTypeOf_short_iff rxMax _).mp htype)
  | standard => exact .inr ((frameTypeOf_standard_iff _ _).mp htype).1
  | anticollision => exact .inr ((frameTypeOf_anticollision_iff _ _).mp htype).1
  | error =>
    rw [decode_of_error htype] at h
    cases h

/-- Settles O20: the bits are those of a layout, and it is the layout of the instruction that its parts select. -/
theorem encodeOfDecode : Obligations.EncodeOfDecode := by
  intro rxMax rx i h
  obtain ⟨b, rfl, hok, hdec⟩ := exists_layout_of_decode h
  obtain ⟨rfl, hwf⟩ := Layout.layout_of_decoded hok hdec
  exact ⟨encode_eq_bits i, hwf, (fits_iff_layout_fits rxMax i).mpr (length_of_decode h)⟩

/-- Settles O21: the four frames are encodings of well-formed instructions that fit 468 bits. -/
theorem knownFramesDecode : Obligations.KnownFramesDecode :=
  ⟨decodeOfEncode 468 .reqa rfl rfl, decodeOfEncode 468 (.hlta [0x00]) rfl rfl,
    decodeOfEncode 468
      (.sel1Ac 0x35 [false, false, true, false, false, false, false, false, true, false, false, false, false]) rfl rfl,
    decodeOfEncode 468 (.readWord [0x20, 0x00, 0x00, 0x10]) rfl rfl⟩

end Sys2Proof
end

section
/-! The reply primitives (30_encoding.md R122, R123; 60_exceptions.md R286): what stands in `resp`, bit by bit. -/

namespace Sys2Proof

/-! ### Bits packed into bytes -/

theorem bitsToNat_testBit (l : List Bool) (i : Nat) : (bitsToNat l).testBit i = l.getD i false := by
  induction l generalizing i with
  | nil => simp [bitsToNat]
  | cons b bs ih =>
    cases i with
    | zero => cases b <;> simp [bitsToNat, Nat.testBit_zero]
    | succ i =>
      have hhalf : (b.toNat + 2 * bitsToNat bs) / 2 = bitsToNat bs := by
        have hb := Bool.toNat_lt b
        omega
      rw [bitsToNat, Nat.testBit_succ, hhalf, ih, List.getD_cons_succ]

theorem getElem_bitsOfByte (b : Byte) (i : Nat) (hi : i < (bitsOfByte b).length) :
    (bitsOfByte b)[i] = b.getLsbD i := by
  rw [bitsOfByte_length] at hi
  interval_cases i <;> rfl

theorem getElem?_append_replicate_false (l : List Bool) {m k : Nat} (hk : k < l.length + m) :
    (l ++ List.replicate m false)[k]? = some (l.getD k false) := by
  by_cases h : k < l.length
  · rw [List.getElem?_append_left h, List.getElem?_eq_getElem h, List.getD_eq_getElem _ _ h]
  · have hrest : k - l.length < m := by omega
    rw [List.getElem?_append_right (Nat.not_lt.mp h), List.getElem?_replicate_of_lt hrest,
      List.getD_eq_default _ _ (Nat.not_lt.mp h)]

/-- A byte of at most eight bits holds them from bit 0 on, then zeros (30_encoding.md R92). -/
theorem bitsOfByte_byteOfBits_of_le {l : List Bool} (h : l.length ≤ 8) :
    bitsOfByte (byteOfBits l) = l ++ List.replicate (8 - l.length) false := by
  refine List.ext_getElem (by simp; omega) fun i hi _ => Option.some.inj ?_
  have h8 : i < 8 := hi
  rw [getElem_bitsOfByte, ← List.getElem?_eq_getElem, getElem?_append_replicate_false l (by omega), byteOfBits,
    BitVec.getLsbD_ofNat, bitsToNat_testBit, decide_eq_true h8, Bool.true_and]

theorem bitsOfBytes_replicate_zero (m : Nat) : bitsOfBytes (List.replicate m 0) = List.replicate (8 * m) false := by
  induction m with
  | zero => rfl
  | succ m ih =>
    have hzero : bitsOfByte 0 = List.replicate 8 false := by decide
    rw [List.replicate_succ, bitsOfBytes_cons, ih, hzero, List.replicate_append_replicate, Nat.mul_succ, Nat.add_comm]

/-- Packed bits are the sequence and the zeros that fill its last byte (30_encoding.md R123). -/
theorem exists_bitsOfBytes_packBits (bits : List Bool) :
    ∃ n ≤ 7, bitsOfBytes (Machine.packBits bits) = bits ++ List.replicate n false := by
  obtain ⟨bs, tail, rfl, h7⟩ := exists_bytes_tail bits
  rw [Machine.packBits_bitsOfBytes bs tail h7]
  split_ifs with htail
  · exact ⟨0, by omega, by simp [htail]⟩
  · have h1 := List.length_pos_iff.mpr htail
    refine ⟨8 - tail.length, by omega, ?_⟩
    simp [bitsOfByte_byteOfBits_of_le (Nat.le_succ_of_le h7)]

/-- Bit `k` of the buffer holds bit `k` of the packed sequence, and 0 past its end. -/
theorem getElem?_bitsOfBytes_padBytes_packBits {bits : List Bool} (h : bits.length ≤ 384) {k : Nat} (hk : k < 384) :
    (bitsOfBytes (padBytes 48 (Machine.packBits bits)).toList)[k]? = some (bits.getD k false) := by
  obtain ⟨n, h7, hpack⟩ := exists_bitsOfBytes_packBits bits
  have hlen := congrArg List.length hpack
  simp only [bitsOfBytes_length, List.length_append, List.length_replicate] at hlen
  rw [padBytes_toList_of_le 48 _ (by omega), bitsOfBytes_append, hpack, bitsOfBytes_replicate_zero, List.append_assoc,
    List.replicate_append_replicate]
  exact getElem?_append_replicate_false bits (by omega)

end Sys2Proof

namespace Sys2Proof.Machine

/-- Settles O56: each primitive writes one response into `resp`, whose fields are its definition's. -/
theorem replyPrimitives : Obligations.ReplyPrimitives := by
  intro s bs bits crc c
  refine ⟨fun h1 h48 => ⟨responseOfBytes bs crc, rfl, ?bytes⟩, fun h1 h40 => ⟨responseOfBits bits, rfl, ?bits⟩,
    ⟨responseOfBytes [c] true, rfl, isStatusReply_responseOfBytes c⟩, ?none⟩
  case bytes =>
    rw [responseOfBytes_of_le bs crc h1 h48]
    exact ⟨rfl, rfl, rfl, padBytes_toList_of_le 48 bs h48⟩
  case bits =>
    have h384 : bits.length ≤ 384 := by omega
    rw [responseOfBits_of_le bits h1 h384]
    exact ⟨rfl, rfl, rfl, fun k hk => getElem?_bitsOfBytes_padBytes_packBits h384 hk⟩
  case none => rw [replyBytes, responseOfBytes_nil]

end Sys2Proof.Machine
end

section
/-! The Frame Classifier (40_frame_classifier.md R141 to R150): the raw length fixes a frame's type; a standard or
anticollision frame holds its groups' bytes and bits as received; the checksum test is a zero remainder. -/

namespace Sys2Proof

/-! ### The type and its lengths (R141 to R147) -/

/-- The classifier's last case, by exclusion of the three others. -/
theorem frameTypeOf_error_iff (rxMax len : Nat) :
    frameTypeOf rxMax len = .error ↔
      len ≠ 7 ∧ ¬(len ≤ rxMax ∧ len % 9 = 0 ∧ 1 ≤ len / 9) ∧
        ¬(len ≤ rxMax ∧ 1 ≤ len % 9 ∧ len % 9 ≤ 7 ∧ 2 ≤ len / 9 ∧ len / 9 ≤ 5) := by
  rw [Ne, ← frameTypeOf_short_iff rxMax, ← frameTypeOf_standard_iff, ← frameTypeOf_anticollision_iff]
  cases frameTypeOf rxMax len <;> simp

theorem classify_of_error {rxMax : Nat} {rx : List Bool} (h : frameTypeOf rxMax rx.length = .error) :
    classify rxMax rx = ⟨rx.length, .error, 0, true, [], [], none⟩ := by
  unfold classify
  rw [h]

/-- Settles O22: the error lengths are those the three other types leave over, and `classify` gives them one record. -/
theorem errorFrameLengths : Obligations.ErrorFrameLengths := by
  intro rxMax rx
  rw [classify_frameType]
  refine ⟨?_, classify_of_error⟩
  rw [frameTypeOf_error_iff]
  omega

/-- Settles O23, type by type. -/
theorem wellFormedFrameLengths : Obligations.WellFormedFrameLengths := by
  intro rxMax rx
  rw [classify_frameType]
  refine ⟨frameTypeOf_short_iff rxMax _, ?standard, ?anticollision⟩
  case standard =>
    rw [frameTypeOf_standard_iff]
    constructor
    · rintro ⟨hmax, hmod, hpos⟩
      exact ⟨rx.length / 9, hpos, by omega, hmax⟩
    · rintro ⟨n, hn, hlen, hmax⟩
      omega
  case anticollision =>
    rw [frameTypeOf_anticollision_iff]
    omega

/-! ### Groups and parity (R143, R146) -/

/-- Standard and anticollision frames differ in no field that is read from the groups. -/
theorem classify_of_grouped {rxMax : Nat} {rx : List Bool}
    (h : frameTypeOf rxMax rx.length = .standard ∨ frameTypeOf rxMax rx.length = .anticollision) :
    ∃ command request, classify rxMax rx =
      ⟨rx.length, frameTypeOf rxMax rx.length, command, (rawGroups rx).all Prod.snd, dropParity rx,
        (rawGroups rx).map Prod.fst, request⟩ := by
  unfold classify
  obtain h | h := h <;> rw [h] <;> exact ⟨_, _, rfl⟩

/-- Settles O24: the groups the classifier reads are those the frame is made of. -/
theorem parityFlagIsExact : Obligations.ParityFlagIsExact := by
  intro rxMax groups tail rx h7 hrx htype
  obtain ⟨command, request, hclass⟩ := classify_of_grouped htype
  obtain rfl : rx = rawOfGroups groups ++ tail := hrx
  have h8 : tail.length ≤ 8 := by omega
  rw [hclass, rawGroups_rawOfGroups groups tail h8, dropParity_rawOfGroups groups tail h8]
  refine ⟨rfl, ?bytes, ?dataBits, ?parityOk⟩
  case bytes => simp
  case dataBits => rw [bitsOfBytes, List.flatMap_map]
  case parityOk => simp

/-! ### The embedded request (R149, R150) -/

theorem classify_request (rxMax : Nat) (rx : List Bool) :
    (classify rxMax rx).request =
      if (classify rxMax rx).frameType = .standard then requestOf (classify rxMax rx).bytes else none := by
  unfold classify
  cases frameTypeOf rxMax rx.length <;> rfl

theorem linkPayload_append_pair (command c0 c1 : Byte) (link : List Byte) :
    linkPayload (command :: link ++ [c0, c1]) = link := by
  simp [linkPayload]

theorem linkPayload_length (bytes : List Byte) : (linkPayload bytes).length = bytes.length - 3 := by
  rw [linkPayload, List.length_take, List.length_drop]
  omega

theorem requestOf_of_le (code c0 c1 : Byte) {payload : List Byte} (h : payload.length ≤ 48) :
    requestOf (cmdDand :: (code :: payload) ++ [c0, c1]) = some (Machine.requestOfPayload code payload) := by
  rw [requestOf, if_pos ⟨by simp, rfl⟩, linkPayload_append_pair]
  exact Machine.mkRequest_of_le code payload h

/-- Bytes too few, not begun by DAND_CMD, or too many for the buffer carry no request. -/
theorem requestOf_eq_none {bytes : List Byte}
    (h : bytes.length < 4 ∨ bytes.head? ≠ some cmdDand ∨ 52 < bytes.length) : requestOf bytes = none := by
  unfold requestOf
  by_cases hguard : 4 ≤ bytes.length ∧ bytes.head? = some cmdDand
  · obtain ⟨h4, hhead⟩ := hguard
    have h52 : 52 < bytes.length := (h.resolve_left (by omega)).resolve_left (not_not_intro hhead)
    have hlen := linkPayload_length bytes
    rw [if_pos ⟨h4, hhead⟩]
    cases hlink : linkPayload bytes with
    | nil => rfl
    | cons code payload =>
      rw [hlink, List.length_cons] at hlen
      exact Machine.mkRequest_of_lt code payload (by omega)
  · rw [if_neg hguard]

/-- Settles O25: the request of a standard frame is that of its bytes, and no other frame has one. -/
theorem requestIsExtracted : Obligations.RequestIsExtracted := by
  intro rxMax rx
  rw [classify_request]
  constructor
  · intro htype code payload c0 c1 hbytes hlen
    rw [if_pos htype, hbytes]
    exact ⟨_, requestOf_of_le code c0 c1 hlen, rfl, rfl, padBytes_toList_of_le 48 payload hlen⟩
  · rintro (htype | hbytes)
    · rw [if_neg htype]
    · rw [requestOf_eq_none hbytes, ite_self]

/-! ### The checksum (R102, R148) -/

/-- A step shifts the register and adds a term of the byte and the register's low byte that depends on their xor alone. -/
theorem crcStep_eq_xor (c : Halfword) (b : Byte) : crcStep c b = (c >>> 8) ^^^ crcStep 0 (b ^^^ c.setWidth 8) := by
  simp [crcStep, BitVec.xor_assoc]

theorem crcStep_zero_zero : crcStep 0 0#8 = 0#16 := by decide

/-- The byte that equals the register's low byte shifts the register. -/
theorem crcStep_setWidth (c : Halfword) : crcStep c (c.setWidth 8) = c >>> 8 := by
  rw [crcStep_eq_xor, BitVec.xor_self, crcStep_zero_zero, BitVec.xor_zero]

/-- No byte but 0 leaves the high byte of a zero register 0. -/
theorem crcStep_zero_high : ∀ x : Byte, crcStep 0 x >>> 8 = 0 → x = 0 := by
  decide

/-- The high byte after a step is 0 only for the register's low byte. -/
theorem eq_setWidth_of_crcStep_high {c : Halfword} {b : Byte} (h : crcStep c b >>> 8 = 0) : b = c.setWidth 8 := by
  have hhigh : c >>> 8 >>> 8 = 0#16 := by rw [← BitVec.shiftRight_add]; exact BitVec.ushiftRight_eq_zero le_rfl
  rw [crcStep_eq_xor, BitVec.ushiftRight_xor_distrib, hhigh, BitVec.zero_xor] at h
  exact BitVec.xor_eq_zero_iff.mp (crcStep_zero_high _ h)

/-- Two bytes bring the register to 0 exactly when they are its low and its high byte. -/
theorem crcStep_crcStep_eq_zero_iff (c : Halfword) (lo hi : Byte) :
    crcStep (crcStep c lo) hi = 0 ↔ lo = c.setWidth 8 ∧ hi = (c >>> 8).setWidth 8 := by
  constructor
  · intro h
    have hhi : hi = (crcStep c lo).setWidth 8 := eq_setWidth_of_crcStep_high (by rw [h]; rfl)
    rw [hhi, crcStep_setWidth] at h
    obtain rfl := eq_setWidth_of_crcStep_high h
    rw [crcStep_setWidth] at hhi
    exact ⟨rfl, hhi⟩
  · rintro ⟨rfl, rfl⟩
    rw [crcStep_setWidth, crcStep_setWidth, ← BitVec.shiftRight_add]
    exact BitVec.ushiftRight_eq_zero le_rfl

theorem crcA_append_pair (body : List Byte) (lo hi : Byte) :
    crcA (body ++ [lo, hi]) = crcStep (crcStep (crcA body) lo) hi := by
  simp [crcA]

/-- A body with two bytes passes the test exactly when they are the low and the high byte of the body's checksum. -/
theorem crcOk_append_pair_iff {body : List Byte} (hbody : body ≠ []) (lo hi : Byte) :
    crcOk (body ++ [lo, hi]) = true ↔ lo = (crcA body).setWidth 8 ∧ hi = (crcA body >>> 8).setWidth 8 := by
  have h1 := List.length_pos_iff.mpr hbody
  simp [crcOk, crcBytes, Nat.succ_le_iff, h1]

theorem eq_low_high_iff_toNat (c : Halfword) (lo hi : Byte) :
    lo = c.setWidth 8 ∧ hi = (c >>> 8).setWidth 8 ↔ c.toNat = lo.toNat + 256 * hi.toNat := by
  rw [← BitVec.toNat_inj, ← BitVec.toNat_inj]
  simp only [BitVec.toNat_setWidth, BitVec.toNat_ushiftRight, Nat.shiftRight_eq_div_pow]
  omega

theorem exists_append_pair {bytes : List Byte} (h : 3 ≤ bytes.length) :
    ∃ body lo hi, body ≠ [] ∧ bytes = body ++ [lo, hi] := by
  obtain ⟨lo, hi, hlast⟩ := List.length_eq_two.mp
    (show (bytes.drop (bytes.length - 2)).length = 2 by rw [List.length_drop]; omega)
  refine ⟨bytes.take (bytes.length - 2), lo, hi, ?_, ?_⟩
  · rw [← List.length_pos_iff, List.length_take]
    omega
  · rw [← hlast, List.take_append_drop]

/-- Settles O26: the last two bytes are the checksum of the rest exactly when they bring its register to 0. -/
theorem checksumTestIsZeroRemainder : Obligations.ChecksumTestIsZeroRemainder := by
  refine ⟨?tooFew, ?lastTwo, ?remainder⟩
  case tooFew =>
    intro bytes h
    rw [crcOk, decide_eq_false (Nat.not_le.mpr h), Bool.false_and]
  case lastTwo =>
    intro body lo hi hbody
    rw [crcOk_append_pair_iff hbody, eq_low_high_iff_toNat]
  case remainder =>
    intro bytes h
    obtain ⟨body, lo, hi, hbody, rfl⟩ := exists_append_pair h
    rw [crcOk_append_pair_iff hbody, crcA_append_pair, crcStep_crcStep_eq_zero_iff]

end Sys2Proof
end

section
/-! The link commands one by one (41_link_commands.md R162 to R173, R180, R181): what each answers in the states that
accept it and in the others, where it is the catch-all's 0xAF. -/

namespace Sys2Proof.Machine

/-! ### The catch-all and the states -/

theorem unknownCommand_eq (s : State) :
    unknownCommand s = { s with resp := ⟨8, true, true, padBytes 48 [0xAF]⟩ } := rfl

theorem isSleeping_iff (t : TagState) : isSleeping t = true ↔ t = .idle ∨ t = .halt := by
  cases t <;> decide

theorem isActive_iff (t : TagState) : isActive t = true ↔ t = .active0 ∨ t = .active1 := by
  cases t <;> decide

theorem isSelected_iff_mem (t : TagState) :
    isSelected t = true ↔ t ∈ [TagState.active0, .active1, .protDand] := by
  cases t <;> decide

/-! ### REQA and WUPA (R162, R163, R180) -/

theorem wake_of_sleeping (t : TagState) {s : State} (h : s.tagState = .idle ∨ s.tagState = .halt) :
    wake t s =
      { s with
        tagState := t, cascadeLevel := 0
        resp := ⟨16, true, false, padBytes 48 [s.cfg.atqa0, s.cfg.atqa1]⟩ } := by
  rw [wake, if_pos ((isSleeping_iff _).mpr h)]
  rfl

theorem wake_of_awake (t : TagState) {s : State} (hidle : s.tagState ≠ .idle) (hhalt : s.tagState ≠ .halt) :
    wake t s = unknownCommand s := by
  rw [wake, if_neg fun h => ((isSleeping_iff _).mp h).elim hidle hhalt]

/-- Settles O27: both commands are `wake`, to different Ready states. -/
theorem wakeCommands : Obligations.WakeCommands := by
  intro s
  refine ⟨fun hsleep => ⟨?reqa, ?wupa⟩, fun hidle hhalt => ⟨?reqaAwake, ?wupaAwake⟩⟩
  case reqa => exact congrArg Host.Outcome.next (wake_of_sleeping .ready0 hsleep)
  case wupa => exact congrArg Host.Outcome.next (wake_of_sleeping .ready1 hsleep)
  case reqaAwake => exact congrArg Host.Outcome.next (wake_of_awake .ready0 hidle hhalt)
  case wupaAwake => exact congrArg Host.Outcome.next (wake_of_awake .ready1 hidle hhalt)

/-! ### The standard-frame commands (R168, R170, R171) -/

theorem exec_hlta (link : List Byte) (s : State) :
    exec (.hlta link) s =
      .next (if isSelected s.tagState then replyNone { s with tagState := .halt } else unknownCommand s) := rfl

theorem exec_ratsDand (link : List Byte) (s : State) :
    exec (.ratsDand link) s =
      .next
        (if isActive s.tagState then replyBytes s.cfg.ratsReply true { s with tagState := .protDand }
        else unknownCommand s) := rfl

theorem exec_deselectDand (link : List Byte) (s : State) :
    exec (.deselectDand link) s =
      .next
        (if s.tagState = .protDand then replyBytes s.cfg.deselectReply true { s with tagState := .halt }
        else unknownCommand s) := rfl

/-- Settles O28: the accepting states are the selected ones. -/
theorem hltaHalts : Obligations.HltaHalts := by
  intro s link
  rw [← isSelected_iff_mem, exec_hlta]
  refine ⟨fun hsel => ?selected, fun hsel => ?other⟩
  case selected => rw [if_pos hsel, replyNone]
  case other => rw [if_neg hsel, unknownCommand_eq]

/-- A reply string of at most 48 bytes goes out whole, with its checksum. -/
theorem replyBytes_of_ne_nil {bs : List Byte} (crc : Bool) (s : State) (hne : bs ≠ []) (h48 : bs.length ≤ 48) :
    replyBytes bs crc s = { s with resp := ⟨8 * bs.length, true, crc, padBytes 48 bs⟩ } := by
  rw [replyBytes, responseOfBytes_of_le bs crc (List.length_pos_iff.mpr hne) h48]

/-- A reply string of the configuration (00_scope.md R6): no reply when it is empty, else its bytes with a checksum. -/
theorem replyBytes_string {bs : List Byte} (s : State) (h48 : bs.length ≤ 48) :
    (bs = [] → replyBytes bs true s = { s with resp := freshResponse }) ∧
      (bs ≠ [] → replyBytes bs true s = { s with resp := ⟨8 * bs.length, true, true, padBytes 48 bs⟩ }) :=
  ⟨fun hnil => by rw [hnil, replyBytes, responseOfBytes_nil], fun hne => replyBytes_of_ne_nil true s hne h48⟩

/-- Settles O29: the accepting states are the active ones, and the reply is a string of the configuration. -/
theorem ratsDandEntersProtocol : Obligations.RatsDandEntersProtocol := by
  intro s link h48
  rw [exec_ratsDand]
  refine ⟨fun hact => ?active, fun h0 h1 => ?other⟩
  case active =>
    rw [if_pos ((isActive_iff _).mpr hact)]
    obtain ⟨hnil, hne⟩ := replyBytes_string { s with tagState := .protDand } h48
    exact ⟨fun h => congrArg Host.Outcome.next (hnil h), fun h => congrArg Host.Outcome.next (hne h)⟩
  case other => rw [if_neg fun h => ((isActive_iff _).mp h).elim h0 h1, unknownCommand_eq]

/-- Settles O30: only `ProtDand` accepts, and the reply is a string of the configuration. -/
theorem deselectDandHalts : Obligations.DeselectDandHalts := by
  intro s link h48
  rw [exec_deselectDand]
  refine ⟨fun hprot => ?protDand, fun hnot => ?other⟩
  case protDand =>
    rw [if_pos hprot]
    obtain ⟨hnil, hne⟩ := replyBytes_string { s with tagState := .halt } h48
    exact ⟨fun h => congrArg Host.Outcome.next (hnil h), fun h => congrArg Host.Outcome.next (hne h)⟩
  case other => rw [if_neg hnot, unknownCommand_eq]

/-! ### Timeslot and T2T_READ (R164, R173) -/

/-- With an `AUX_HANDLER`, both commands apply it to the frame being handled. -/
theorem exec_aux_of_present {s : State} {f : Frame} (link : List Byte) (hframe : s.frame = some f)
    (haux : s.cfg.auxPresent = true) :
    exec .timeslot s = .next (auxApply f s) ∧ exec (.t2tRead link) s = .next (auxApply f s) := by
  simp [exec, execTimeslot, execT2tRead, haux, hframe]

theorem exec_aux_of_absent {s : State} (link : List Byte) (haux : s.cfg.auxPresent = false) :
    exec .timeslot s = .refused .timeslotWithoutHandler ∧
      exec (.t2tRead link) s = .refused .t2tReadWithoutHandler := by
  simp [exec, execTimeslot, execT2tRead, haux]

/-- Settles O31: `auxApply` takes link state and reply from the handler, and touches nothing else. -/
theorem auxCommands : Obligations.AuxCommands := by
  intro s f link hframe
  refine ⟨fun haux r hr => ?present, exec_aux_of_absent link⟩
  subst hr
  obtain ⟨htimeslot, ht2t⟩ := exec_aux_of_present link hframe haux
  have hlink := linkOnly_auxApply f s
  refine ⟨auxApply f s, htimeslot, ht2t, by rw [auxApply_eq], by rw [auxApply_eq], hlink.sameButLink,
    (congrArg State.frame hlink :), (congrArg State.req hlink :), ?_⟩
  rw [auxApply_eq]
  cases (Config.auxHandler s.tagState f).reply <;> rfl

/-! ### Dandelion frames (R172, R181, R231, R240, R244) -/

theorem withRequest_of_not_protDand {s : State} (code : Byte) (p : List Byte) (k : State → State)
    (h : s.tagState ≠ .protDand) : withRequest code p k s = unknownCommand s := by
  rw [withRequest, if_neg h]

/-- A payload that does not fit the buffer makes no request, in `ProtDand` or not. -/
theorem withRequest_of_lt (code : Byte) {p : List Byte} (k : State → State) (s : State) (h : 48 < p.length) :
    withRequest code p k s = unknownCommand s := by
  rw [withRequest, mkRequest_of_lt code p h]
  exact ite_self _

theorem exec_dandCmd_nil (s : State) : exec (.dandCmd []) s = .next (unknownCommand s) := rfl

theorem exec_dandCmd_cons (code : Byte) (p : List Byte) (s : State) :
    exec (.dandCmd (code :: p)) s = .next (withRequest code p dispatch s) := rfl

/-- Two procedures that agree on the written request answer a frame alike. -/
theorem withRequest_congr {code : Byte} {p : List Byte} {k k' : State → State} {s : State}
    (h : k { s with req := requestOfPayload code p } = k' { s with req := requestOfPayload code p }) :
    withRequest code p k s = withRequest code p k' s := by
  by_cases hp : p.length ≤ 48
  · by_cases hprot : s.tagState = .protDand
    · rw [withRequest_of_protDand code k hprot hp, h, withRequest_of_protDand code k' hprot hp]
    · rw [withRequest_of_not_protDand code p k hprot, withRequest_of_not_protDand code p k' hprot]
  · rw [withRequest_of_lt code k s (Nat.lt_of_not_le hp), withRequest_of_lt code k' s (Nat.lt_of_not_le hp)]

/-- The row of a code does what DAND_CMD does with that code: `dispatch` chooses the row's procedure. -/
theorem exec_of_dandelionInstr {code : Byte} {p : List Byte} {i : Instr} (h : dandelionInstr code p = some i)
    (s : State) : exec i s = exec (.dandCmd (code :: p)) s := by
  rw [exec_dandCmd_cons]
  unfold dandelionInstr at h
  split_ifs at h <;> cases h <;> subst code <;> exact congrArg Host.Outcome.next (withRequest_congr rfl)

theorem exec_dandCmd_of_not_protDand {s : State} (link : List Byte) (h : s.tagState ≠ .protDand) :
    exec (.dandCmd link) s = .next (unknownCommand s) := by
  cases link with
  | nil => exact exec_dandCmd_nil s
  | cons code p => rw [exec_dandCmd_cons, withRequest_of_not_protDand code p dispatch h]

/-- Settles O46: each of the nine rows does what DAND_CMD does with its code, and DAND_CMD answers 0xAF. -/
theorem dandelionOutsideProtDand : Obligations.DandelionOutsideProtDand := by
  intro s p i hprot hi
  rw [← unknownCommand_eq]
  have hdand (link : List Byte) := exec_dandCmd_of_not_protDand link hprot
  have hrow {code : Byte} (h : dandelionInstr code p = some i) : exec i s = .next (unknownCommand s) :=
    (exec_of_dandelionInstr h s).trans (hdand (code :: p))
  simp only [List.mem_cons, List.not_mem_nil, or_false] at hi
  obtain rfl | rfl | rfl | rfl | rfl | rfl | rfl | rfl | rfl | rfl := hi
  · exact hdand p
  · exact hrow (code := dcReadWord) rfl
  · exact hrow (code := dcReadHalfword) rfl
  · exact hrow (code := dcReadByte) rfl
  · exact hrow (code := dcWriteWord) rfl
  · exact hrow (code := dcWriteHalfword) rfl
  · exact hrow (code := dcWriteByte) rfl
  · exact hrow (code := dcCall) rfl
  · exact hrow (code := dcSendMessage) rfl
  · exact hrow (code := dcLoopback) rfl

theorem dispatch_of_not_mem {s : State} (h : s.req.command ∉ dandCodes) : dispatch s = unknownCommand s := by
  simp only [dandCodes, List.mem_cons, List.not_mem_nil, or_false, not_or] at h
  simp only [dispatch, h, if_false]

theorem dispatch_of_loopback {s : State} (h : s.req.command = dcLoopback) : dispatch s = dandLoopback s := by
  rw [dispatch, h]
  rfl

/-- loopback echoes a payload that leaves room for its own code (43_dandelion_commands.md R240). -/
theorem dandLoopback_requestOfPayload (s : State) (code : Byte) {p : List Byte} (h47 : p.length ≤ 47) :
    dandLoopback { s with req := requestOfPayload code p } =
      { s with
        req := requestOfPayload code p
        resp := ⟨8 * (1 + p.length), true, true, padBytes 48 (rloopback :: p)⟩ } := by
  have hslice : payloadSlice (requestOfPayload code p) 0 p.length = p := by
    rw [payloadSlice_requestOfPayload code p 0 p.length le_rfl (by omega), List.drop_zero, List.take_length]
  rw [dandLoopback, if_neg (by simpa using h47)]
  simp only [requestOfPayload_plen, hslice]
  rw [replyBytes_of_ne_nil true _ (List.cons_ne_nil _ _) (Nat.succ_le_succ h47), List.length_cons, Nat.add_comm]

/-- Settles O47: a known code is the case of its row; of the other requests `dispatch` knows none. -/
theorem dandCmdHandsRequestOver : Obligations.DandCmdHandsRequestOver := by
  intro s code p hprot
  have hrow {c : Byte} {i : Instr} (h : dandelionInstr c p = some i) := (exec_of_dandelionInstr h s).symm
  refine ⟨fun h48 => ⟨hrow rfl, hrow rfl, hrow rfl, hrow rfl, hrow rfl, hrow rfl, hrow rfl, hrow rfl, hrow rfl,
    fun hcode => ?unknown⟩, fun hlong => ?tooLong, exec_dandCmd_nil s, fun h47 => ?echo⟩
  case unknown => rw [exec_dandCmd_cons, withRequest_of_protDand code dispatch hprot h48, dispatch_of_not_mem hcode,
    unknownCommand_eq]
  case tooLong => rw [exec_dandCmd_cons, withRequest_of_lt code dispatch s hlong, unknownCommand_eq]
  case echo =>
    rw [exec_dandCmd_cons, withRequest_of_protDand _ dispatch hprot (by omega), dispatch_of_loopback rfl,
      dandLoopback_requestOfPayload s _ h47]
    rfl

end Sys2Proof.Machine
end

section
/-! The step on frames that no link command answers (41_link_commands.md R161, R165, R166; 42_anticollision.md R203),
and the events that leave `ProtDand` (41_link_commands.md R178). -/

namespace Sys2Proof

/-! ### Frames that carry no command -/

theorem decodeShort_of_not_mem {code : Byte} (h : code ∉ [cmdReqa, cmdWupa, cmdTimeslot]) :
    decodeShort code = .rejected .unknownShort := by
  simp only [List.mem_cons, List.not_mem_nil, or_false, not_or] at h
  obtain ⟨hreqa, hwupa, htimeslot⟩ := h
  rw [decodeShort, if_neg hreqa, if_neg hwupa, if_neg htimeslot]

theorem decodeSelAc_of_not_mem {sel : Byte} (nvb : Byte) (u : List Bool)
    (h : sel ∉ [cmdSel1, cmdSel2, cmdSel3]) : decodeSelAc sel nvb u = .rejected .unknownAc := by
  simp only [List.mem_cons, List.not_mem_nil, or_false, not_or] at h
  obtain ⟨h1, h2, h3⟩ := h
  rw [decodeSelAc, if_neg h1, if_neg h2, if_neg h3]

theorem decodeStandard_of_not_mem {command : Byte} (link : List Byte)
    (h : command ∉ [cmdHlta, cmdSel1, cmdSel2, cmdSel3, cmdRatsDand, cmdDeselectDand, cmdDand, cmdT2tRead]) :
    decodeStandard command link = .rejected .unknownStandard := by
  simp only [List.mem_cons, List.not_mem_nil, or_false, not_or] at h
  obtain ⟨hhlta, h1, h2, h3, hrats, hdeselect, hdand, ht2t⟩ := h
  rw [decodeStandard, if_neg hhlta, if_neg h1, if_neg h2, if_neg h3, if_neg hrats, if_neg hdeselect, if_neg hdand,
    if_neg ht2t]

theorem decodeFrame_of_short {f : Frame} (h : f.frameType = .short) : decodeFrame f = decodeShort f.command := by
  rw [decodeFrame, h]

/-- An anticollision frame with right parity is read in AC form. -/
theorem decodeFrame_of_anticollision {f : Frame} (h : f.frameType = .anticollision) (hparity : f.parityOk = true) :
    decodeFrame f = decodeAc f := by
  simp [decodeFrame, isAcForm, h, hparity]

/-- A standard frame whose first byte is no SEL code is not in AC form. -/
theorem isAcForm_of_not_mem {f : Frame} (h : f.frameType = .standard)
    (hsel : f.command ∉ [cmdSel1, cmdSel2, cmdSel3]) : isAcForm f = false := by
  have hcode : isSelCode f.command = false := by simpa [isSelCode, and_assoc] using hsel
  simp [isAcForm, h, hcode]

/-- A standard frame with right parity and checksum that is not in AC form is dispatched on its first byte. -/
theorem decodeFrame_of_standard {f : Frame} (h : f.frameType = .standard) (hparity : f.parityOk = true)
    (hac : isAcForm f = false) (hcrc : crcOk f.bytes = true) :
    decodeFrame f = decodeStandard f.command (linkPayload f.bytes) := by
  simp [decodeFrame, h, hparity, hac, hcrc]

/-- The rejections of a code that is no command (41_link_commands.md R165, R166; 42_anticollision.md R203). -/
def unknownCodes : List Reject := [.unknownShort, .unknownAc, .unknownStandard]

/-- A code or first byte that is no command of its frame's type is rejected as one. -/
theorem decodeFrame_of_unknownCode {f : Frame}
    (h : (f.frameType = .short ∧ f.command ∉ [cmdReqa, cmdWupa, cmdTimeslot]) ∨
      (f.frameType = .anticollision ∧ f.parityOk = true ∧ f.command ∉ [cmdSel1, cmdSel2, cmdSel3]) ∨
      (f.frameType = .standard ∧ f.parityOk = true ∧ crcOk f.bytes = true ∧
        f.command ∉ [cmdHlta, cmdSel1, cmdSel2, cmdSel3, cmdRatsDand, cmdDeselectDand, cmdDand, cmdT2tRead])) :
    ∃ r ∈ unknownCodes, decodeFrame f = .rejected r := by
  obtain ⟨htype, hcode⟩ | ⟨htype, hparity, hcode⟩ | ⟨htype, hparity, hcrc, hcode⟩ := h
  · refine ⟨.unknownShort, by decide, ?_⟩
    rw [decodeFrame_of_short htype, decodeShort_of_not_mem hcode]
  · refine ⟨.unknownAc, by decide, ?_⟩
    rw [decodeFrame_of_anticollision htype hparity, decodeAc_eq, decodeSelAc_of_not_mem _ _ hcode]
  · have hsel : f.command ∉ [cmdSel1, cmdSel2, cmdSel3] := by
      simp only [List.mem_cons, not_or] at hcode ⊢
      tauto
    refine ⟨.unknownStandard, by decide, ?_⟩
    rw [decodeFrame_of_standard htype hparity (isAcForm_of_not_mem htype hsel) hcrc, decodeStandard_of_not_mem _ hcode]

end Sys2Proof

namespace Sys2Proof.Machine

theorem rejectFrame_of_unknownCode {r : Reject} (h : r ∈ unknownCodes) (s : State) :
    rejectFrame r s = unknownCommand s := by
  simp only [unknownCodes, List.mem_cons, List.not_mem_nil, or_false] at h
  obtain rfl | rfl | rfl := h <;> rfl

/-- Settles O4: the three cases are rejections that take the catch-all, which writes `resp` only. -/
theorem unknownLinkCodesAreAnswered : Obligations.UnknownLinkCodesAreAnswered := by
  intro s rx rest f hwf hin hf hcase
  subst hf
  obtain ⟨r, hr, hdec⟩ := decodeFrame_of_unknownCode hcase
  refine ⟨_, step_of_decode_rejected hwf hin hdec, ?_⟩
  rw [rejectFrame_of_unknownCode hr]
  exact ⟨isStatusReply_responseOfBytes 0xAF, rfl, rfl, rfl, rfl, rfl, rfl, rfl⟩

/-- Settles O2: the frame is rejected for its length, and `replyNone` leaves `resp` fresh. -/
theorem errorFrameIsDropped : Obligations.ErrorFrameIsDropped := by
  intro s rx rest hwf hin htype
  exact ⟨_, step_of_decode_rejected hwf hin (decode_of_error htype), rfl⟩

/-! ### What leaves `ProtDand` (R178) -/

/-- Every next state of the outcome has the `tag_state` of `s`. -/
def KeepsTagState (s : State) (o : Host.Outcome State Fault Refusal) : Prop :=
  ∀ t, o = .next t → t.tagState = s.tagState

theorem keepsTagState_next {s t : State} (h : t.tagState = s.tagState) : KeepsTagState s (.next t) :=
  fun _ ht => Host.Outcome.next.inj ht ▸ h

theorem keepsTagState_refused (s : State) (e : Refusal) : KeepsTagState s (.refused e) :=
  fun _ h => nomatch h

theorem withRequest_tagState (code : Byte) (p : List Byte) {k : State → State} (hk : ∀ u, DandOk u (k u))
    (s : State) : (withRequest code p k s).tagState = s.tagState := by
  obtain ⟨h, -⟩ | ⟨-, -, h⟩ := withRequest_cases code p k s <;> rw [h]
  · exact unknownCommand_tagState s
  · exact (congrArg State.tagState (hk _).frame :)

theorem keepsTagState_dandCmd (link : List Byte) (s : State) : KeepsTagState s (exec (.dandCmd link) s) := by
  cases link with
  | nil => exact keepsTagState_next (unknownCommand_tagState s)
  | cons code p => exact keepsTagState_next (withRequest_tagState code p dispatch_ok s)

/-- The row of a Dandelion code keeps `tag_state` as DAND_CMD does. -/
theorem keepsTagState_of_dandelionInstr {code : Byte} {p : List Byte} {i : Instr}
    (h : dandelionInstr code p = some i) (s : State) : KeepsTagState s (exec i s) :=
  exec_of_dandelionInstr h s ▸ keepsTagState_dandCmd (code :: p) s

theorem anticollision_of_not_ready (lvl : Nat) (nvb : Byte) (u : List Bool) {s : State}
    (h : isReady s.tagState = false) : anticollision lvl nvb u s = unknownCommand s := by
  rw [anticollision, if_pos h]

theorem select_of_not_ready (lvl : Nat) (link : List Byte) {s : State} (h : isReady s.tagState = false) :
    select lvl link s = unknownCommand s := by
  unfold select
  rw [if_pos h]

/-- In `ProtDand`, without an `AUX_HANDLER`, no instruction but HLTA and DESELECT_DAND changes `tag_state`. -/
theorem exec_keepsTagState_of_protDand {s : State} (hprot : s.tagState = .protDand) (haux : s.cfg.auxPresent = false)
    (i : Instr) : (∃ link, i = .hlta link ∨ i = .deselectDand link) ∨ KeepsTagState s (exec i s) := by
  have hready : isReady s.tagState = false := by rw [hprot]; rfl
  have hunknown : KeepsTagState s (.next (unknownCommand s)) := keepsTagState_next (unknownCommand_tagState s)
  have hwake (t : TagState) : KeepsTagState s (.next (wake t s)) := by
    rwa [wake_of_awake t (by simp [hprot]) (by simp [hprot])]
  have hac (lvl : Nat) (nvb : Byte) (u : List Bool) : KeepsTagState s (.next (anticollision lvl nvb u s)) := by
    rwa [anticollision_of_not_ready lvl nvb u hready]
  have hselect (lvl : Nat) (link : List Byte) : KeepsTagState s (.next (select lvl link s)) := by
    rwa [select_of_not_ready lvl link hready]
  cases i with
  | hlta link => exact .inl ⟨link, .inl rfl⟩
  | deselectDand link => exact .inl ⟨link, .inr rfl⟩
  | reqa => exact .inr (hwake .ready0)
  | wupa => exact .inr (hwake .ready1)
  | timeslot => exact .inr ((exec_aux_of_absent [] haux).1 ▸ keepsTagState_refused s _)
  | t2tRead link => exact .inr ((exec_aux_of_absent link haux).2 ▸ keepsTagState_refused s _)
  | ratsDand link =>
    have hactive : ¬ isActive s.tagState = true := by rw [hprot]; decide
    exact .inr (by rwa [exec_ratsDand, if_neg hactive])
  | sel1Ac nvb u => exact .inr (hac 1 nvb u)
  | sel2Ac nvb u => exact .inr (hac 2 nvb u)
  | sel3Ac nvb u => exact .inr (hac 3 nvb u)
  | sel1Select link => exact .inr (hselect 1 link)
  | sel2Select link => exact .inr (hselect 2 link)
  | sel3Select link => exact .inr (hselect 3 link)
  | dandCmd link => exact .inr (keepsTagState_dandCmd link s)
  | readWord p => exact .inr (keepsTagState_of_dandelionInstr (code := dcReadWord) rfl s)
  | readHalfword p => exact .inr (keepsTagState_of_dandelionInstr (code := dcReadHalfword) rfl s)
  | readByte p => exact .inr (keepsTagState_of_dandelionInstr (code := dcReadByte) rfl s)
  | writeWord p => exact .inr (keepsTagState_of_dandelionInstr (code := dcWriteWord) rfl s)
  | writeHalfword p => exact .inr (keepsTagState_of_dandelionInstr (code := dcWriteHalfword) rfl s)
  | writeByte p => exact .inr (keepsTagState_of_dandelionInstr (code := dcWriteByte) rfl s)
  | call p => exact .inr (keepsTagState_of_dandelionInstr (code := dcCall) rfl s)
  | sendMessage p => exact .inr (keepsTagState_of_dandelionInstr (code := dcSendMessage) rfl s)
  | loopback p => exact .inr (keepsTagState_of_dandelionInstr (code := dcLoopback) rfl s)

/-- The same of a received frame, which may also carry no instruction. -/
theorem handleFrame_keepsTagState_of_protDand {s : State} (hprot : s.tagState = .protDand)
    (haux : s.cfg.auxPresent = false) (rx : List Bool) :
    (∃ link, decode s.cfg.rxMaxBits rx = .instr (.hlta link) ∨
        decode s.cfg.rxMaxBits rx = .instr (.deselectDand link)) ∨
      KeepsTagState s (handleFrame rx s) := by
  rw [handleFrame]
  cases decode s.cfg.rxMaxBits rx with
  | rejected r =>
    rw [execDecoded_rejected, rejectFrame_eq]
    exact .inr (keepsTagState_next rfl)
  | instr i =>
    obtain ⟨link, hi⟩ | hkeep := exec_keepsTagState_of_protDand (s := receive rx s) hprot haux i
    · exact .inl ⟨link, hi.imp (congrArg Decoded.instr) (congrArg Decoded.instr)⟩
    · refine .inr fun t ht => ?_
      obtain ⟨u, hu, rfl⟩ := mapNext_next_inv ht
      exact hkeep u hu

/-- Settles O33: by the event the step handled; `Register` and `ConfigChange` keep `tag_state`. -/
theorem protDandIsLeftOnlyBy : Obligations.ProtDandIsLeftOnlyBy := by
  intro s t hprot haux hstep hleft
  obtain ⟨-, ⟨-, rfl⟩ | ⟨e, rest, hin, hevent⟩⟩ := step_next_cases hstep
  case inl => exact absurd hprot hleft
  case inr =>
    cases e with
    | reset => exact .inr (.inr (.inl ⟨rest, hin⟩))
    | register id cb => exact absurd (Host.Outcome.next.inj hevent ▸ hprot) hleft
    | configChange new =>
      obtain ⟨-, rfl⟩ := handleEvent_configChange_next hevent
      exact absurd hprot hleft
    | frameReceived rx =>
      obtain ⟨link, hdec⟩ | hkeep :=
        handleFrame_keepsTagState_of_protDand (s := { s with inputs := rest }) hprot haux rx
      · exact .inl ⟨rx, rest, link, hin, hdec⟩
      · exact absurd ((hkeep t hevent).trans hprot) hleft
    | fieldLost => exact .inr (.inl ⟨rest, hin⟩)
    | frameCut rx cut done => exact .inr (.inr (.inr ⟨rx, cut, done, rest, hin⟩))

end Sys2Proof.Machine
end

section
/-! The way to a selected tag (41_link_commands.md R179, 42_anticollision.md R211, R212): a wake command, and a matching
SELECT for each level of the UID. -/

namespace Sys2Proof.Machine

/-- The link payload of a SELECT frame that matches UID CLn: `NVB`, UID CLn and BCC (42_anticollision.md R208
to R211). -/
def matchingSelect (c : Cfg) (lvl : Nat) : List Byte :=
  nvbSelect :: uidCl c.ct c.uid lvl ++ [bcc (uidCl c.ct c.uid lvl)]

/-- UID CLn has four bytes at every level the UID has (42_anticollision.md R200). -/
theorem exists_uidCl (ct : Byte) (uid : Uid) {lvl : Nat} (h1 : 1 ≤ lvl) (hn : lvl ≤ nLevels uid) :
    ∃ b0 b1 b2 b3, uidCl ct uid lvl = [b0, b1, b2, b3] := by
  cases uid with
  | single u =>
    obtain rfl : lvl = 1 := Nat.le_antisymm hn h1
    exact ⟨_, _, _, _, rfl⟩
  | double u =>
    obtain rfl | rfl : lvl = 1 ∨ lvl = 2 := by simp only [nLevels] at hn; omega
    all_goals exact ⟨_, _, _, _, rfl⟩
  | triple u =>
    obtain rfl | rfl | rfl : lvl = 1 ∨ lvl = 2 ∨ lvl = 3 := by simp only [nLevels] at hn; omega
    all_goals exact ⟨_, _, _, _, rfl⟩

/-- A matching SELECT of the next level does that level, and promotes the tag on the last one. -/
theorem select_matching {s : State} (hready : isReady s.tagState = true)
    (hn : s.cascadeLevel + 1 ≤ nLevels s.cfg.uid) :
    select (s.cascadeLevel + 1) (matchingSelect s.cfg (s.cascadeLevel + 1)) s =
      if s.cascadeLevel + 1 < nLevels s.cfg.uid then
        replyBytes [s.cfg.sakCascade] true { s with cascadeLevel := s.cascadeLevel + 1 }
      else promote s := by
  obtain ⟨b0, b1, b2, b3, hcl⟩ := exists_uidCl s.cfg.ct s.cfg.uid (Nat.le_add_left 1 _) hn
  simp [select, selectCompare, levelAddressed, matchingSelect, hready, hn, hcl]

/-- The tag woken into `ready` from a state with configuration `c`, with `n` levels done. -/
structure LevelsDone (c : Cfg) (ready : TagState) (n : Nat) (s : State) : Prop where
  cfg : s.cfg = c
  tagState : s.tagState = ready
  cascadeLevel : s.cascadeLevel = n

section
variable {c : Cfg} {ready : TagState} {n : Nat} {s : State}

theorem LevelsDone.select_next (h : LevelsDone c ready n s) (hready : isReady ready = true)
    (hn : n + 1 < nLevels c.uid) : LevelsDone c ready (n + 1) (select (n + 1) (matchingSelect c (n + 1)) s) := by
  obtain ⟨rfl, rfl, rfl⟩ := h
  rw [select_matching hready hn.le, if_pos hn]
  exact ⟨rfl, rfl, rfl⟩

/-- The tag is selected (41_link_commands.md R169). -/
theorem LevelsDone.select_last (h : LevelsDone c ready n s) (hready : isReady ready = true)
    (hn : n + 1 = nLevels c.uid) :
    (select (n + 1) (matchingSelect c (n + 1)) s).tagState = promoteState ready ∧
      (select (n + 1) (matchingSelect c (n + 1)) s).cascadeLevel = 0 ∧
      (select (n + 1) (matchingSelect c (n + 1)) s).resp = ⟨8, true, true, padBytes 48 [c.sakComplete]⟩ := by
  obtain ⟨rfl, rfl, rfl⟩ := h
  rw [select_matching hready hn.le, if_neg hn.not_lt]
  exact ⟨rfl, rfl, rfl⟩

end

theorem levelsDone_wake (ready : TagState) {s : State} (h : s.tagState = .idle ∨ s.tagState = .halt) :
    LevelsDone s.cfg ready 0 (wake ready s) := by
  rw [wake_of_sleeping ready h]
  exact ⟨rfl, rfl, rfl⟩

/-- Each wake command enters its own Ready state, which is promoted to its own Active state. -/
theorem exists_ready_of_wakeUp {wakeUp : Instr} (h : wakeUp = .reqa ∨ wakeUp = .wupa) (s : State) :
    ∃ ready, isReady ready = true ∧ exec wakeUp s = .next (wake ready s) ∧
      promoteState ready = if wakeUp = .reqa then .active0 else .active1 := by
  obtain rfl | rfl := h
  · exact ⟨.ready0, rfl, rfl, rfl⟩
  · exact ⟨.ready1, rfl, rfl, rfl⟩

/-- Settles O37: every level but the last leaves one more level done, and the last one selects the tag. -/
theorem matchingSelectsSelectTheTag : Obligations.MatchingSelectsSelectTheTag := by
  intro s wakeUp body hsleep hwake hbody
  obtain rfl : body = matchingSelect s.cfg := funext hbody
  obtain ⟨ready, hready, hexec, hactive⟩ := exists_ready_of_wakeUp hwake s
  have h0 := levelsDone_wake ready hsleep
  refine ⟨wake ready s, _, _, _, hexec, rfl, rfl, rfl, fun u hu => ?_⟩
  rw [← hactive]
  obtain ⟨hlast, rfl⟩ | ⟨hlast, rfl⟩ | ⟨hlast, rfl⟩ := hu
  case inl => exact h0.select_last hready hlast.symm
  case inr.inl =>
    have h1 := h0.select_next hready (by omega)
    exact h1.select_last hready hlast.symm
  case inr.inr =>
    have h1 := h0.select_next hready (by omega)
    have h2 := h1.select_next hready (by omega)
    exact h2.select_last hready hlast.symm

end Sys2Proof.Machine
end

section
/-! The anticollision engine on any SEL frame (42_anticollision.md R200 to R211): UID CLn and its 40 bits, and the tests
of the AC and of the SELECT form in their order. -/

namespace Sys2Proof.Machine

/-! ### UID CLn, BCC and the 40 bits (R200 to R202) -/

theorem toList_eq_ofFn {n : Nat} (u : Vector Byte n) : u.toList = List.ofFn fun j : Fin n => u[j] := by
  rw [← Vector.toList_ofFn]
  exact congrArg Vector.toList (Vector.ext fun j hj => by simp)

theorem bcc_eq_xor (b0 b1 b2 b3 : Byte) : bcc [b0, b1, b2, b3] = b0 ^^^ b1 ^^^ b2 ^^^ b3 := by
  simp [bcc]

theorem u40_length (cl : List Byte) : (u40 cl).length = 8 * (cl.length + 1) := by
  rw [u40, bitsOfBytes_length, List.length_append, List.length_singleton]

/-- Settles O34: the UID's levels are slices of its bytes, and the 40 bits are those of UID CLn and BCC. -/
theorem uidLevelsAndBits : Obligations.UidLevelsAndBits := by
  refine ⟨fun ct u => ?single, fun ct u => ?double, fun ct u => ?triple, fun b0 b1 b2 b3 => ⟨bcc_eq_xor b0 b1 b2 b3,
    u40_length _, fun j i _ hi => ?bits⟩⟩
  case single => rw [toList_eq_ofFn]; exact ⟨rfl, rfl⟩
  case double => rw [toList_eq_ofFn]; exact ⟨rfl, rfl, rfl⟩
  case triple => rw [toList_eq_ofFn]; exact ⟨rfl, rfl, rfl, rfl⟩
  case bits =>
    rw [u40, bcc_eq_xor]
    exact bitsOfBytes_getElem? _ j i hi

/-! ### The tests and the outcomes they lead to -/

theorem isReady_iff (t : TagState) : isReady t = true ↔ t = .ready0 ∨ t = .ready1 := by
  cases t <;> decide

theorem nvbBytes_eq_div (nvb : Byte) : nvbBytes nvb = nvb.toNat / 16 := by
  rw [nvbBytes, BitVec.extractLsb'_toNat, Nat.shiftRight_eq_div_pow]
  omega

theorem nvbBits_eq_mod (nvb : Byte) : nvbBits nvb = nvb.toNat % 16 := by
  rw [nvbBits, BitVec.extractLsb'_toNat, Nat.shiftRight_zero]

/-- R203 (1), for a frame with `m` UID bits after SEL and `NVB`. -/
theorem nvbAgrees_iff (nvb : Byte) (m : Nat) :
    nvbAgrees nvb (16 + m) = true ↔
      2 ≤ nvb.toNat / 16 ∧ nvb.toNat / 16 ≤ 6 ∧ nvb.toNat % 16 ≤ 7 ∧
        8 * (nvb.toNat / 16) + nvb.toNat % 16 = 16 + m ∧ m ≤ 32 := by
  have hk : 16 + m ≤ 48 ↔ m ≤ 32 := by omega
  simp only [nvbAgrees, nvbBytes_eq_div, nvbBits_eq_mod, Bool.and_eq_true, decide_eq_true_eq, beq_iff_eq, and_assoc, hk]

theorem levelAddressed_iff (lvl : Nat) (s : State) :
    levelAddressed lvl s = true ↔ lvl = s.cascadeLevel + 1 ∧ lvl ≤ nLevels s.cfg.uid := by
  simp only [levelAddressed, Bool.and_eq_true, beq_iff_eq, decide_eq_true_eq]

theorem exists_uidCl_of_addressed {lvl : Nat} {s : State} (h : levelAddressed lvl s = true) :
    ∃ b0 b1 b2 b3, uidCl s.cfg.ct s.cfg.uid lvl = [b0, b1, b2, b3] := by
  obtain ⟨hnext, hn⟩ := (levelAddressed_iff lvl s).mp h
  exact exists_uidCl _ _ (hnext ▸ Nat.le_add_left 1 _) hn

/-- `NotAddressed` from a Ready state (41_link_commands.md R167). -/
theorem notAddressed_of_ready {s : State} (h : s.tagState = .ready0 ∨ s.tagState = .ready1) :
    notAddressed s =
      { s with
        tagState := if s.tagState = .ready0 then .idle else .halt
        cascadeLevel := 0, resp := freshResponse } := by
  have hdemote : demoteState s.tagState = if s.tagState = .ready0 then .idle else .halt := by
    obtain h | h := h <;> rw [h] <;> rfl
  rw [← hdemote]
  rfl

/-- `Promote` from a Ready state (41_link_commands.md R169). -/
theorem promote_of_ready {s : State} (h : s.tagState = .ready0 ∨ s.tagState = .ready1) :
    promote s =
      { s with
        tagState := if s.tagState = .ready0 then .active0 else .active1
        cascadeLevel := 0, resp := ⟨8, true, true, padBytes 48 [s.cfg.sakComplete]⟩ } := by
  have hpromote : promoteState s.tagState = if s.tagState = .ready0 then .active0 else .active1 := by
    obtain h | h := h <;> rw [h] <;> rfl
  rw [← hpromote]
  rfl

/-! ### The AC form (R203 to R207) -/

/-- `Anticollision` as one chain of tests, those of the level and of the bits taken together. -/
theorem anticollision_eq (lvl : Nat) (nvb : Byte) (uidBits : List Bool) (s : State) :
    anticollision lvl nvb uidBits s =
      if ¬isReady s.tagState = true then unknownCommand s
      else if ¬nvbAgrees nvb (16 + uidBits.length) = true then unknownCommand s
      else if levelAddressed lvl s = true ∧ uidBits <+: u40 (uidCl s.cfg.ct s.cfg.uid lvl) then
        replyBits ((u40 (uidCl s.cfg.ct s.cfg.uid lvl)).drop uidBits.length) s
      else notAddressed s := by
  simp only [anticollision, acCompare, Bool.not_eq_true, List.prefix_iff_eq_take, eq_comm (a := uidBits)]
  cases levelAddressed lvl s with
  | false => simp
  | true => simp

/-- The rest of the 40 bits after at most 32 of them goes out whole, without checksum (R204). -/
theorem replyBits_rest {lvl m : Nat} {s : State} (h : levelAddressed lvl s = true) (hm : m ≤ 32) :
    replyBits ((u40 (uidCl s.cfg.ct s.cfg.uid lvl)).drop m) s =
      { s with
        resp := ⟨40 - m, true, false, padBytes 48 (packBits ((u40 (uidCl s.cfg.ct s.cfg.uid lvl)).drop m))⟩ } := by
  obtain ⟨b0, b1, b2, b3, hcl⟩ := exists_uidCl_of_addressed h
  have hlen : ((u40 (uidCl s.cfg.ct s.cfg.uid lvl)).drop m).length = 40 - m := by
    rw [List.length_drop, u40_length, hcl]; rfl
  rw [replyBits, responseOfBits_of_le _ (by omega) (by omega), hlen]

theorem exec_selAc {lvl : Nat} {nvb : Byte} {uidBits : List Bool} {i : Instr}
    (h : lvl = 1 ∧ i = .sel1Ac nvb uidBits ∨ lvl = 2 ∧ i = .sel2Ac nvb uidBits ∨ lvl = 3 ∧ i = .sel3Ac nvb uidBits)
    (s : State) : exec i s = .next (anticollision lvl nvb uidBits s) := by
  obtain ⟨rfl, rfl⟩ | ⟨rfl, rfl⟩ | ⟨rfl, rfl⟩ := h <;> rfl

/-- Settles O35: the three commands are `Anticollision` of their level, whose tests and outcomes are those stated. -/
theorem selAcForm : Obligations.SelAcForm := by
  intro s lvl nvb uidBits i u hi hu
  rw [exec_selAc hi, anticollision_eq, ← hu]
  refine congrArg Host.Outcome.next ?_
  refine ite_congr (by rw [isReady_iff]) (fun _ => unknownCommand_eq s) fun hready => ?_
  refine ite_congr (by rw [nvbAgrees_iff]) (fun _ => unknownCommand_eq s) fun hnvb => ?_
  refine ite_congr (by rw [levelAddressed_iff, and_assoc]) (fun hmatch => ?rest) fun _ => ?other
  case rest =>
    obtain ⟨hnext, hn, -⟩ := hmatch
    obtain ⟨-, -, -, -, h32⟩ := not_not.mp hnvb
    rw [hu, replyBits_rest ((levelAddressed_iff lvl s).mpr ⟨hnext, hn⟩) h32]
  case other => exact notAddressed_of_ready (not_not.mp hready)

/-! ### The SELECT form (R203, R208 to R211) -/

theorem eq_six_bytes_of_length {link : List Byte} (h : link.length = 6) :
    ∃ nvb u0 u1 u2 u3 b, link = [nvb, u0, u1, u2, u3, b] := by
  match link, h with
  | [nvb, u0, u1, u2, u3, b], _ => exact ⟨nvb, u0, u1, u2, u3, b, rfl⟩

/-- A frame that is not of the SELECT form is malformed (R203). -/
theorem select_of_malformed (lvl : Nat) {link : List Byte} (s : State)
    (h : ¬(link.length = 6 ∧ link.head? = some nvbSelect)) : select lvl link s = unknownCommand s := by
  unfold select
  refine ite_eq_left_iff.mpr fun _ => ?_
  split
  · rw [if_pos fun hnvb => h ⟨rfl, congrArg some hnvb⟩]
  · rfl

/-- A frame of the SELECT form carries the four bytes and BCC of UID CLn exactly when it is the matching SELECT. -/
theorem select_of_form (lvl : Nat) {link : List Byte} {s : State} (hready : isReady s.tagState = true)
    (hlen : link.length = 6) (hnvb : link.head? = some nvbSelect) :
    select lvl link s =
      if levelAddressed lvl s = true ∧ link = matchingSelect s.cfg lvl then
        if lvl < nLevels s.cfg.uid then replyBytes [s.cfg.sakCascade] true { s with cascadeLevel := lvl }
        else promote s
      else notAddressed s := by
  obtain ⟨nvb, u0, u1, u2, u3, b, rfl⟩ := eq_six_bytes_of_length hlen
  obtain rfl : nvb = nvbSelect := Option.some.inj hnvb
  cases haddr : levelAddressed lvl s with
  | false => simp [select, hready, haddr]
  | true =>
    obtain ⟨c0, c1, c2, c3, hcl⟩ := exists_uidCl_of_addressed haddr
    simp [select, selectCompare, matchingSelect, hready, haddr, hcl, and_assoc]

/-- `Select` as one chain of tests: the SELECT form, then the whole frame against the matching one. -/
theorem select_eq (lvl : Nat) (link : List Byte) (s : State) :
    select lvl link s =
      if ¬(isReady s.tagState = true ∧ link.length = 6 ∧ link.head? = some nvbSelect) then unknownCommand s
      else if levelAddressed lvl s = true ∧ link = matchingSelect s.cfg lvl then
        if lvl < nLevels s.cfg.uid then replyBytes [s.cfg.sakCascade] true { s with cascadeLevel := lvl }
        else promote s
      else notAddressed s := by
  by_cases hform : link.length = 6 ∧ link.head? = some nvbSelect
  case neg => rw [if_pos fun h => hform h.2, select_of_malformed lvl s hform]
  case pos =>
    by_cases hready : isReady s.tagState = true
    case neg => rw [if_pos fun h => hready h.1, select_of_not_ready lvl link (Bool.not_eq_true _ ▸ hready)]
    case pos => rw [if_neg (not_not.mpr ⟨hready, hform⟩), select_of_form lvl hready hform.1 hform.2]

theorem exec_select {lvl : Nat} {link : List Byte} {i : Instr}
    (h : lvl = 1 ∧ i = .sel1Select link ∨ lvl = 2 ∧ i = .sel2Select link ∨ lvl = 3 ∧ i = .sel3Select link)
    (s : State) : exec i s = .next (select lvl link s) := by
  obtain ⟨rfl, rfl⟩ | ⟨rfl, rfl⟩ | ⟨rfl, rfl⟩ := h <;> rfl

/-- Settles O36: the three commands are `Select` of their level, whose tests and outcomes are those stated. -/
theorem selSelectForm : Obligations.SelSelectForm := by
  intro s lvl link i cl hi hcl
  have hlink : 0x70 :: cl ++ [bcc cl] = matchingSelect s.cfg lvl := by rw [hcl]; rfl
  rw [exec_select hi, select_eq, hlink]
  refine congrArg Host.Outcome.next ?_
  refine ite_congr (by rw [isReady_iff]; rfl) (fun _ => unknownCommand_eq s) fun hform => ?_
  obtain ⟨hready, -, -⟩ := not_not.mp hform
  refine ite_congr (by rw [levelAddressed_iff, and_assoc]) (fun _ => ?matching) fun _ => ?other
  case matching => exact ite_congr rfl (fun _ => rfl) fun _ => promote_of_ready hready
  case other => exact notAddressed_of_ready hready

end Sys2Proof.Machine
end

section
/-! The Dandelion commands in `ProtDand` (43_dandelion_commands.md R231 to R245): each row runs its procedure on the request
it wrote, and each procedure's tests come in the order stated; then what all ten commands keep. -/

namespace Sys2Proof.Machine

/-! ### The replies of the procedures -/

theorem replyStatus_eq (c : Byte) (s : State) :
    replyStatus c s = { s with resp := ⟨8, true, true, padBytes 48 [c]⟩ } := rfl

/-- An acknowledge code followed by a value of `n` bytes, most significant first. -/
theorem replyBytes_ack_beBytes (ack : Byte) (v : Nat) {n : Nat} (hn : n ≤ 47) (s : State) :
    replyBytes (ack :: beBytes v n) true s =
      { s with resp := ⟨8 * (1 + n), true, true, padBytes 48 (ack :: beBytes v n)⟩ } := by
  have hlen : (ack :: beBytes v n).length = 1 + n := by rw [List.length_cons, beBytes_length, Nat.add_comm]
  rw [replyBytes_of_ne_nil true s (List.cons_ne_nil _ _) (by omega), hlen]

/-! ### The reads (R232, R233, R234, R241) -/

theorem dandRead_of_plen_ne {s : State} (w : Width) (ack : Byte) (h : s.req.plen ≠ 4) :
    dandRead w ack s = unknownCommand s := by
  rw [dandRead, if_pos h]

theorem dandRead_of_misaligned {s : State} {w : Width} (ack : Byte) (hlen : s.req.plen = 4)
    (hcheck : check s.cfg (addrOperand s.req) w .read = .misaligned) :
    dandRead w ack s = replyStatus errMisAligned s := by
  simp [dandRead, hlen, hcheck]

theorem dandRead_of_denied {s : State} {w : Width} (ack : Byte) (hlen : s.req.plen = 4)
    (hcheck : check s.cfg (addrOperand s.req) w .read = .denied) :
    dandRead w ack s = replyStatus errReadProtected s := by
  simp [dandRead, hlen, hcheck]

theorem exec_readInstr_of_protDand {s : State} (w : Width) {p : List Byte} (htag : s.tagState = .protDand)
    (hp : p.length ≤ 48) :
    exec (readInstr w p) s =
      .next (dandRead w (readAck s.cfg w) { s with req := requestOfPayload (readCode w) p }) := by
  rw [exec_readInstr, readRow, withRequest_of_protDand _ _ htag hp]

/-- Settles O48: by the length, then by the verdict on the address the payload gives. -/
theorem dandelionReads : Obligations.DandelionReads := by
  rintro s r p w code ack i a hrows htag hp rfl
  obtain ⟨rfl, rfl, rfl⟩ : code = readCode w ∧ ack = readAck s.cfg w ∧ i = readInstr w p := by
    obtain ⟨rfl, hrow⟩ | ⟨rfl, hrow⟩ | ⟨rfl, hrow⟩ := hrows <;> exact hrow
  rw [exec_readInstr_of_protDand w htag hp]
  refine ⟨fun hlen => ?length, ?verdict⟩
  case length => rw [dandRead_of_plen_ne w _ hlen, unknownCommand_eq]
  case verdict =>
    rintro a3 a2 a1 a0 rfl rfl
    have haddr := addrOperand_requestOfPayload (readCode w) [a3, a2, a1, a0] [] rfl hp
    rw [List.append_nil] at haddr
    rw [← haddr]
    cases hcheck : check s.cfg (addrOperand (requestOfPayload (readCode w) [a3, a2, a1, a0])) w .read with
    | misaligned => exact congrArg Host.Outcome.next (dandRead_of_misaligned _ rfl hcheck)
    | denied => exact congrArg Host.Outcome.next (dandRead_of_denied _ rfl hcheck)
    | allowed =>
      have hn := widthBytes_le w
      rw [dandRead_of_allowed _ rfl hcheck, replyBytes_ack_beBytes _ _ (by omega)]

/-! ### The writes (R235, R236, R237, R242) -/

theorem dandWrite_of_plen_ne {s : State} {w : Width} (ack : Byte) (h : s.req.plen ≠ 4 + widthBytes w) :
    dandWrite w ack s = unknownCommand s := by
  rw [dandWrite, if_pos h]

theorem dandWrite_of_misaligned {s : State} {w : Width} (ack : Byte) (hlen : s.req.plen = 4 + widthBytes w)
    (hcheck : check s.cfg (addrOperand s.req) w .write = .misaligned) :
    dandWrite w ack s = replyStatus errMisAligned s := by
  simp [dandWrite, hlen, hcheck]

theorem dandWrite_of_denied {s : State} {w : Width} (ack : Byte) (hlen : s.req.plen = 4 + widthBytes w)
    (hcheck : check s.cfg (addrOperand s.req) w .write = .denied) :
    dandWrite w ack s = replyStatus errWriteProtected s := by
  simp [dandWrite, hlen, hcheck]

theorem exec_writeInstr_of_protDand {s : State} (w : Width) {p : List Byte} (htag : s.tagState = .protDand)
    (hp : p.length ≤ 48) :
    exec (writeInstr w p) s =
      .next (dandWrite w (writeAck s.cfg w) { s with req := requestOfPayload (writeCode w) p }) := by
  rw [exec_writeInstr, writeRow, withRequest_of_protDand _ _ htag hp]

/-- Settles O49: by the length, then by the verdict on the address; the allowed case is `writeRow_of_allowed`. -/
theorem dandelionWrites : Obligations.DandelionWrites := by
  rintro s r p w code ack i a hrows htag hp rfl
  obtain ⟨rfl, rfl, rfl⟩ : code = writeCode w ∧ ack = writeAck s.cfg w ∧ i = writeInstr w p := by
    obtain ⟨rfl, hrow⟩ | ⟨rfl, hrow⟩ | ⟨rfl, hrow⟩ := hrows <;> exact hrow
  refine ⟨fun hlen => ?length, ?verdict⟩
  case length => rw [exec_writeInstr_of_protDand w htag hp, dandWrite_of_plen_ne _ hlen, unknownCommand_eq]
  case verdict =>
    rintro a3 a2 a1 a0 data rfl hdata rfl
    have hlen : ([a3, a2, a1, a0] ++ data).length = 4 + widthBytes w := by rw [List.length_append, hdata]; rfl
    have haddr := addrOperand_requestOfPayload (writeCode w) [a3, a2, a1, a0] data rfl hp
    cases hcheck : check s.cfg (beNat [a3, a2, a1, a0]) w .write with
    | misaligned =>
      rw [exec_writeInstr_of_protDand w htag hp, dandWrite_of_misaligned _ hlen (by rwa [haddr]), replyStatus_eq]
      rfl
    | denied =>
      rw [exec_writeInstr_of_protDand w htag hp, dandWrite_of_denied _ hlen (by rwa [haddr]), replyStatus_eq]
      rfl
    | allowed =>
      rw [exec_writeInstr, writeRow_of_allowed htag rfl hdata hcheck, replyBytes, responseOfBytes_singleton]

/-! ### The calls (R238, R239, R243) -/

theorem callCommon_of_disabled (ack : Byte) (s : State) :
    callCommon false ack s = replyStatus errMsgCallDisabled s := rfl

theorem callCommon_of_plen_ne {s : State} (ack : Byte) (h : s.req.plen ≠ 1) :
    callCommon true ack s = unknownCommand s := by
  simp [callCommon, h]

theorem callCommon_of_unregistered {s : State} (ack : Byte) (hlen : s.req.plen = 1)
    (hreg : registered s (idOperand s.req) = none) : callCommon true ack s = unknownCommand s := by
  simp [callCommon, hlen, hreg]

theorem callCommon_of_registered {s : State} {cb : Callback} (ack : Byte) (hlen : s.req.plen = 1)
    (hreg : registered s (idOperand s.req) = some cb) :
    callCommon true ack s = replyBytes (ack :: beBytes (invoke cb s).1 4) true (invoke cb s).2 := by
  simp [callCommon, hlen, hreg]

/-- The acknowledge codes of call and send_message are their own codes (00_scope.md R6). -/
theorem exec_call_of_protDand {s : State} {p : List Byte} {enabled : Bool} {code : Byte} {i : Instr}
    (hrows : enabled = s.cfg.live.callEnable ∧ code = 0x90 ∧ i = .call p ∨
      enabled = s.cfg.live.messageEnable ∧ code = 0x60 ∧ i = .sendMessage p)
    (htag : s.tagState = .protDand) (hp : p.length ≤ 48) :
    exec i s = .next (callCommon enabled code { s with req := requestOfPayload code p }) := by
  obtain ⟨rfl, rfl, rfl⟩ | ⟨rfl, rfl, rfl⟩ := hrows
  · exact congrArg Host.Outcome.next (withRequest_of_protDand _ _ htag hp)
  · exact congrArg Host.Outcome.next (withRequest_of_protDand _ _ htag hp)

/-- Settles O50: both commands are `CallCommon`, whose tests come in the order stated. -/
theorem callsInvokeRegisteredFunctions : Obligations.CallsInvokeRegisteredFunctions := by
  rintro s r p enabled code i hrows htag hp rfl
  rw [exec_call_of_protDand hrows htag hp]
  refine ⟨?disabled, ?length, ?invocation⟩
  case disabled =>
    rintro rfl
    rw [callCommon_of_disabled, replyStatus_eq]
    rfl
  case length =>
    rintro rfl hlen
    rw [callCommon_of_plen_ne _ hlen, unknownCommand_eq]
  case invocation =>
    rintro id rfl rfl
    refine ⟨fun hnone => ?_, fun cb hsome => ?_⟩
    · rw [callCommon_of_unregistered _ rfl hnone, unknownCommand_eq]
    · rw [callCommon_of_registered _ rfl hsome, replyBytes_ack_beBytes _ _ (by omega)]

/-! ### loopback (R240) -/

theorem dandLoopback_of_lt {s : State} (h : 47 < s.req.plen) : dandLoopback s = unknownCommand s := by
  rw [dandLoopback, if_pos h]

theorem exec_loopback_of_protDand {s : State} {p : List Byte} (htag : s.tagState = .protDand) (hp : p.length ≤ 48) :
    exec (.loopback p) s = .next (dandLoopback { s with req := requestOfPayload dcLoopback p }) :=
  congrArg Host.Outcome.next (withRequest_of_protDand _ _ htag hp)

/-- Settles O52: the echo fits the buffer exactly when the payload has at most 47 bytes. -/
theorem loopbackEchoesItsPayload : Obligations.LoopbackEchoesItsPayload := by
  rintro s r p htag hp rfl
  rw [exec_loopback_of_protDand htag hp]
  refine ⟨fun h47 => ?echo, fun hlong => ?tooLong⟩
  case echo => exact congrArg Host.Outcome.next (dandLoopback_requestOfPayload s dcLoopback h47)
  case tooLong => exact congrArg Host.Outcome.next (dandLoopback_of_lt hlong)

/-! ### What every Dandelion command keeps (R245) -/

@[simp] theorem responseOfBytes_cons_head (b : Byte) (bs : List Byte) (crc : Bool) :
    (responseOfBytes (b :: bs) crc).payload[0] = b := rfl

/-- An answer whose first byte is an error code comes with no side effect. -/
def ErrorHasNoEffect (s t : State) : Prop :=
  t.resp.payload[0] ∈ errorCodes → t.mailbox = s.mailbox ∧ t.env = s.env

/-- No acknowledge code of the configuration is an error code. -/
def AcksAreNoErrors (c : Cfg) : Prop := ∀ w, readAck c w ∉ errorCodes ∧ writeAck c w ∉ errorCodes

theorem acksAreNoErrors_of_list {c : Cfg}
    (h : ∀ b ∈ [c.ackReadWord, c.ackReadHalfword, c.ackReadByte, c.ackWriteWord, c.ackWriteHalfword, c.ackWriteByte],
      b ∉ errorCodes) : AcksAreNoErrors c := by
  intro w
  refine ⟨h _ ?_, h _ ?_⟩
  · cases w <;> simp [readAck]
  · cases w <;> simp [writeAck]

theorem errorHasNoEffect_reply (bs : List Byte) (s : State) : ErrorHasNoEffect s (replyBytes bs true s) :=
  fun _ => ⟨rfl, rfl⟩

/-- An answer that begins with an acknowledge code is no error, whatever was done before it. -/
theorem errorHasNoEffect_ack {ack : Byte} (hack : ack ∉ errorCodes) (bs : List Byte) (s t : State) :
    ErrorHasNoEffect s (replyBytes (ack :: bs) true t) :=
  fun herr => absurd herr hack

theorem dandRead_errorHasNoEffect (w : Width) {ack : Byte} (hack : ack ∉ errorCodes) (s : State) :
    ErrorHasNoEffect s (dandRead w ack s) := by
  obtain ⟨c, -, h⟩ | ⟨-, -, h⟩ := dandRead_cases w ack s <;> rw [h]
  · exact errorHasNoEffect_reply [c] s
  · exact errorHasNoEffect_ack hack _ s _

theorem dandWrite_errorHasNoEffect (w : Width) {ack : Byte} (hack : ack ∉ errorCodes) (s : State) :
    ErrorHasNoEffect s (dandWrite w ack s) := by
  obtain ⟨c, -, h⟩ | ⟨-, -, h⟩ := dandWrite_cases w ack s <;> rw [h]
  · exact errorHasNoEffect_reply [c] s
  · exact errorHasNoEffect_ack hack [] s _

theorem callCommon_errorHasNoEffect (enabled : Bool) {ack : Byte} (hack : ack ∉ errorCodes) (s : State) :
    ErrorHasNoEffect s (callCommon enabled ack s) := by
  obtain ⟨c, -, h⟩ | ⟨-, -, cb, -, h⟩ := callCommon_cases enabled ack s <;> rw [h]
  · exact errorHasNoEffect_reply [c] s
  · exact errorHasNoEffect_ack hack _ s _

theorem dandLoopback_errorHasNoEffect (s : State) : ErrorHasNoEffect s (dandLoopback s) := by
  obtain ⟨-, h⟩ | ⟨-, h⟩ := dandLoopback_cases s <;> rw [h]
  · exact errorHasNoEffect_reply [errUnknownCmd] s
  · exact errorHasNoEffect_reply _ s

/-- `Dispatch` runs one procedure, with an acknowledge code that is no error code. -/
theorem dispatch_errorHasNoEffect {s : State} (hacks : AcksAreNoErrors s.cfg) : ErrorHasNoEffect s (dispatch s) := by
  unfold dispatch
  split_ifs
  · exact dandRead_errorHasNoEffect .word (hacks .word).1 s
  · exact dandRead_errorHasNoEffect .halfword (hacks .halfword).1 s
  · exact dandRead_errorHasNoEffect .byte (hacks .byte).1 s
  · exact dandWrite_errorHasNoEffect .word (hacks .word).2 s
  · exact dandWrite_errorHasNoEffect .halfword (hacks .halfword).2 s
  · exact dandWrite_errorHasNoEffect .byte (hacks .byte).2 s
  · exact callCommon_errorHasNoEffect _ (by decide) s
  · exact callCommon_errorHasNoEffect _ (by decide) s
  · exact dandLoopback_errorHasNoEffect s
  · exact errorHasNoEffect_reply [errUnknownCmd] s

/-- Each of the ten Dandelion commands does what DAND_CMD does with some link payload. -/
theorem exists_exec_eq_dandCmd {p : List Byte} {i : Instr}
    (hi : i ∈ [Instr.dandCmd p, .readWord p, .readHalfword p, .readByte p, .writeWord p, .writeHalfword p, .writeByte p,
      .call p, .sendMessage p, .loopback p]) :
    ∃ link, ∀ s, exec i s = exec (.dandCmd link) s := by
  have hrow {code : Byte} (h : dandelionInstr code p = some i) : ∃ link, ∀ s, exec i s = exec (.dandCmd link) s :=
    ⟨code :: p, exec_of_dandelionInstr h⟩
  simp only [List.mem_cons, List.not_mem_nil, or_false] at hi
  obtain rfl | rfl | rfl | rfl | rfl | rfl | rfl | rfl | rfl | rfl := hi
  · exact ⟨p, fun _ => rfl⟩
  · exact hrow (code := dcReadWord) rfl
  · exact hrow (code := dcReadHalfword) rfl
  · exact hrow (code := dcReadByte) rfl
  · exact hrow (code := dcWriteWord) rfl
  · exact hrow (code := dcWriteHalfword) rfl
  · exact hrow (code := dcWriteByte) rfl
  · exact hrow (code := dcCall) rfl
  · exact hrow (code := dcSendMessage) rfl
  · exact hrow (code := dcLoopback) rfl

/-- What DAND_CMD can do: the catch-all, or `Dispatch` on a written request. -/
theorem exec_dandCmd_cases (link : List Byte) (s : State) :
    exec (.dandCmd link) s = .next (unknownCommand s) ∨
      ∃ r, exec (.dandCmd link) s = .next (dispatch { s with req := r }) := by
  cases link with
  | nil => exact .inl (exec_dandCmd_nil s)
  | cons code p =>
    rw [exec_dandCmd_cons]
    obtain ⟨h, -⟩ | ⟨-, -, h⟩ := withRequest_cases code p dispatch s
    · exact .inl (congrArg Host.Outcome.next h)
    · exact .inr ⟨_, congrArg Host.Outcome.next h⟩

/-- So DAND_CMD answers as a Dandelion procedure does, on whatever request was written. -/
theorem exec_dandCmd_ok {link : List Byte} {s t : State} (h : exec (.dandCmd link) s = .next t) :
    ∃ r, DandOk { s with req := r } t ∧ (AcksAreNoErrors s.cfg → ErrorHasNoEffect { s with req := r } t) := by
  obtain hunknown | ⟨r, hdispatch⟩ := exec_dandCmd_cases link s
  · obtain rfl := Host.Outcome.next.inj (hunknown.symm.trans h)
    exact ⟨s.req, dandOk_unknown s, fun _ => errorHasNoEffect_reply [errUnknownCmd] s⟩
  · obtain rfl := Host.Outcome.next.inj (hdispatch.symm.trans h)
    exact ⟨r, dispatch_ok _, fun hacks => dispatch_errorHasNoEffect hacks⟩

/-- A Dandelion procedure's reply: 1 to 48 bytes and a checksum. -/
theorem DandOk.resp_eq {s t : State} (h : DandOk s t) :
    ∃ b bs, bs.length ≤ 47 ∧ t.resp = ⟨8 * (1 + bs.length), true, true, padBytes 48 (b :: bs)⟩ := by
  obtain ⟨-, -, b, bs, hlen, hresp⟩ := h
  have hone : 1 ≤ (b :: bs).length := Nat.succ_pos _
  refine ⟨b, bs, hlen, ?_⟩
  rw [hresp, responseOfBytes_of_le _ _ hone (Nat.succ_le_succ hlen), List.length_cons, Nat.add_comm]

/-- Settles O53: all ten are DAND_CMD, which answers as a Dandelion procedure does. -/
theorem dandelionInvariants : Obligations.DandelionInvariants := by
  intro s t p i hi ht
  obtain ⟨link, hlink⟩ := exists_exec_eq_dandCmd hi
  rw [hlink] at ht
  obtain ⟨r, hok, herr⟩ := exec_dandCmd_ok ht
  obtain ⟨b, bs, hlen, hresp⟩ := hok.resp_eq
  refine ⟨by rw [hresp], by rw [hresp], ?le, ?ge, (congrArg State.tagState hok.frame :),
    (congrArg State.cascadeLevel hok.frame :), (congrArg State.registry hok.frame :),
    (congrArg State.cfg hok.frame :), fun hacks => herr (acksAreNoErrors_of_list hacks)⟩
  case le => rw [hresp]; dsimp only; omega
  case ge => rw [hresp]; dsimp only; omega

end Sys2Proof.Machine
end

section
/-! The callback registry (44_mailbox_registry.md R270 to R274): what one `Register` event stores, what the platform's
initialisation leaves under each id, and what an invocation gives and changes. -/

namespace Sys2Proof.Machine

/-! ### `Register` (R272) -/

/-- A step on a `Register` event stores the callback, at any time between frames (log 14). -/
theorem step_of_register {s : State} {id : Byte} {cb : Callback} {rest : List Event} (hwf : configWf s.cfg = true)
    (hin : s.inputs = .register id cb :: rest) :
    step s = .next (registerCallback id cb { s with inputs := rest }) := by
  rw [step_of_inputs_cons hwf hin, handleEvent_register]

/-- Settles O11: the step's state is `registerCallback`'s, which writes one entry of the registry. -/
theorem registerStoresOneCallback : Obligations.RegisterStoresOneCallback := by
  intro s rest id cb hwf hin
  refine ⟨_, step_of_register hwf hin, ?stored, fun other hother => ?kept, rfl, rfl, rfl, rfl, rfl, rfl, rfl⟩
  case stored => exact (registered_registerCallback id id cb _).trans (if_pos rfl)
  case kept => exact (registered_registerCallback id other cb _).trans (if_neg hother)

/-! ### The platform's initialisation (R273, R323) -/

/-- The callbacks of a list registered in its order. -/
def registerAll : List (Byte × Callback) → State → State
  | [], s => s
  | p :: ps, s => registerAll ps (registerCallback p.1 p.2 s)

@[simp] theorem registerAll_inputs (ps : List (Byte × Callback)) (s : State) :
    (registerAll ps s).inputs = s.inputs := by
  induction ps generalizing s with
  | nil => rfl
  | cons p ps ih => exact ih _

/-- Registering a list leaves under each id the list's last callback for it, or what was there. -/
theorem registered_registerAll (ps : List (Byte × Callback)) (s : State) (id : Byte) :
    registered (registerAll ps s) id = (ps.reverse.lookup id).or (registered s id) := by
  induction ps generalizing s with
  | nil => rfl
  | cons p ps ih =>
    rw [registerAll, ih, registered_registerCallback, List.reverse_cons, List.lookup_append, Option.or_assoc]
    by_cases h : id = p.1
    · simp [List.lookup, h]
    · simp [List.lookup, h, beq_eq_false_iff_ne.mpr h]

/-- A run of the machine goes on from its first step's answer. -/
theorem core_run_succ {s t : State} (h : step s = .next t) (k : Nat) :
    Host.Core.run core (k + 1) s = Host.Core.run core k t := by
  have hcore : core.step s = .next t := h
  simp only [Host.Core.run, hcore]

/-- Running coming `Register` events, one step for each, registers their callbacks and leaves the later events. -/
theorem core_run_registers (ps : List (Byte × Callback)) {s : State} {rest : List Event}
    (hwf : configWf s.cfg = true) (hin : s.inputs = (ps.map fun p => .register p.1 p.2) ++ rest) :
    Host.Core.run core ps.length s = .next (registerAll ps { s with inputs := rest }) := by
  induction ps generalizing s with
  | nil =>
    obtain rfl : s.inputs = rest := hin
    rfl
  | cons p ps ih =>
    rw [List.length_cons, core_run_succ (step_of_register hwf hin)]
    exact ih hwf rfl

/-- Settles O12: the initialisation is a list of `Register` events, each taken by one step; the last one for an id
counts. -/
theorem initialisationRegistersAll : Obligations.InitialisationRegistersAll := by
  intro s id hwf hin
  refine ⟨registerAll _ { s with inputs := [] }, ?run, registerAll_inputs _ _, registered_registerAll _ _ id⟩
  case run =>
    rw [initialisation, List.length_map]
    exact core_run_registers _ hwf (hin.trans (List.append_nil _).symm)

/-! ### Invocation (R271, R273, R274) -/

theorem invoke_mailboxAddr (s : State) : invoke .mailboxAddr s = (s.cfg.mailboxBase, s) := rfl

theorem invoke_mailboxSize (s : State) : invoke .mailboxSize s = (256, s) := rfl

/-- A platform callback's writes to plain memory count in order, the last one to an address standing (log 26). -/
theorem plainByte_invoke_platform (k : Nat) (s : State) (a : Nat) :
    plainByte (invoke (.platform k) s).2.env.mem a =
      (((Config.platformCallback k s.mailbox s.env).writes.reverse.find? fun w => w.1.toNat == a).map Prod.snd).getD
        (plainByte s.env.mem a) :=
  plainByte_applyWrites _ _ a

/-- The mailbox after T1's `add` (95_test_vectors.md): the sum of words 0 and 1 in word 2. -/
def addedMailbox (mb : Mailbox) : Mailbox := mb.setIfInBounds 2 (mb[0] + mb[1])

theorem invoke_testAdd (s : State) : invoke .testAdd s = (0, { s with mailbox := addedMailbox s.mailbox }) := rfl

theorem addedMailbox_sum (mb : Mailbox) : (addedMailbox mb)[2] = mb[0] + mb[1] :=
  Vector.getElem_setIfInBounds_self _

theorem addedMailbox_other (mb : Mailbox) {k : Nat} (hk : k < 64) (hne : k ≠ 2) : (addedMailbox mb)[k] = mb[k] :=
  Vector.getElem_setIfInBounds_ne hk hne.symm

/-- Settles O51: the frame holds of every callback; then the results and effects, kind by kind. -/
theorem invocationTouchesMailboxAndEnvOnly : Obligations.InvocationTouchesMailboxAndEnvOnly := by
  intro s cb
  obtain ⟨hframe, hmem⟩ := invoke_frame cb s
  refine ⟨hframe, hmem, invoke_mailboxAddr s, invoke_mailboxSize s, ?platform, ?add⟩
  case platform =>
    rintro k _ rfl
    exact ⟨_, rfl, rfl, rfl, plainByte_invoke_platform k s⟩
  case add =>
    exact ⟨_, invoke_testAdd s, addedMailbox_sum _, fun _ hk hne => addedMailbox_other _ hk hne⟩

end Sys2Proof.Machine
end

section
/-! Errors and cut frames (60_exceptions.md): the two transport errors (R287, R288), field loss (R299), and a frame
whose handling field loss or reset cut short (R300, 70_reset_and_hazards.md R320). -/

namespace Sys2Proof

/-! ### Transport errors (R287, R288) -/

/-- A wrong parity bit is looked at before anything else of the frame. -/
theorem decodeFrame_of_wrongParity {f : Frame} (htype : f.frameType = .standard ∨ f.frameType = .anticollision)
    (hparity : f.parityOk = false) : decodeFrame f = .rejected .parity := by
  obtain h | h := htype <;> simp [decodeFrame, h, hparity]

/-- Only a standard frame can be out of AC form, and there the checksum is looked at before the command. -/
theorem decodeFrame_of_wrongChecksum {f : Frame} (htype : f.frameType = .standard ∨ f.frameType = .anticollision)
    (hparity : f.parityOk = true) (hac : isAcForm f = false) (hcrc : crcOk f.bytes = false) :
    decodeFrame f = .rejected .checksum := by
  obtain h | h := htype <;> simp [decodeFrame, h, hparity, hac, hcrc]

theorem crcOk_of_tooFew {bytes : List Byte} (h : bytes.length < 3) : crcOk bytes = false := by
  obtain ⟨htooFew, -, -⟩ := checksumTestIsZeroRemainder
  exact htooFew bytes h

/-- Last two bytes that are not the checksum fail the test, also where they leave no body. -/
theorem crcOk_of_crcA_ne {body : List Byte} {lo hi : Byte} (hne : (crcA body).toNat ≠ lo.toNat + 256 * hi.toNat) :
    crcOk (body ++ [lo, hi]) = false := by
  by_cases hbody : body = []
  · exact crcOk_of_tooFew (by simp [hbody])
  · rwa [← Bool.not_eq_true, crcOk_append_pair_iff hbody, eq_low_high_iff_toNat]

end Sys2Proof

namespace Sys2Proof.Machine

/-- Settles O3: both errors are rejections, found before the command byte is read and answered without `tag_state`. -/
theorem transportErrorsAreAnswered : Obligations.TransportErrorsAreAnswered := by
  intro s rx rest f hwf hin hf htype
  subst hf
  refine ⟨fun hparity => ?parity, fun hparity hac hbad => ?checksum⟩
  case parity =>
    have hdec := decodeFrame_of_wrongParity htype hparity
    exact ⟨_, step_of_decode_rejected hwf hin hdec, isStatusReply_responseOfBytes 0xA5,
      rfl, rfl, rfl, rfl, rfl, rfl, rfl⟩
  case checksum =>
    have hcrc : crcOk (classify s.cfg.rxMaxBits rx).bytes = false := by
      obtain hfew | ⟨body, lo, hi, hbytes, hne⟩ := hbad
      · exact crcOk_of_tooFew hfew
      · exact hbytes ▸ crcOk_of_crcA_ne hne
    have hdec := decodeFrame_of_wrongChecksum htype hparity hac hcrc
    exact ⟨_, step_of_decode_rejected hwf hin hdec, isStatusReply_responseOfBytes 0xAA,
      rfl, rfl, rfl, rfl, rfl, rfl, rfl⟩

/-! ### Field loss (R299) -/

/-- Settles O9: the fields of `fieldLost`, which asks nothing of the state. -/
theorem fieldLossForcesIdle : Obligations.FieldLossForcesIdle := by
  intro s rest hwf hin
  refine ⟨fieldLost { s with inputs := rest }, ?step, rfl⟩
  case step => rw [step_of_inputs_cons hwf hin, handleEvent_fieldLost]

/-! ### A frame cut short (R300, R320) -/

@[simp] theorem keepSideEffect_next (s t : State) :
    keepSideEffect s (.next t) = { s with mailbox := t.mailbox, env := t.env } := rfl

@[simp] theorem keepSideEffect_refused (s : State) (e : Refusal) : keepSideEffect s (.refused e) = s := rfl

@[simp] theorem keepSideEffect_inputs (s : State) (o : Host.Outcome State Fault Refusal) :
    (keepSideEffect s o).inputs = s.inputs := by
  cases o <;> rfl

/-- The state in which the cut falls: the frame's side effect done wholly or not at all, nothing else of its
handling. -/
def beforeCut (rx : List Bool) (done : Bool) (s : State) : State :=
  if done then keepSideEffect s (handleFrame rx s) else s

theorem cutFrame_fieldLost (rx : List Bool) (done : Bool) (s : State) :
    cutFrame rx .fieldLost done s = fieldLost (beforeCut rx done s) := rfl

theorem cutFrame_reset (rx : List Bool) (done : Bool) (s : State) :
    cutFrame rx .reset done s = resetBlock (beforeCut rx done s) := rfl

@[simp] theorem beforeCut_false (rx : List Bool) (s : State) : beforeCut rx false s = s := rfl

@[simp] theorem beforeCut_true (rx : List Bool) (s : State) :
    beforeCut rx true s = keepSideEffect s (handleFrame rx s) := rfl

@[simp] theorem beforeCut_cfg (rx : List Bool) (done : Bool) (s : State) : (beforeCut rx done s).cfg = s.cfg := by
  cases done
  · rfl
  · exact (keepSideEffect_handleFrame rx s).1

@[simp] theorem beforeCut_inputs (rx : List Bool) (done : Bool) (s : State) :
    (beforeCut rx done s).inputs = s.inputs := by
  cases done
  · rfl
  · exact keepSideEffect_inputs s _

/-- What both cuts leave: the tag in `Idle` without a reply or a frame. -/
theorem cutFrame_leaves (rx : List Bool) (cut : Cut) (done : Bool) (s : State) :
    (cutFrame rx cut done s).tagState = .idle ∧ (cutFrame rx cut done s).cascadeLevel = 0 ∧
      (cutFrame rx cut done s).resp = freshResponse ∧ (cutFrame rx cut done s).frame = none ∧
      (cutFrame rx cut done s).cfg = s.cfg ∧ (cutFrame rx cut done s).inputs = s.inputs := by
  cases cut with
  | fieldLost => simp [cutFrame_fieldLost]
  | reset => simp [cutFrame_reset]

/-- What the cut lets stand of the side effect: `env` outlives both cuts, the mailbox only a field loss. -/
theorem cutFrame_sideEffect (rx : List Bool) (cut : Cut) (done : Bool) (s : State) :
    (cutFrame rx cut done s).env = (beforeCut rx done s).env ∧
      (cut = .fieldLost → (cutFrame rx cut done s).mailbox = (beforeCut rx done s).mailbox) := by
  cases cut with
  | fieldLost => simp [cutFrame_fieldLost]
  | reset => simp [cutFrame_reset]

theorem registered_cutFrame_reset (rx : List Bool) (done : Bool) (s : State) (id : Byte) :
    registered (cutFrame rx .reset done s) id = none :=
  registered_emptyRegistry _ id rfl

/-- The uncut handling of the frame is the step on it. -/
theorem step_withFrame {s : State} (hwf : configWf s.cfg = true) (rx : List Bool) (rest : List Event) :
    step { s with inputs := .frameReceived rx :: rest } = handleFrame rx { s with inputs := rest } :=
  step_of_inputs_cons (s := { s with inputs := .frameReceived rx :: rest }) hwf rfl

/-- Settles O10: the cut falls on `beforeCut`, which is the state before the frame or takes `mailbox` and `env` from
the uncut handling. -/
theorem cutFrameIsAllOrNothing : Obligations.CutFrameIsAllOrNothing := by
  intro s rest rx cut done hwf hin
  obtain ⟨htag, hlevel, hresp, hframe, hcfg, hinputs⟩ := cutFrame_leaves rx cut done { s with inputs := rest }
  have heffect := cutFrame_sideEffect rx cut done { s with inputs := rest }
  refine ⟨cutFrame rx cut done { s with inputs := rest }, ?step, htag, hlevel, hresp, hframe, hcfg, hinputs, ?kept,
    ?emptied, ?effectNotDone, ?effectDone⟩
  case step => rw [step_of_inputs_cons hwf hin, handleEvent_frameCut]
  case kept =>
    rintro rfl
    exact cutFrame_fieldLost_registry rx done _
  case emptied =>
    rintro rfl id
    exact registered_cutFrame_reset rx done _ id
  case effectNotDone =>
    rintro rfl
    rwa [beforeCut_false] at heffect
  case effectDone =>
    rintro rfl
    rw [step_withFrame hwf]
    rw [beforeCut_true] at heffect
    refine ⟨fun u hu => ?answered, fun e he => ?refused⟩
    case answered => rwa [hu, keepSideEffect_next] at heffect
    case refused => rwa [he, keepSideEffect_refused] at heffect

end Sys2Proof.Machine
end

section
/-! Refusals and waiting (70_reset_and_hazards.md R322, R332, R337): the only refusals of a step, the configurations that
are refused whatever the event, and the step with no coming event. -/

namespace Sys2Proof.Machine

/-! ### Waiting (R322) -/

/-- With a well-formed configuration and no coming event a step waits (log 15). -/
theorem step_of_inputs_nil {s : State} (hwf : configWf s.cfg = true) (hin : s.inputs = []) : step s = .next s := by
  simp [step, nextEvent, hwf, hin]

/-- Settles O5: it is the waiting case of `step`. -/
theorem waitingChangesNothing : Obligations.WaitingChangesNothing :=
  fun _ => step_of_inputs_nil

/-! ### Ill-formed configurations (R332) -/

/-- An ill-formed configuration is refused before the event is looked at (log 13). -/
theorem step_of_config_not_wf {s : State} (hwf : configWf s.cfg = false) : step s = .refused .illFormedConfig :=
  if_pos hwf

/-- Settles O14: a well-formed configuration contradicts each of the seven ways to be ill formed. -/
theorem illFormedConfigIsRefused : Obligations.IllFormedConfigIsRefused := by
  intro s hbad
  refine step_of_config_not_wf (Bool.eq_false_iff.2 fun hwf => ?_)
  obtain ⟨-, -, -, hnvmStart, hnvmStop, hpage, -, -⟩ := configWf_nvm s.cfg hwf
  obtain ⟨hbase, -, hapart⟩ := configWf_window s.cfg hwf
  obtain ⟨r, t, hne, a, hrLow, hrHigh, htLow, htHigh⟩ | ⟨a, hwLow, hwHigh, hnLow, hnHigh⟩ | ⟨r, hr⟩ | hbound := hbad
  case inl =>
    exact configWf_regions_disjoint s.cfg hwf r t hne a (by simp [inRegion, hrLow, hrHigh])
      (by simp [inRegion, htLow, htHigh])
  case inr.inl => omega
  case inr.inr.inl =>
    obtain ⟨-, -, hstart, hstop⟩ := configWf_region s.cfg hwf r
    exact hr.elim (· hstart) (· hstop)
  case inr.inr.inr => omega

/-! ### The refusals of a step (R337) -/

/-- The two instructions that need an `AUX_HANDLER`, each with the refusal that names its lack (R164, R173). -/
def NeedsHandler (i : Instr) (e : Refusal) : Prop :=
  (i = .timeslot ∧ e = .timeslotWithoutHandler) ∨ ∃ link, i = .t2tRead link ∧ e = .t2tReadWithoutHandler

theorem execTimeslot_refused {s : State} {e : Refusal} (h : execTimeslot s = .refused e) :
    s.cfg.auxPresent = false ∧ e = .timeslotWithoutHandler := by
  unfold execTimeslot at h
  split_ifs at h with haux
  exact ⟨Bool.eq_false_iff.2 haux, (Host.Outcome.refused.inj h).symm⟩

theorem execT2tRead_refused {link : List Byte} {s : State} {e : Refusal} (h : execT2tRead link s = .refused e) :
    s.cfg.auxPresent = false ∧ e = .t2tReadWithoutHandler := by
  unfold execT2tRead at h
  split_ifs at h with haux
  exact ⟨Bool.eq_false_iff.2 haux, (Host.Outcome.refused.inj h).symm⟩

/-- Every instruction but Timeslot and T2T_READ answers a next state on every path. -/
theorem exec_refused {i : Instr} {s : State} {e : Refusal} (h : exec i s = .refused e) :
    s.cfg.auxPresent = false ∧ NeedsHandler i e := by
  cases i with
  | timeslot => exact (execTimeslot_refused h).imp_right fun he => .inl ⟨rfl, he⟩
  | t2tRead link => exact (execT2tRead_refused h).imp_right fun he => .inr ⟨link, rfl, he⟩
  | dandCmd link => obtain hnext | ⟨_, hnext⟩ := exec_dandCmd_cases link s <;> exact nomatch hnext.symm.trans h
  | _ => exact nomatch h

theorem mapNext_refused_inv {f : State → State} {o : Host.Outcome State Fault Refusal} {e : Refusal}
    (h : mapNext f o = .refused e) : o = .refused e := by
  cases o with
  | next u => cases h
  | fault f => cases f
  | refused e => exact h

/-- A refused frame carries an instruction, and the refusal is that instruction's. -/
theorem handleFrame_refused {rx : List Bool} {s : State} {e : Refusal} (h : handleFrame rx s = .refused e) :
    ∃ i, decode s.cfg.rxMaxBits rx = .instr i ∧ exec i (receive rx s) = .refused e := by
  have hdecoded := mapNext_refused_inv h
  cases hdec : decode s.cfg.rxMaxBits rx with
  | instr i => exact ⟨i, rfl, by rwa [hdec, execDecoded_instr] at hdecoded⟩
  | rejected r => simp [hdec] at hdecoded

/-- A `ConfigChange` that is refused would have made an ill-formed configuration (R332; log 20). -/
theorem handleEvent_configChange_refused {new : LiveConfig} {s : State} {e : Refusal}
    (h : handleEvent (.configChange new) s = .refused e) :
    configWf { s.cfg with live := new } = false ∧ e = .illFormedConfig := by
  cases hwf : configWf { s.cfg with live := new } with
  | true => simp [handleEvent_configChange_of_wf hwf] at h
  | false => exact ⟨rfl, Host.Outcome.refused.inj (h.symm.trans (handleEvent_configChange_of_not_wf hwf))⟩

/-- With a well-formed configuration a refusal is the next event's. -/
theorem step_refused_cases {s : State} {e : Refusal} (hwf : configWf s.cfg = true) (h : step s = .refused e) :
    ∃ event rest, s.inputs = event :: rest ∧ handleEvent event { s with inputs := rest } = .refused e := by
  cases hin : s.inputs with
  | nil => simp [step_of_inputs_nil hwf hin] at h
  | cons event rest => exact ⟨event, rest, rfl, step_of_inputs_cons hwf hin ▸ h⟩

/-- Settles O6: by the event the step refused; only a frame and a `ConfigChange` can be. -/
theorem onlyRefusals : Obligations.OnlyRefusals := by
  intro s e hwf hstep
  obtain ⟨event, rest, hin, hevent⟩ := step_refused_cases hwf hstep
  cases event with
  | frameReceived rx =>
    obtain ⟨i, hdec, hexec⟩ := handleFrame_refused hevent
    obtain ⟨haux, ⟨rfl, he⟩ | ⟨link, rfl, he⟩⟩ := exec_refused hexec
    · exact .inl ⟨rx, rest, hin, haux, .inl ⟨hdec, he⟩⟩
    · exact .inl ⟨rx, rest, hin, haux, .inr ⟨link, hdec, he⟩⟩
  | configChange new =>
    exact .inr ⟨new, rest, hin, handleEvent_configChange_refused (s := { s with inputs := rest }) hevent⟩
  | reset | register | fieldLost | frameCut => exact nomatch hevent

end Sys2Proof.Machine
end
